-- ==== Sys2Proof/Word.lean ====
section
/-! DEFINITION. The word types of the DCT core: register words, bytes, aperture offsets and binary64 encodings. -/

namespace Sys2Proof

/-- A register or command word: 32 bits (10_state.md R23, 30_encoding.md R70). -/
abbrev Word := BitVec 32

/-- One byte of a buffer window; a sample is one byte (00_scope.md R6, `SAMPLE_BITS` = 8). -/
abbrev Byte := BitVec 8

/-- An aperture offset: 0 .. 2^24 - 1 (20_memory.md R50). -/
abbrev Offset := BitVec 24

/-- A binary64 value, held as its encoding: bit 63 the sign, bits [62:52] the exponent, bits [51:0] the fraction
(00_scope.md R9, 20_memory.md R55). -/
abbrev F64 := BitVec 64

end Sys2Proof
end

