-- ==== Sys2Proof/Syntax.lean ====
section
/-! DEFINITION. The commands of the core, one constructor for each row of spec/opcode_table.json. -/

namespace Sys2Proof

/-- A command (30_encoding.md R72). `fwdb` and `invb` carry the block-row index p (BROW) and the block-column index q
(BCOL) of 30_encoding.md R73. -/
inductive Instr where
  /-- 43_scheduler.md R126. -/
  | nop
  /-- 40_padder.md R83. -/
  | pad
  /-- 41_forward_quantize.md R95. -/
  | fwd
  /-- 42_inverse_dequantize.md R109. -/
  | inv
  /-- 44_reassembler.md R137. -/
  | reasm
  /-- 43_scheduler.md R127. -/
  | run
  /-- 41_forward_quantize.md R94. -/
  | fwdb (brow bcol : Nat)
  /-- 42_inverse_dequantize.md R108. -/
  | invb (brow bcol : Nat)
deriving DecidableEq, Repr

end Sys2Proof
end

