-- ==== Sys2Proof/WellFormed.lean ====
section
/-! DEFINITION. Which terms of `Instr` are commands: a block index fits its 10-bit field. -/

namespace Sys2Proof

/-- A block index is in 0..1023 (30_encoding.md R73, R76). -/
abbrev BlockIndexFits (n : Nat) : Prop := n < 1024

/-- The well-formed commands: those that 30_encoding.md R76 gives a word. -/
def Instr.wellFormed : Instr → Bool
  | .nop => true
  | .pad => true
  | .fwd => true
  | .inv => true
  | .reasm => true
  | .run => true
  | .fwdb p q => decide (BlockIndexFits p) && decide (BlockIndexFits q)
  | .invb p q => decide (BlockIndexFits p) && decide (BlockIndexFits q)

/-- `i` is well formed. -/
abbrev Instr.WellFormed (i : Instr) : Prop := i.wellFormed = true

end Sys2Proof
end

