-- ==== Sys2Proof/Decode.lean ====
section
/-! DEFINITION. The command decoder (30_encoding.md R70 to R75), total on every word and rejecting by name, and the
encoder of 30_encoding.md R76. -/

namespace Sys2Proof

/-- Why a word is illegal (30_encoding.md R74, one name for each case). -/
inductive Illegal where
  /-- OP is in 0x8..0xF. -/
  | reservedOp
  /-- RSV = w[11:4] is not 0. -/
  | nonzeroReserved
  /-- OP is a Z-format code and w[31:12] is not 0. -/
  | nonzeroOperandField
deriving DecidableEq, Repr

/-- OP, bits [3:0] (30_encoding.md R70). -/
def fieldOp (w : Word) : BitVec 4 := w.extractLsb' 0 4

/-- RSV, bits [11:4] (30_encoding.md R70). -/
def fieldRsv (w : Word) : BitVec 8 := w.extractLsb' 4 8

/-- BROW, bits [21:12], zero-extended (30_encoding.md R70, R73). -/
def fieldBrow (w : Word) : Nat := (w.extractLsb' 12 10).toNat

/-- BCOL, bits [31:22], zero-extended (30_encoding.md R70, R73). -/
def fieldBcol (w : Word) : Nat := (w.extractLsb' 22 10).toNat

/-- A Z-format word: legal only if bits [31:12] are 0 as well (30_encoding.md R71). -/
def decodeZ (i : Instr) (w : Word) : Except Illegal Instr :=
  if w.extractLsb' 12 20 = 0 then .ok i else .error .nonzeroOperandField

/-- The decoder: a legal command, or the reason the word is illegal (30_encoding.md R72, R74, R75). -/
def decode (w : Word) : Except Illegal Instr :=
  if 8 ≤ (fieldOp w).toNat then .error .reservedOp
  else if fieldRsv w ≠ 0 then .error .nonzeroReserved
  else
    match (fieldOp w).toNat with
    | 0 => decodeZ .nop w
    | 1 => decodeZ .pad w
    | 2 => decodeZ .fwd w
    | 3 => decodeZ .inv w
    | 4 => decodeZ .reasm w
    | 5 => decodeZ .run w
    | 6 => .ok (.fwdb (fieldBrow w) (fieldBcol w))
    | _ => .ok (.invb (fieldBrow w) (fieldBcol w))

/-- A B-format word: `(Q << 22) | (P << 12) | OP` (30_encoding.md R76). -/
def encodeB (op p q : Nat) : Word :=
  (BitVec.ofNat 32 q <<< 22) ||| (BitVec.ofNat 32 p <<< 12) ||| BitVec.ofNat 32 op

/-- The encoder (30_encoding.md R76). -/
def encode : Instr → Word
  | .nop => 0x0
  | .pad => 0x1
  | .fwd => 0x2
  | .inv => 0x3
  | .reasm => 0x4
  | .run => 0x5
  | .fwdb p q => encodeB 0x6 p q
  | .invb p q => encodeB 0x7 p q

/-- The assembler of 30_encoding.md R76, on a mnemonic and its operand numbers. -/
def assemble (mnemonic : String) (operands : List Nat) : Option Instr :=
  let i : Option Instr :=
    match mnemonic, operands with
    | "nop", [] => some .nop
    | "pad", [] => some .pad
    | "fwd", [] => some .fwd
    | "inv", [] => some .inv
    | "reasm", [] => some .reasm
    | "run", [] => some .run
    | "fwdb", [p, q] => some (.fwdb p q)
    | "invb", [p, q] => some (.invb p q)
    | _, _ => none
  i.filter Instr.wellFormed

/-- What the decoder reads from the low `nbits` bits of `w` as a command word, the bits above them 0. A command is one
32-bit word, so the table's bit numbers are the word's own (30_encoding.md R70). -/
def decodeTableWord (nbits w : Nat) : Option Instr :=
  match decode (BitVec.ofNat 32 (w % 2 ^ nbits)) with
  | .ok i => some i
  | .error _ => none

end Sys2Proof
end

