-- ==== Sys2Proof/Machine/Sparse.lean ====
section
/-! DEFINITION. Sparse maps: a list of key and value pairs in one canonical form, the keys strictly rising and no value
equal to what an unlisted key reads as. The buffer memory and the tag array are held so. -/

namespace Sys2Proof.Machine

/-- The value at a key; `d` where none is listed. -/
def sparseGet {α : Type} (d : α) : List (Nat × α) → Nat → α
  | [], _ => d
  | (k, v) :: rest, a => if a < k then d else if a = k then v else sparseGet d rest a

/-- The map with the value at one key replaced; writing `d` takes the entry out. -/
def sparseSet {α : Type} [DecidableEq α] (d : α) : List (Nat × α) → Nat → α → List (Nat × α)
  | [], a, v => if v = d then [] else [(a, v)]
  | (k, w) :: rest, a, v =>
    if a < k then (if v = d then (k, w) :: rest else (a, v) :: (k, w) :: rest)
    else if a = k then (if v = d then rest else (a, v) :: rest)
    else (k, w) :: sparseSet d rest a v

/-- The canonical form of a map whose keys are all at least `lo`. -/
def sparseWfFrom {α : Type} [DecidableEq α] (d : α) : Nat → List (Nat × α) → Bool
  | _, [] => true
  | lo, (k, v) :: rest => decide (lo ≤ k) && decide (v ≠ d) && sparseWfFrom d (k + 1) rest

/-- The map with the listed pairs written one after another. -/
def sparseSetAll {α : Type} [DecidableEq α] (d : α) (m : List (Nat × α)) (cells : List (Nat × α)) : List (Nat × α) :=
  cells.foldl (fun m c => sparseSet d m c.1 c.2) m

end Sys2Proof.Machine
end

