-- ==== Sys2Proof/Config.lean ====
section
/-! DEFINITION. The implementation parameters of 00_scope.md R6, and the free values: constants without a body where
the spec fixes no value. -/

namespace Sys2Proof.Config

/-- `BLK`, the block edge length (00_scope.md R6). -/
abbrev blk : Nat := 8

/-- `MAX_W`, the largest padded width the buffers hold (00_scope.md R6). -/
abbrev maxW : Nat := 1024

/-- `MAX_H`, the largest padded height the buffers hold (00_scope.md R6). -/
abbrev maxH : Nat := 1024

/-- `STRIDE`, the row stride of every buffer window, in elements (00_scope.md R6). -/
abbrev stride : Nat := 1024

/-- `SMAX`, the largest sample value (00_scope.md R6). -/
abbrev sMax : Nat := 255

/-- What a byte of a buffer reads as when the memory list holds no entry for it.
DESIGN CHOICE (log 5), unsafe: the spec leaves the contents after reset unspecified (10_state.md R41). -/
abbrev unlistedByte : Byte := 0

/-- `APERTURE_BASE`, the bus address of offset 0 (00_scope.md R6): OPEN, a free constant (log 14). -/
opaque apertureBase : Nat

/-- `QTABLE`, row by row, each entry less one (00_scope.md R6: 64 integers in 1..65535): OPEN, a free constant (log 8). -/
opaque qtableLessOne : Fin 64 → Fin 65535

/-- The binary64 operations of 00_scope.md R9. -/
inductive FloatOp where
  | add
  | mul
  | div
deriving DecidableEq, Repr

/-- The sign and the payload of the NaN that an operation without a numeric result gives: IEEE 754 leaves them open.
A free constant (log 9); no command reaches it (42_inverse_dequantize.md R112). -/
opaque nanSignPayload : FloatOp → F64 → F64 → BitVec 52

/-- The sample and clamp flag of a NaN or an infinity: 44_reassembler.md R135 defines toSample on finite values only.
The first argument is the rounding mode bit. A free constant (log 10). -/
opaque nonFiniteSample : Bool → F64 → Byte × Bool

end Sys2Proof.Config
end

