-- ==== Sys2Proof/Machine/State.lean ====
section
/-! DEFINITION. The machine's state as plain data (10_state.md), its reset value (10_state.md R49), and the reasons a step
stops. -/

namespace Sys2Proof.Machine

/-- ENG.PHASE (10_state.md R46). -/
inductive Phase where
  | idle
  | busy
deriving DecidableEq, Repr

/-- A block's tag (10_state.md R45). -/
inductive Tag where
  /-- The block of COEF holds nothing defined for the current canvas. -/
  | empty
  /-- The block holds the quantized forward coefficients of the current PSRC block. -/
  | qcoef
  /-- The block holds its dequantized inverse reconstruction. -/
  | recon
deriving DecidableEq, Repr

/-- ENG.SNAP: CTRL, IN_W, IN_H and CLAMP_CNT as copied at acceptance (10_state.md R46). -/
structure Snap where
  ctrl : Word
  inW : Word
  inH : Word
  clampCnt : Word
deriving DecidableEq, Repr

/-- The size of a host access: 1, 2 or 4 bytes (20_memory.md R50). -/
inductive Size where
  | byte
  | half
  | word
deriving DecidableEq, Repr

/-- A bus operation of the host, by aperture offset (20_memory.md R50, 00_scope.md R11). Of a write's data the low bytes
are those of its size. -/
inductive HostOp where
  | read (size : Size) (addr : Offset)
  | write (size : Size) (addr : Offset) (data : Word)
  /-- `poll OFF, MASK, V`: a 4-byte read, repeated until `value & MASK = V`. -/
  | poll (addr : Offset) (mask value : Word)
deriving DecidableEq, Repr

/-- Which agent moves (00_scope.md R5). A reset carries the image of the four buffers it leaves: a free input of the
reset step (70_reset_and_hazards.md R165; log 6). -/
inductive Turn where
  | host
  | engine
  | reset (image : List Host.Cell)
deriving DecidableEq, Repr

/-- What an access with an OKAY response returned (20_memory.md R50). -/
inductive Response where
  /-- A write completed. -/
  | okay
  /-- A read returned this value: its size's bytes, zero-extended. -/
  | data (value : Word)
deriving DecidableEq, Repr

/-- The buffer memory: the bytes of IN, PSRC, OUT and COEF by aperture offset (20_memory.md R51), rising, less those that
read as `Config.unlistedByte`. -/
abbrev Memory := List Host.Cell

/-- The tag array by block (10_state.md R45), rising, less the EMPTY blocks. -/
abbrev TagMap := List (Nat × Tag)

/-- The state (10_state.md R20, and the model's own `host`, `turns` and `response`). -/
structure State where
  /-- CTRL (10_state.md R27). -/
  ctrl : Word
  /-- STATUS.PVALID (10_state.md R29). -/
  pvalid : Bool
  /-- IRQ_STATUS (10_state.md R30). -/
  irqStatus : Word
  /-- IRQ_ENABLE (10_state.md R31). -/
  irqEnable : Word
  /-- ERR_CODE (10_state.md R32). -/
  errCode : Word
  /-- ERR_CMD (10_state.md R33). -/
  errCmd : Word
  /-- IN_W (10_state.md R34). -/
  inW : Word
  /-- IN_H (10_state.md R35). -/
  inH : Word
  /-- PAD_W (10_state.md R36). -/
  padW : Word
  /-- PAD_H (10_state.md R37). -/
  padH : Word
  /-- CLAMP_CNT (10_state.md R38). -/
  clampCnt : Word
  /-- QTAB, bits [15:0] of its 64 registers, row by row (10_state.md R40). -/
  qtab : Vector (BitVec 16) 64
  /-- IN, PSRC, OUT and COEF (10_state.md R41 to R44). -/
  mem : Memory
  /-- TAG (10_state.md R45). -/
  tags : TagMap
  /-- ENG.PHASE, and so STATUS.BUSY (10_state.md R29, R46). -/
  phase : Phase
  /-- ENG.CMD (10_state.md R46). -/
  engCmd : Word
  /-- ENG.SNAP (10_state.md R46). -/
  engSnap : Snap
  /-- The host's pending operations, oldest first (the model's own; 20_memory.md R60; log 3). -/
  host : List HostOp
  /-- Which agents move next (the model's own; 43_scheduler.md R131; log 2). -/
  turns : List Turn
  /-- What the last OKAY access returned (the model's own; 20_memory.md R50; log 11). -/
  response : Option Response
deriving DecidableEq, Repr

/-- A host access got the BUSERR response (60_exceptions.md R150), which "a model of the block alone treats … as a fault
of the host's access". Raised by the host's read, write or poll; safe (log 1). One name for each case of R150. -/
inductive Fault where
  /-- The offset is unmapped: a hole of the register window or of the aperture (20_memory.md R51, R52). Safe. -/
  | busUnmapped
  /-- A register access whose size is not 4 (20_memory.md R52). Safe. -/
  | busRegisterSize
  /-- A misaligned register access (20_memory.md R52). Safe. -/
  | busRegisterMisaligned
  /-- A misaligned sample-window access (20_memory.md R54). Safe. -/
  | busSampleMisaligned
  /-- A coefficient-window access whose size is not 4 (20_memory.md R55). Safe. -/
  | busCoefSize
  /-- A misaligned coefficient-window access (20_memory.md R55). Safe. -/
  | busCoefMisaligned
  /-- A buffer-window access while STATUS.BUSY = 1 (20_memory.md R56). Safe. -/
  | busBufferBusy
  /-- An access to a window element that does not exist (20_memory.md R53). Safe; with MAX_W = MAX_H = 1024 every element
  exists, so nothing raises it. -/
  | busNoElement
deriving DecidableEq, Repr

/-- Why the model gives no meaning. -/
inductive Refusal where
  /-- `exec` has no meaning for this instruction yet. Raised by an arm of `exec`; safe. No arm raises it. -/
  | notModelled (mnemonic : String)
  /-- The Engine is BUSY with an ENG.CMD that is no legal command. Raised by the Engine's step; safe: acceptance stores
  legal words only (43_scheduler.md R120), so no run reaches it (log 16). -/
  | engineWordIllegal
deriving DecidableEq, Repr

/-- QTAB as the parameter QTABLE has it (10_state.md R40, 00_scope.md R6; log 8). -/
def qtableParameter : Vector (BitVec 16) 64 :=
  Vector.ofFn fun k => BitVec.ofNat 16 ((Config.qtableLessOne k).val + 1)

/-- The state right after reset (10_state.md R49). The spec gives no contents of the buffers (log 5), none of ENG.CMD and
ENG.SNAP (log 7), and the model's own fields are empty (logs 2, 3 and 11). -/
def State.reset : State where
  ctrl := 0
  pvalid := false
  irqStatus := 0
  irqEnable := 0
  errCode := 0
  errCmd := 0
  inW := 0
  inH := 0
  padW := 0
  padH := 0
  clampCnt := 0
  qtab := qtableParameter
  mem := []
  tags := []
  phase := .idle
  engCmd := 0
  engSnap := ⟨0, 0, 0, 0⟩
  host := []
  turns := []
  response := none

end Sys2Proof.Machine
end

