-- ==== Sys2Proof/Machine/Ops.lean ====
section
/-! DEFINITION. The named operations on the buffers, the tags and the Engine, error capture (the counterpart of taking an
exception, 60_exceptions.md R148) and its clearing (R152), and the lifecycle every command goes through
(43_scheduler.md R120, R122). -/

namespace Sys2Proof.Machine

/-! ## The buffer memory -/

/-- One byte of the buffer memory. -/
def Memory.readByte (m : Memory) (a : Nat) : Byte := sparseGet Config.unlistedByte m a

/-- The memory with the listed bytes stored, in order. -/
def Memory.store (m : Memory) (cells : List Host.Cell) : Memory := sparseSetAll Config.unlistedByte m cells

/-- The canonical form: addresses strictly rising, no entry that reads as an unlisted byte does. -/
def Memory.wf (m : Memory) : Bool := sparseWfFrom Config.unlistedByte 0 m

/-- `n` bytes from `a` on as one number, the lowest address least significant (20_memory.md R57). -/
def Memory.readLe (m : Memory) (a : Nat) : Nat → Nat
  | 0 => 0
  | n + 1 => (m.readByte a).toNat + 256 * Memory.readLe m (a + 1) n

/-- The cells of `n` bytes of a number from `a` on, the least significant at the lowest address (20_memory.md R57). -/
def leCells (a : Nat) : Nat → Nat → List Host.Cell
  | 0, _ => []
  | n + 1, v => (a, BitVec.ofNat 8 v) :: leCells (a + 1) n (v / 256)

/-- The sample buffers (10_state.md R41, R42, R44). -/
inductive SampleBuf where
  | input
  | psrc
  | out
deriving DecidableEq, Repr

/-- The base of a sample buffer's window (20_memory.md R53). -/
def SampleBuf.base : SampleBuf → Nat
  | .input => 0x100000
  | .psrc => 0x200000
  | .out => 0x300000

/-- The base of the COEF window (20_memory.md R55). -/
def coefBase : Nat := 0x800000

/-- Where the element at row r and column c of a sample buffer lives (20_memory.md R53). -/
def sampleAddr (b : SampleBuf) (r c : Nat) : Nat := b.base + r * Config.stride + c

/-- Where COEF[r][c] lives: 8 bytes from here (20_memory.md R55). -/
def coefAddr (r c : Nat) : Nat := coefBase + 8 * (r * Config.stride + c)

/-- An element of a sample buffer. -/
def Memory.sample (m : Memory) (b : SampleBuf) (r c : Nat) : Byte := m.readByte (sampleAddr b r c)

/-- COEF[r][c], its low byte at the lowest address (20_memory.md R55, R57). -/
def Memory.coef (m : Memory) (r c : Nat) : F64 := BitVec.ofNat 64 (m.readLe (coefAddr r c) 8)

/-- The cells that hold the elements `f r c` of the region of `h` rows and `w` columns of a sample buffer. -/
def sampleRegion (b : SampleBuf) (h w : Nat) (f : Nat → Nat → Byte) : List Host.Cell :=
  (List.range h).flatMap fun r => (List.range w).map fun c => (sampleAddr b r c, f r c)

/-- The cells that hold the 64 coefficients `f x y` of block (p, q), whose origin is (8p, 8q) (00_scope.md R13). -/
def coefBlockCells (p q : Nat) (f : Nat → Nat → F64) : List Host.Cell :=
  (List.range Config.blk).flatMap fun x => (List.range Config.blk).flatMap fun y =>
    leCells (coefAddr (Config.blk * p + x) (Config.blk * q + y)) 8 (f x y).toNat

/-- A byte of one of the four buffers (20_memory.md R51). -/
def inBuffers (a : Nat) : Bool :=
  (decide (0x100000 ≤ a) && decide (a < 0x400000)) || (decide (0x800000 ≤ a) && decide (a < 0x1000000))

/-- The memory that holds an image of the four buffers (70_reset_and_hazards.md R165). -/
def Memory.ofImage (image : List Host.Cell) : Memory :=
  Memory.store [] (image.filter fun c => inBuffers c.1)

/-! ## The tags -/

/-- The key of TAG[p][q]. Block indices have 10 bits (30_encoding.md R73). -/
def tagKey (p q : Nat) : Nat := p * 1024 + q

/-- TAG[p][q] (10_state.md R45). -/
def State.tag (s : State) (p q : Nat) : Tag := sparseGet .empty s.tags (tagKey p q)

/-- The canonical form of the tag array. -/
def TagMap.wf (t : TagMap) : Bool := sparseWfFrom Tag.empty 0 t

/-- `TAG[p][q] <- t`. -/
def State.setTag (s : State) (p q : Nat) (t : Tag) : State :=
  { s with tags := sparseSet .empty s.tags (tagKey p q) t }

/-- Every tag set to EMPTY (40_padder.md R83). -/
def State.clearTags (s : State) : State := { s with tags := [] }

/-! ## Updates of the state -/

/-- The state with its memory's bytes stored. -/
def State.store (s : State) (cells : List Host.Cell) : State := { s with mem := s.mem.store cells }

/-- `PAD_W.PW <- pw; PAD_H.PH <- ph; STATUS.PVALID <- 1` (40_padder.md R83). -/
def State.setCanvas (s : State) (pw ph : Nat) : State :=
  { s with padW := BitVec.ofNat 32 pw, padH := BitVec.ofNat 32 ph, pvalid := true }

/-- The host's access is over with this response. -/
def State.respond (s : State) (r : Response) : State := { s with response := some r }

/-! ## IRQ_STATUS bits (10_state.md R30) -/

/-- IRQ_STATUS.DONE, bit [0]. -/
def irqDone : Word := 0x1
/-- IRQ_STATUS.ERR, bit [1]. -/
def irqErr : Word := 0x2
/-- IRQ_STATUS.CLAMP, bit [2]. -/
def irqClamp : Word := 0x4
/-- IRQ_STATUS.OVERRUN, bit [3]. -/
def irqOverrun : Word := 0x8

/-! ## Command errors: taking the exception and clearing it -/

/-- The command errors (60_exceptions.md R146). -/
inductive CmdError where
  | invalidDimensions
  | allocationFailure
  | illegalCommand
  | busy
  | notPadded
  | blockRange
  | sequence
deriving DecidableEq, Repr

/-- The code that ERR_CODE.CODE holds (60_exceptions.md R146). -/
def CmdError.code : CmdError → Word
  | .invalidDimensions => 1
  | .allocationFailure => 2
  | .illegalCommand => 3
  | .busy => 4
  | .notPadded => 5
  | .blockRange => 6
  | .sequence => 7

/-- Error capture when the word `w` is rejected (60_exceptions.md R148): the first error is kept in ERR_CODE and ERR_CMD
and sets ERR; while ERR is set a further one only sets OVERRUN. Nothing else changes. -/
def State.raise (s : State) (e : CmdError) (w : Word) : State :=
  if s.irqStatus &&& irqErr = 0 then
    { s with errCode := e.code, errCmd := w, irqStatus := s.irqStatus ||| irqErr }
  else { s with irqStatus := s.irqStatus ||| irqOverrun }

/-- The W1C write of IRQ_STATUS (10_state.md R30), the counterpart of a trap return (60_exceptions.md R152): it clears the
bits that are 1 in the data and changes nothing else. -/
def State.clearIrq (s : State) (v : Word) : State := { s with irqStatus := s.irqStatus &&& ~~~v }

/-! ## The command lifecycle -/

/-- Acceptance of the word `w` (43_scheduler.md R120). -/
def State.accept (s : State) (w : Word) : State :=
  { s with phase := .busy, engCmd := w, engSnap := ⟨s.ctrl, s.inW, s.inH, s.clampCnt⟩ }

/-- The end of every completion: `STATUS.BUSY <- 0; IRQ_STATUS.DONE <- 1` (43_scheduler.md R122). -/
def State.finish (s : State) : State := { s with phase := .idle, irqStatus := s.irqStatus ||| irqDone }

/-- The next step of command `i`'s lifecycle. While the Engine is IDLE the command is presented at CMD: its acceptance
checks are run, and it is rejected with the first error or accepted (43_scheduler.md R120). While the Engine is BUSY with
it, it completes: its effect and then R122's end (log 4). -/
def State.lifecycle (i : Instr) (check : State → Option CmdError) (effect : State → State) (s : State) :
    Host.Outcome State Fault Refusal :=
  match s.phase with
  | .idle =>
    match check s with
    | some e => .next (s.raise e (encode i))
    | none => .next (s.accept (encode i))
  | .busy => .next (effect s).finish

end Sys2Proof.Machine
end

