-- ==== Sys2Proof/Machine/Flags.lean ====
section
/-! DEFINITION. The status word, the interrupt line and the clamp report: the only flags of the block
(10_state.md R29, R30, R47, R48). -/

namespace Sys2Proof.Machine

/-- One bit as a word. -/
def bitWord (b : Bool) : Word := if b then 1 else 0

/-- STATUS.BUSY (10_state.md R29, R46). -/
def State.isBusy (s : State) : Bool := s.phase == .busy

/-- STATUS: BUSY in bit [0], PVALID in bit [1] (10_state.md R29). -/
def State.statusWord (s : State) : Word := bitWord s.isBusy ||| (bitWord s.pvalid <<< 1)

/-- The IRQ output (10_state.md R47): DONE, ERR and CLAMP, each under its enable bit. OVERRUN does not drive it. -/
def State.irqLine (s : State) : Bool :=
  (s.irqStatus.getLsbD 0 && s.irqEnable.getLsbD 0) || (s.irqStatus.getLsbD 1 && s.irqEnable.getLsbD 1) ||
    (s.irqStatus.getLsbD 2 && s.irqEnable.getLsbD 2)

/-- `min(c + k, 0xFFFFFFFF)` (44_reassembler.md R136). -/
def saturatingCount (c : Word) (k : Nat) : Word := BitVec.ofNat 32 (min (c.toNat + k) 0xFFFFFFFF)

/-- The clamp report of `k` clamped elements (44_reassembler.md R136): CLAMP_CNT from the snapshot's count, and CLAMP if
any was clamped. -/
def State.reportClamps (s : State) (k : Nat) : State :=
  { s with
    clampCnt := saturatingCount s.engSnap.clampCnt k
    irqStatus := if 0 < k then s.irqStatus ||| irqClamp else s.irqStatus }

end Sys2Proof.Machine
end

