-- ==== Sys2Proof/Machine/Float.lean ====
section
/-! DEFINITION. binary64 arithmetic under roundTiesToEven (00_scope.md R9): each operation computes its exact result as
an integer times a power of two and rounds it once. What binary64 means is IEEE 754's (93_implementation_defined.md G1). -/

namespace Sys2Proof.Machine

/-- The sign bit, bit 63. -/
def f64Sign (a : F64) : Bool := decide (2 ^ 63 ≤ a.toNat)

/-- The biased exponent field, bits [62:52]. -/
def f64Exp (a : F64) : Nat := a.toNat / 2 ^ 52 % 2 ^ 11

/-- The fraction field, bits [51:0]. -/
def f64Frac (a : F64) : Nat := a.toNat % 2 ^ 52

/-- A NaN: exponent all ones, fraction not 0. -/
def f64IsNaN (a : F64) : Bool := f64Exp a == 2047 && f64Frac a != 0

/-- An infinity: exponent all ones, fraction 0. -/
def f64IsInf (a : F64) : Bool := f64Exp a == 2047 && f64Frac a == 0

/-- Neither a NaN nor an infinity. -/
def f64IsFinite (a : F64) : Bool := f64Exp a != 2047

/-- The significand of a finite value as an integer: its magnitude is `f64Mant a * 2 ^ f64Lsb a`. -/
def f64Mant (a : F64) : Nat := if f64Exp a = 0 then f64Frac a else 2 ^ 52 + f64Frac a

/-- The exponent of the last place of a finite value. -/
def f64Lsb (a : F64) : Int := if f64Exp a = 0 then -1074 else (f64Exp a : Int) - 1075

/-- The encoding with a sign and the 63 bits below it. -/
def f64Pack (neg : Bool) (low : Nat) : F64 := BitVec.ofNat 64 (if neg then 2 ^ 63 + low else low)

/-- The 63 low bits of an infinity. -/
def f64InfLow : Nat := 2047 * 2 ^ 52

/-- The value with its sign changed. -/
def f64Neg (a : F64) : F64 := f64Pack (!f64Sign a) (a.toNat % 2 ^ 63)

/-- `m / 2 ^ k` rounded to the nearest integer, ties to even. -/
def shiftRightRne (m k : Nat) : Nat :=
  let q := m / 2 ^ k
  let r := 2 * (m % 2 ^ k)
  if 2 ^ k < r ∨ (r = 2 ^ k ∧ q % 2 = 1) then q + 1 else q

/-- The exponent of the last place of the binary64 value nearest to `m * 2 ^ e`, before a carry out of rounding: 53
significant bits, and never below that of the subnormal numbers. -/
def lastPlace (m : Nat) (e : Int) : Int := max (e + Nat.log2 m - 52) (-1074)

/-- `rne64` of `± m * 2 ^ e` (00_scope.md R9). A significand that rounds up to 2^53 carries into the exponent field by the
addition, and a magnitude past the largest finite one is an infinity. -/
def round64 (neg : Bool) (m : Nat) (e : Int) : F64 :=
  if m = 0 then f64Pack neg 0
  else
    let t := lastPlace m e
    let n := if t ≤ e then m * 2 ^ (e - t).toNat else shiftRightRne m (t - e).toNat
    f64Pack neg (min ((t + 1074).toNat * 2 ^ 52 + n) f64InfLow)

/-- A quiet NaN whose sign and payload are free (log 9). -/
def freeNaN (op : Config.FloatOp) (a b : F64) : F64 :=
  let x := (Config.nanSignPayload op a b).toNat
  f64Pack (decide (2 ^ 51 ≤ x)) (f64InfLow + 2 ^ 51 + x % 2 ^ 51)

/-- A finite value as an integer count of `2 ^ e`, for an `e` not above its last place. -/
def f64Scaled (a : F64) (e : Int) : Int :=
  let n : Nat := f64Mant a * 2 ^ (f64Lsb a - e).toNat
  if f64Sign a then -(n : Int) else n

/-- `fadd` on finite operands. An exact sum of 0 is +0.0, but for the sum of two negative zeros. -/
def faddFinite (a b : F64) : F64 :=
  let e := min (f64Lsb a) (f64Lsb b)
  let x := f64Scaled a e + f64Scaled b e
  if x = 0 then f64Pack (f64Sign a && f64Sign b) 0 else round64 (decide (x < 0)) x.natAbs e

/-- `fadd(a, b)` (00_scope.md R9). -/
def fadd (a b : F64) : F64 :=
  if f64IsFinite a && f64IsFinite b then faddFinite a b
  else if f64IsNaN a || f64IsNaN b then freeNaN .add a b
  else if f64IsInf a && f64IsInf b && f64Sign a != f64Sign b then freeNaN .add a b
  else if f64IsInf a then a else b

/-- `fmul` on finite operands. -/
def fmulFinite (a b : F64) : F64 :=
  round64 (f64Sign a != f64Sign b) (f64Mant a * f64Mant b) (f64Lsb a + f64Lsb b)

/-- `fmul(a, b)` (00_scope.md R9). -/
def fmul (a b : F64) : F64 :=
  if f64IsFinite a && f64IsFinite b then fmulFinite a b
  else if f64IsNaN a || f64IsNaN b then freeNaN .mul a b
  else if f64IsInf a && f64IsInf b then f64Pack (f64Sign a != f64Sign b) f64InfLow
  else if f64IsFinite a && f64Mant a == 0 || f64IsFinite b && f64Mant b == 0 then freeNaN .mul a b
  else f64Pack (f64Sign a != f64Sign b) f64InfLow

/-- How many quotient bits `fdivFinite` takes below the point: enough for 54 significant ones and a sticky bit whatever
the operands. -/
def divScale : Nat := 108

/-- `fdiv` on finite operands, the divisor not 0. The last bit of the integer rounded says whether a remainder is left,
so one rounding of it is the rounding of the exact quotient. -/
def fdivFinite (a b : F64) : F64 :=
  let num := f64Mant a * 2 ^ divScale
  let q := num / f64Mant b
  let sticky := if num % f64Mant b = 0 then 0 else 1
  round64 (f64Sign a != f64Sign b) (2 * q + sticky) (f64Lsb a - f64Lsb b - divScale - 1)

/-- `fdiv(a, b)` (00_scope.md R9). -/
def fdiv (a b : F64) : F64 :=
  let neg := f64Sign a != f64Sign b
  if f64IsNaN a || f64IsNaN b then freeNaN .div a b
  else if f64IsInf a then (if f64IsInf b then freeNaN .div a b else f64Pack neg f64InfLow)
  else if f64IsInf b then f64Pack neg 0
  else if f64Mant b = 0 then (if f64Mant a = 0 then freeNaN .div a b else f64Pack neg f64InfLow)
  else fdivFinite a b

/-- `f64(n)`, for n < 2^53 its exact value (00_scope.md R9). -/
def f64OfNat (n : Nat) : F64 := round64 false n 0

/-- +0.0 (00_scope.md R9). -/
def f64Zero : F64 := 0

/-- 1.0. -/
def f64One : F64 := 0x3FF0000000000000

end Sys2Proof.Machine
end

