-- ==== Sys2Proof/Machine/Operands.lean ====
section
/-! DEFINITION. What the commands read besides the buffers: dimensions, the fields of CTRL, the block grid, and the
constant tables CT, AL and QS. -/

namespace Sys2Proof.Machine

/-! ## Dimensions -/

/-- `padDim(n) = ((n + 7) div 8) * 8` (40_padder.md R80). -/
def padDim (n : Nat) : Nat := (n + 7) / 8 * 8

/-- Bits [15:0] of a dimension register (10_state.md R34 to R37). -/
def dimField (w : Word) : Nat := (w.extractLsb' 0 16).toNat

/-- PW, the padded width (10_state.md R36). -/
def State.pw (s : State) : Nat := dimField s.padW

/-- PH, the padded height (10_state.md R37). -/
def State.ph (s : State) : Nat := dimField s.padH

/-- The block grid in raster order, p outer and q inner, both rising (43_scheduler.md R124). -/
def State.grid (s : State) : List (Nat × Nat) :=
  (List.range (s.ph / Config.blk)).flatMap fun p => (List.range (s.pw / Config.blk)).map fun q => (p, q)

/-- Block (p, q) lies in the grid: `8p < PH` and `8q < PW` (30_encoding.md R73). -/
def State.inGrid (s : State) (p q : Nat) : Bool := decide (Config.blk * p < s.ph) && decide (Config.blk * q < s.pw)

/-- Every grid block has the tag `t`. -/
def State.gridHasTag (s : State) (t : Tag) : Bool := s.grid.all fun b => s.tag b.1 b.2 == t

/-! ## The fields of CTRL (10_state.md R27) -/

/-- PAD_MODE, bits [1:0]: 0 is ZERO, 1 is REPLICATE. -/
def ctrlPadMode (c : Word) : BitVec 2 := c.extractLsb' 0 2

/-- ROUND_MODE, bit [2]: 0 is NEAREST, 1 is TRUNC. -/
def ctrlTrunc (c : Word) : Bool := c.getLsbD 2

/-- INV_ORDER, bit [3]: 0 is REF, 1 is STD. -/
def ctrlStdOrder (c : Word) : Bool := c.getLsbD 3

/-- QBYPASS, bit [4]. -/
def ctrlBypass (c : Word) : Bool := c.getLsbD 4

/-- SCHED, bit [5]: 0 is INTERLEAVED, 1 is TWO_PASS. -/
def ctrlTwoPass (c : Word) : Bool := c.getLsbD 5

/-! ## The cosine table CT (41_forward_quantize.md R90) -/

/-- `cK = rne64(cos(K·π/16))`, K in 0..7. -/
def cosMagnitudes : List F64 :=
  [0x3FF0000000000000, 0x3FEF6297CFF75CB0, 0x3FED906BCF328D46, 0x3FEA9B66290EA1A3] ++
    [0x3FE6A09E667F3BCD, 0x3FE1C73B39AE68C8, 0x3FD87DE2A6AEA963, 0x3FC8F8B83C69A60B]

/-- `cK`. -/
def cosMagnitude (k : Nat) : F64 := cosMagnitudes.getD k f64Zero

/-- CT's entries as sign (true for −) and K: row n, column k, as 41_forward_quantize.md R90 prints them. -/
def ctRow : Nat → List (Bool × Nat)
  | 0 => [(false, 0), (false, 1), (false, 2), (false, 3), (false, 4), (false, 5), (false, 6), (false, 7)]
  | 1 => [(false, 0), (false, 3), (false, 6), (true, 7), (true, 4), (true, 1), (true, 2), (true, 5)]
  | 2 => [(false, 0), (false, 5), (true, 6), (true, 1), (true, 4), (false, 7), (false, 2), (false, 3)]
  | 3 => [(false, 0), (false, 7), (true, 2), (true, 5), (false, 4), (false, 3), (true, 6), (true, 1)]
  | 4 => [(false, 0), (true, 7), (true, 2), (false, 5), (false, 4), (true, 3), (true, 6), (false, 1)]
  | 5 => [(false, 0), (true, 5), (true, 6), (false, 1), (true, 4), (true, 7), (false, 2), (true, 3)]
  | 6 => [(false, 0), (true, 3), (false, 6), (false, 7), (true, 4), (false, 1), (true, 2), (false, 5)]
  | _ => [(false, 0), (true, 1), (false, 2), (true, 3), (false, 4), (true, 5), (false, 6), (true, 7)]

/-- `CT[n][k] = rne64(cos((2n+1)·k·π/16))`, n the spatial and k the frequency index. -/
def ct (n k : Nat) : F64 :=
  let e := (ctRow n).getD k (false, 0)
  if e.1 then f64Neg (cosMagnitude e.2) else cosMagnitude e.2

/-! ## The scale table AL (41_forward_quantize.md R91) -/

/-- `AL[0] = rne64(sqrt(1/8))`, and `AL[k] = 0.5` for k = 1..7. -/
def al (k : Nat) : F64 := if k = 0 then 0x3FD6A09E667F3BCD else 0x3FE0000000000000

/-! ## The step table QS (41_forward_quantize.md R92) -/

/-- `QTABLE[x mod 8][y mod 8]`, as QTAB holds it (10_state.md R40). -/
def State.qtable (s : State) (x y : Nat) : Nat := (s.qtab[8 * (x % 8) + y % 8]'(by omega)).toNat

/-- `QS[x][y]` as the command in the Engine sees it: 1.0 under the latched QBYPASS, else the table's entry. -/
def State.step64 (s : State) (x y : Nat) : F64 :=
  if ctrlBypass s.engSnap.ctrl then f64One else f64OfNat (s.qtable x y)

/-- The sum of 64 terms from +0.0 on, u outer and v inner, each sum rounded (41_forward_quantize.md R93). -/
def sum64 (term : Nat → Nat → F64) : F64 :=
  (List.range Config.blk).foldl
    (fun acc u => (List.range Config.blk).foldl (fun acc v => fadd acc (term u v)) acc) f64Zero

/-- An 8 × 8 array read once and then indexed. -/
def snapshot (f : Nat → Nat → F64) : List F64 := (List.range 64).map fun k => f (k / 8) (k % 8)

/-- Element (a, b) of a snapshot. -/
def snapshotAt (k : List F64) (a b : Nat) : F64 := k.getD (8 * a + b) f64Zero

end Sys2Proof.Machine
end

