-- ==== Sys2Proof/Machine/Pad.lean ====
section
/-! DEFINITION. The Padder: PAD (40_padder.md). -/

namespace Sys2Proof.Machine

/-- The dimension checks of PAD and RUN at acceptance, in their order (40_padder.md R81). -/
def dimensionCheck (s : State) : Option CmdError :=
  if dimField s.inW = 0 ∨ dimField s.inH = 0 then some .invalidDimensions
  else if Config.maxW < padDim (dimField s.inW) ∨ Config.maxH < padDim (dimField s.inH) then some .allocationFailure
  else none

/-- The fill of a canvas element outside the W × H input (40_padder.md R82). -/
def padFill (m : Memory) (ctrl : Word) (w h r c : Nat) : Byte :=
  if ctrlPadMode ctrl = 1 then m.sample .input (min r (h - 1)) (min c (w - 1)) else 0

/-- What PAD writes to PSRC[r][c] (40_padder.md R83). -/
def padElement (m : Memory) (ctrl : Word) (w h r c : Nat) : Byte :=
  if r < h ∧ c < w then m.sample .input r c else padFill m ctrl w h r c

/-- The bytes PAD stores: the canvas region of PSRC (40_padder.md R83), by the dimensions and modes of the snapshot. -/
def padCells (s : State) : List Host.Cell :=
  let w := dimField s.engSnap.inW
  let h := dimField s.engSnap.inH
  sampleRegion .psrc (padDim h) (padDim w) (padElement s.mem s.engSnap.ctrl w h)

/-- PAD's effect at completion, without R122's end (40_padder.md R83). -/
def padEffect (s : State) : State :=
  (s.clearTags.store (padCells s)).setCanvas (padDim (dimField s.engSnap.inW)) (padDim (dimField s.engSnap.inH))

/-- PAD (40_padder.md R83). -/
def execPad (s : State) : Host.Outcome State Fault Refusal := s.lifecycle .pad dimensionCheck padEffect

end Sys2Proof.Machine
end

