-- ==== Sys2Proof/Machine/Forward.lean ====
section
/-! DEFINITION. The forward transform engine and the quantizer: FWDB and FWD (41_forward_quantize.md). -/

namespace Sys2Proof.Machine

/-- One term of the forward sum: `fmul(fmul(s, CT[u][x]), CT[v][y])` (41_forward_quantize.md R93). -/
def fdctTerm (smp : Nat → Nat → F64) (x y u v : Nat) : F64 := fmul (fmul (smp u v) (ct u x)) (ct v y)

/-- The quantized coefficient (x, y) of a block with samples `smp` and steps `qs` (41_forward_quantize.md R93). -/
def fdctElement (smp qs : Nat → Nat → F64) (x y : Nat) : F64 :=
  fdiv (fmul (fmul (al x) (al y)) (sum64 (fdctTerm smp x y))) (qs x y)

/-- `f64(PSRC[8p+u][8q+v])` (41_forward_quantize.md R93). -/
def State.blockSample (s : State) (p q u v : Nat) : F64 :=
  f64OfNat (s.mem.sample .psrc (Config.blk * p + u) (Config.blk * q + v)).toNat

/-- The 64 coefficients that `FDCT(p, q)` writes. -/
def State.fdctValue (s : State) (p q : Nat) : Nat → Nat → F64 :=
  let k := snapshot (s.blockSample p q)
  fdctElement (snapshotAt k) s.step64

/-- The bytes `FDCT(p, q)` stores: the 64 COEF elements of the block. -/
def fdctCells (s : State) (p q : Nat) : List Host.Cell := coefBlockCells p q (s.fdctValue p q)

/-- `FDCT(p, q); TAG[p][q] <- QCOEF` (41_forward_quantize.md R93 to R95). -/
def forwardBlock (p q : Nat) (s : State) : State := (s.store (fdctCells s p q)).setTag p q .qcoef

/-- The acceptance check of FWD: STATUS.PVALID (41_forward_quantize.md R95). -/
def paddedCheck (s : State) : Option CmdError := if s.pvalid then none else some .notPadded

/-- The acceptance checks of FWDB, and the first two of INVB: PVALID, then the block's range
(41_forward_quantize.md R94). -/
def blockCheck (p q : Nat) (s : State) : Option CmdError :=
  if s.pvalid then (if s.inGrid p q then none else some .blockRange) else some .notPadded

/-- FWD's effect at completion, without R122's end (41_forward_quantize.md R95). -/
def fwdEffect (s : State) : State := s.grid.foldl (fun t b => forwardBlock b.1 b.2 t) s

/-- FWDB (41_forward_quantize.md R94). -/
def execFwdb (p q : Nat) (s : State) : Host.Outcome State Fault Refusal :=
  s.lifecycle (.fwdb p q) (blockCheck p q) (forwardBlock p q)

/-- FWD (41_forward_quantize.md R95). -/
def execFwd (s : State) : Host.Outcome State Fault Refusal := s.lifecycle .fwd paddedCheck fwdEffect

end Sys2Proof.Machine
end

