-- ==== Sys2Proof/Machine/Inverse.lean ====
section
/-! DEFINITION. The inverse transform engine and the dequantizer: INVB and INV (42_inverse_dequantize.md). -/

namespace Sys2Proof.Machine

/-- `sel(u, v)` (42_inverse_dequantize.md R106): REF reads K[v][u], STD reads K[u][v]. -/
def invSelect (stdOrder : Bool) (k : Nat → Nat → F64) (u v : Nat) : F64 := if stdOrder then k u v else k v u

/-- One term of the inverse sum: `fmul(fmul(fmul(fmul(AL[u], AL[v]), c), CT[i][u]), CT[j][v])`
(42_inverse_dequantize.md R107). -/
def idctTerm (sel : Nat → Nat → F64) (i j u v : Nat) : F64 :=
  fmul (fmul (fmul (fmul (al u) (al v)) (sel u v)) (ct i u)) (ct j v)

/-- The dequantized reconstruction at local (i, j): the finished sum times the step (42_inverse_dequantize.md R107). -/
def idctElement (sel qs : Nat → Nat → F64) (i j : Nat) : F64 := fmul (sum64 (idctTerm sel i j)) (qs i j)

/-- `COEF[8p+a][8q+b]` (42_inverse_dequantize.md R105). -/
def State.blockCoef (s : State) (p q a b : Nat) : F64 := s.mem.coef (Config.blk * p + a) (Config.blk * q + b)

/-- The 64 values that `IDCT(p, q)` writes, from the block's snapshot K (42_inverse_dequantize.md R105, R107). -/
def State.idctValue (s : State) (p q : Nat) : Nat → Nat → F64 :=
  let k := snapshot (s.blockCoef p q)
  idctElement (invSelect (ctrlStdOrder s.engSnap.ctrl) (snapshotAt k)) s.step64

/-- The bytes `IDCT(p, q)` stores: the 64 COEF elements of the block, in place. -/
def idctCells (s : State) (p q : Nat) : List Host.Cell := coefBlockCells p q (s.idctValue p q)

/-- `IDCT(p, q); TAG[p][q] <- RECON` (42_inverse_dequantize.md R107 to R109). -/
def inverseBlock (p q : Nat) (s : State) : State := (s.store (idctCells s p q)).setTag p q .recon

/-- The acceptance checks of INVB (42_inverse_dequantize.md R108). -/
def invbCheck (p q : Nat) (s : State) : Option CmdError :=
  match blockCheck p q s with
  | some e => some e
  | none => if s.tag p q = .qcoef then none else some .sequence

/-- The acceptance checks of INV and REASM: PVALID, then a tag that every grid block must have
(42_inverse_dequantize.md R109, 44_reassembler.md R137). -/
def gridTagCheck (t : Tag) (s : State) : Option CmdError :=
  if s.pvalid then (if s.gridHasTag t then none else some .sequence) else some .notPadded

/-- INV's effect at completion, without R122's end (42_inverse_dequantize.md R109). -/
def invEffect (s : State) : State := s.grid.foldl (fun t b => inverseBlock b.1 b.2 t) s

/-- INVB (42_inverse_dequantize.md R108). -/
def execInvb (p q : Nat) (s : State) : Host.Outcome State Fault Refusal :=
  s.lifecycle (.invb p q) (invbCheck p q) (inverseBlock p q)

/-- INV (42_inverse_dequantize.md R109). -/
def execInv (s : State) : Host.Outcome State Fault Refusal := s.lifecycle .inv (gridTagCheck .qcoef) invEffect

end Sys2Proof.Machine
end

