-- ==== Sys2Proof/Machine/Reassemble.lean ====
section
/-! DEFINITION. The Reassembler: sample conversion, clamp counting and REASM (44_reassembler.md). -/

namespace Sys2Proof.Machine

/-- `floor(m * 2^e + 1/2)` under NEAREST, `floor(m * 2^e)` under TRUNC: the magnitude before clamping
(44_reassembler.md R135), exact. -/
def roundMagnitude (trunc : Bool) (m : Nat) (e : Int) : Nat :=
  if 0 ≤ e then m * 2 ^ e.toNat
  else
    let k := (-e).toNat
    if trunc then m / 2 ^ k else (m + 2 ^ (k - 1)) / 2 ^ k

/-- `toSample(v, mode)` (44_reassembler.md R135): the sample and the clamp flag, judged on the rounded integer. -/
def toSample (trunc : Bool) (v : F64) : Byte × Bool :=
  if f64IsFinite v then
    let n := roundMagnitude trunc (f64Mant v) (f64Lsb v)
    if f64Sign v && n != 0 then (0, true)
    else if Config.sMax < n then (BitVec.ofNat 8 Config.sMax, true)
    else (BitVec.ofNat 8 n, false)
  else Config.nonFiniteSample trunc v

/-- toSample of COEF[r][c] under the latched ROUND_MODE (44_reassembler.md R137). -/
def State.reasmElement (s : State) (r c : Nat) : Byte × Bool :=
  toSample (ctrlTrunc s.engSnap.ctrl) (s.mem.coef r c)

/-- The bytes REASM stores: the canvas region of OUT (44_reassembler.md R137). -/
def reasmCells (s : State) : List Host.Cell :=
  sampleRegion .out s.ph s.pw fun r c => (s.reasmElement r c).1

/-- How many canvas elements REASM clamps (44_reassembler.md R136). -/
def reasmClamps (s : State) : Nat :=
  ((List.range s.ph).map fun r => (List.range s.pw).countP fun c => (s.reasmElement r c).2).sum

/-- REASM's effect at completion, without R122's end (44_reassembler.md R137). -/
def reasmEffect (s : State) : State := (s.store (reasmCells s)).reportClamps (reasmClamps s)

/-- REASM (44_reassembler.md R137). -/
def execReasm (s : State) : Host.Outcome State Fault Refusal := s.lifecycle .reasm (gridTagCheck .recon) reasmEffect

end Sys2Proof.Machine
end

