-- ==== Sys2Proof/Machine/Scheduler.lean ====
section
/-! DEFINITION. The commands the Block Scheduler runs itself: NOP and RUN (43_scheduler.md R126, R127). -/

namespace Sys2Proof.Machine

/-- NOP (43_scheduler.md R126): no checks of its own, and no effect but R122's end. -/
def execNop (s : State) : Host.Outcome State Fault Refusal := s.lifecycle .nop (fun _ => none) id

/-- The forward and inverse of each grid block together (43_scheduler.md R127, INTERLEAVED). -/
def interleavedPass (s : State) : State :=
  s.grid.foldl (fun t b => inverseBlock b.1 b.2 (forwardBlock b.1 b.2 t)) s

/-- A forward pass over all grid blocks, then an inverse pass (43_scheduler.md R127, TWO_PASS). -/
def twoPass (s : State) : State := invEffect (fwdEffect s)

/-- RUN's effect at completion, without R122's end: PAD, the transforms in the order SCHED selects, REASM
(43_scheduler.md R127). -/
def runEffect (s : State) : State :=
  let t := padEffect s
  reasmEffect (if ctrlTwoPass s.engSnap.ctrl then twoPass t else interleavedPass t)

/-- RUN (43_scheduler.md R127). -/
def execRun (s : State) : Host.Outcome State Fault Refusal := s.lifecycle .run dimensionCheck runEffect

end Sys2Proof.Machine
end

