-- ==== Sys2Proof/Machine/Dispatch.lean ====
section
/-! DEFINITION. The meaning of each command, one arm per constructor of `Instr`. -/

namespace Sys2Proof.Machine

/-- The next step of a command's lifecycle: while the Engine is IDLE its presentation at CMD, while it is BUSY its
completion (43_scheduler.md R120, R122; log 4). -/
def exec (i : Instr) (s : State) : Host.Outcome State Fault Refusal :=
  match i with
  | .nop => Sys2Proof.Machine.execNop s
  | .pad => Sys2Proof.Machine.execPad s
  | .fwd => Sys2Proof.Machine.execFwd s
  | .inv => Sys2Proof.Machine.execInv s
  | .reasm => Sys2Proof.Machine.execReasm s
  | .run => Sys2Proof.Machine.execRun s
  | .fwdb p q => Sys2Proof.Machine.execFwdb p q s
  | .invb p q => Sys2Proof.Machine.execInvb p q s

end Sys2Proof.Machine
end

