-- ==== Sys2Proof/Machine/Registers.lean ====
section
/-! DEFINITION. The register window: which register has which offset, and what a read returns and a write does
(10_state.md R23 to R40, R48). -/

namespace Sys2Proof.Machine

/-- The registers of 10_state.md R23. -/
inductive Reg where
  | id
  | version
  | cap
  | ctrl
  | cmd
  | status
  | irqStatus
  | irqEnable
  | errCode
  | errCmd
  | inW
  | inH
  | padW
  | padH
  | clampCnt
  | blkCnt
  /-- QTAB[x][y] with k = 8x + y. -/
  | qtab (k : Fin 64)
deriving DecidableEq, Repr

/-- The register at an offset of the register window; none at a hole (10_state.md R23). -/
def Reg.ofOffset (a : Nat) : Option Reg :=
  match a with
  | 0x000 => some .id
  | 0x004 => some .version
  | 0x008 => some .cap
  | 0x00C => some .ctrl
  | 0x010 => some .cmd
  | 0x014 => some .status
  | 0x018 => some .irqStatus
  | 0x01C => some .irqEnable
  | 0x020 => some .errCode
  | 0x024 => some .errCmd
  | 0x028 => some .inW
  | 0x02C => some .inH
  | 0x030 => some .padW
  | 0x034 => some .padH
  | 0x038 => some .clampCnt
  | 0x03C => some .blkCnt
  | _ =>
    if h : 0x800 ≤ a ∧ a < 0x900 then
      if a % 4 = 0 then some (.qtab ⟨(a - 0x800) / 4, by omega⟩) else none
    else none

/-- What a read of a register returns (10_state.md R24 to R40). No read has a side effect (20_memory.md R59). -/
def State.readReg (s : State) : Reg → Word
  | .id => 0x44435438
  | .version => 0x00000001
  | .cap => BitVec.ofNat 32 (Config.maxH * 2 ^ 16 + Config.maxW)
  | .ctrl => s.ctrl
  | .cmd => 0
  | .status => s.statusWord
  | .irqStatus => s.irqStatus
  | .irqEnable => s.irqEnable
  | .errCode => s.errCode
  | .errCmd => s.errCmd
  | .inW => s.inW
  | .inH => s.inH
  | .padW => s.padW
  | .padH => s.padH
  | .clampCnt => s.clampCnt
  | .blkCnt => BitVec.ofNat 32 (s.pw / 8 * (s.ph / 8))
  | .qtab k => (s.qtab[k.val]'k.isLt).zeroExtend 32

/-- CTRL after a write (10_state.md R27): PAD_MODE is write-any-read-legal, bits [5:2] are stored, the rest reads 0. -/
def ctrlAfterWrite (old v : Word) : Word :=
  (v &&& 0x3C) ||| (if v &&& 0x2 = 0 then v &&& 0x3 else old &&& 0x3)

/-- A write to a busy-locked register: ignored while STATUS.BUSY = 1 (10_state.md R46). -/
def State.busyLocked (s t : State) : State := if s.isBusy then s else t

/-- What a write to a register other than CMD does (10_state.md R27, R30, R31, R34, R35, R38); a write to a read-only
register changes nothing (R48). A write to CMD is `present` (Machine/Agents.lean). -/
def State.writeReg (s : State) (v : Word) : Reg → State
  | .ctrl => s.busyLocked { s with ctrl := ctrlAfterWrite s.ctrl v }
  | .irqStatus => s.clearIrq v
  | .irqEnable => { s with irqEnable := v &&& 0x7 }
  | .inW => s.busyLocked { s with inW := v &&& 0xFFFF }
  | .inH => s.busyLocked { s with inH := v &&& 0xFFFF }
  | .clampCnt => s.busyLocked { s with clampCnt := v }
  | .id => s
  | .version => s
  | .cap => s
  | .cmd => s
  | .status => s
  | .errCode => s
  | .errCmd => s
  | .padW => s
  | .padH => s
  | .blkCnt => s
  | .qtab _ => s

end Sys2Proof.Machine
end

