-- ==== Sys2Proof/Machine/Windows.lean ====
section
/-! DEFINITION. The aperture: where a host access goes, or which bus error it gets, and what it reads or writes there
(20_memory.md R50 to R57, 60_exceptions.md R150). -/

namespace Sys2Proof.Machine

/-- The bytes of an access. -/
def Size.bytes : Size → Nat
  | .byte => 1
  | .half => 2
  | .word => 4

/-- Where an access that gets OKAY goes. -/
inductive Target where
  /-- A register (20_memory.md R52). -/
  | reg (r : Reg)
  /-- Elements of a sample buffer from this offset on (20_memory.md R54). -/
  | sample (b : SampleBuf) (addr : Nat)
  /-- One half of a coefficient, at this offset (20_memory.md R55). -/
  | coef (addr : Nat)
deriving DecidableEq, Repr

/-- The element at row r and column c exists (20_memory.md R53, R55). -/
def elementExists (r c : Nat) : Bool := decide (r < Config.maxH) && decide (c < Config.maxW)

/-- An access in the register window (20_memory.md R52). -/
def registerTarget (n a : Nat) : Except Fault Target :=
  if n ≠ 4 then .error .busRegisterSize
  else if a % 4 ≠ 0 then .error .busRegisterMisaligned
  else
    match Reg.ofOffset a with
    | some r => .ok (.reg r)
    | none => .error .busUnmapped

/-- An access in a sample window (20_memory.md R53, R54, R56). -/
def sampleTarget (busy : Bool) (b : SampleBuf) (n a : Nat) : Except Fault Target :=
  let o := a - b.base
  if busy then .error .busBufferBusy
  else if a % n ≠ 0 then .error .busSampleMisaligned
  else if elementExists (o / Config.stride) (o % Config.stride) then .ok (.sample b a)
  else .error .busNoElement

/-- An access in the coefficient window (20_memory.md R55, R56). -/
def coefTarget (busy : Bool) (n a : Nat) : Except Fault Target :=
  let o := (a - coefBase) / 8
  if busy then .error .busBufferBusy
  else if n ≠ 4 then .error .busCoefSize
  else if a % 4 ≠ 0 then .error .busCoefMisaligned
  else if elementExists (o / Config.stride) (o % Config.stride) then .ok (.coef a)
  else .error .busNoElement

/-- Where an access of `n` bytes at offset `a` goes, by the aperture map (20_memory.md R51). -/
def accessTarget (busy : Bool) (n a : Nat) : Except Fault Target :=
  if a < 0x1000 then registerTarget n a
  else if a < 0x100000 then .error .busUnmapped
  else if a < 0x200000 then sampleTarget busy .input n a
  else if a < 0x300000 then sampleTarget busy .psrc n a
  else if a < 0x400000 then sampleTarget busy .out n a
  else if a < 0x800000 then .error .busUnmapped
  else coefTarget busy n a

/-- Where a host access goes in this state. -/
def State.target (s : State) (size : Size) (addr : Offset) : Except Fault Target :=
  accessTarget s.isBusy size.bytes addr.toNat

/-- What a read returns, zero-extended (20_memory.md R52, R54, R55). -/
def State.readTarget (s : State) (size : Size) : Target → Word
  | .reg r => s.readReg r
  | .sample _ a => BitVec.ofNat 32 (s.mem.readLe a size.bytes)
  | .coef a => BitVec.ofNat 32 (s.mem.readLe a size.bytes)

/-- What a write does, but for one to CMD: only IN and the writable registers change (20_memory.md R54, R55, R59). -/
def State.writeTarget (s : State) (size : Size) (v : Word) : Target → State
  | .reg r => s.writeReg v r
  | .sample .input a => s.store (leCells a size.bytes v.toNat)
  | .sample .psrc _ => s
  | .sample .out _ => s
  | .coef _ => s

/-- The offset of a bus address in the aperture (20_memory.md R50; log 14). -/
def offsetOfBusAddress (busAddr : Nat) : Option Offset :=
  if Config.apertureBase ≤ busAddr ∧ busAddr - Config.apertureBase < 2 ^ 24 then
    some (BitVec.ofNat 24 (busAddr - Config.apertureBase))
  else none

end Sys2Proof.Machine
end

