-- ==== Sys2Proof/Machine/Agents.lean ====
section
/-! DEFINITION. One step of each agent (00_scope.md R5): the Host's next bus operation, the Engine's completion, and the
Reset input. -/

namespace Sys2Proof.Machine

/-- A write of the word `w` to CMD (43_scheduler.md R120): the common checks, BUSY and then ILLEGAL_COMMAND, and after
them the command's own acceptance. -/
def present (w : Word) (s : State) : Host.Outcome State Fault Refusal :=
  match s.phase with
  | .busy => .next (s.raise .busy w)
  | .idle =>
    match decode w with
    | .error _ => .next (s.raise .illegalCommand w)
    | .ok i => exec i s

/-- A host read (20_memory.md R50, R59): nothing of the block changes. -/
def hostRead (size : Size) (addr : Offset) (s : State) : Host.Outcome State Fault Refusal :=
  match s.target size addr with
  | .error f => .fault f
  | .ok t => .next (s.respond (.data (s.readTarget size t)))

/-- A host write (20_memory.md R50, R59). A rejected command's write still gets OKAY. -/
def hostWrite (size : Size) (addr : Offset) (v : Word) (s : State) : Host.Outcome State Fault Refusal :=
  match s.target size addr with
  | .error f => .fault f
  | .ok (.reg .cmd) => present v (s.respond .okay)
  | .ok t => .next ((s.respond .okay).writeTarget size v t)

/-- One read of a `poll` (00_scope.md R11): it is the host's next operation again unless the value matches. -/
def hostPoll (addr : Offset) (mask value : Word) (s : State) : Host.Outcome State Fault Refusal :=
  match s.target .word addr with
  | .error f => .fault f
  | .ok t =>
    let v := s.readTarget .word t
    let s := s.respond (.data v)
    if v &&& mask = value then .next s else .next { s with host := .poll addr mask value :: s.host }

/-- The Host's step: its oldest pending operation; nothing when it has none (log 3). -/
def hostStep (s : State) : Host.Outcome State Fault Refusal :=
  match s.host with
  | [] => .next s
  | .read size addr :: rest => hostRead size addr { s with host := rest }
  | .write size addr v :: rest => hostWrite size addr v { s with host := rest }
  | .poll addr mask value :: rest => hostPoll addr mask value { s with host := rest }

/-- The Engine's step: the completion of ENG.CMD while BUSY (43_scheduler.md R122); nothing while IDLE (log 15). -/
def engineStep (s : State) : Host.Outcome State Fault Refusal :=
  match s.phase with
  | .idle => .next s
  | .busy =>
    match decode s.engCmd with
    | .ok i => exec i s
    | .error _ => .refused .engineWordIllegal

/-- Reset asserted (70_reset_and_hazards.md R165, R166): every register at its reset value, the tags EMPTY, the Engine
IDLE and its command abandoned, the buffers any image. QTAB keeps the parameter; what stands outside the block is kept
(log 13). -/
def resetStep (image : List Host.Cell) (s : State) : State :=
  { State.reset with
    qtab := s.qtab
    mem := Memory.ofImage image
    host := s.host
    turns := s.turns
    response := s.response }

/-- One step of an agent. -/
def turnStep (t : Turn) (s : State) : Host.Outcome State Fault Refusal :=
  match t with
  | .host => hostStep s
  | .engine => engineStep s
  | .reset image => .next (resetStep image s)

/-- Which agent moves when `turns` is used up: a running command completes (43_scheduler.md R131's fairness), and else
the host goes on (log 2). -/
def State.defaultTurn (s : State) : Turn := if s.isBusy then .engine else .host

/-- The host's next operation, on its very next turn, is a write of the word `w` to CMD. -/
def State.presentNext (s : State) (w : Word) : State :=
  { s with host := .write .word 0x010 w :: s.host, turns := .host :: s.turns }

end Sys2Proof.Machine
end

