-- ==== Sys2Proof/Machine/HostProgram.lean ====
section
/-! DEFINITION. The pseudo-instructions of 30_encoding.md R76, each the list of bus operations it expands into, and the
host notation of 00_scope.md R11. -/

namespace Sys2Proof.Machine.HostProgram

/-- `wr32 OFF, V` (00_scope.md R11). -/
def wr32 (off : Offset) (v : Word) : List HostOp := [.write .word off v]

/-- `wr8 OFF, V` (00_scope.md R11). -/
def wr8 (off : Offset) (v : Word) : List HostOp := [.write .byte off v]

/-- `rd32 OFF -> name` (00_scope.md R11); the value read is in `response`. -/
def rd32 (off : Offset) : List HostOp := [.read .word off]

/-- `cmd X`: `wr32 0x010, enc(X)`. -/
def cmd (i : Instr) : List HostOp := wr32 0x010 (encode i)

/-- `wait`: `poll 0x014, 0x1, 0x0`, until STATUS.BUSY = 0. -/
def wait : List HostOp := [.poll 0x014 0x1 0x0]

/-- `clrirq`: `wr32 0x018, 0xF`. -/
def clrirq : List HostOp := wr32 0x018 0xF

/-- `setctrl V`: `wr32 0x00C, V`. -/
def setctrl (v : Word) : List HostOp := wr32 0x00C v

/-- `setdim W, H`: `wr32 0x028, W` followed by `wr32 0x02C, H`. -/
def setdim (w h : Word) : List HostOp := wr32 0x028 w ++ wr32 0x02C h

end Sys2Proof.Machine.HostProgram
end

