-- ==== Sys2Proof/Machine/Step.lean ====
section
/-! DEFINITION. One step of the machine: the agent that `turns` names moves. -/

namespace Sys2Proof.Machine

/-- One step (00_scope.md R5): the next agent of `turns` moves, and `State.defaultTurn` when none is listed. -/
def step (s : State) : Host.Outcome State Fault Refusal :=
  match s.turns with
  | t :: rest => turnStep t { s with turns := rest }
  | [] => turnStep s.defaultTurn s

/-- `s` with the command word `w` (its low `nbits` bits, the rest 0) as the host's next operation, a write to CMD, on the
very next turn (43_scheduler.md R120; log 3). -/
def State.withFetchWord (s : State) (nbits w : Nat) : State := s.presentNext (BitVec.ofNat 32 (w % 2 ^ nbits))

end Sys2Proof.Machine
end

