-- ==== Sys2Proof/Safety.lean ====
section
/-! DEFINITION. What counts as a good run, the invariant of the machine, and the words the statements use: a command's
checks and effect by name, and the rational value of a binary64 number. -/

namespace Sys2Proof.Machine

/-! ## A command's two halves, by name -/

/-- The acceptance checks of a command after the common ones (43_scheduler.md R120). -/
def commandCheck : Instr → State → Option CmdError
  | .nop => fun _ => none
  | .pad => dimensionCheck
  | .fwd => paddedCheck
  | .inv => gridTagCheck .qcoef
  | .reasm => gridTagCheck .recon
  | .run => dimensionCheck
  | .fwdb p q => blockCheck p q
  | .invb p q => invbCheck p q

/-- The effect of a command at completion, without R122's end (43_scheduler.md R122). -/
def commandEffect : Instr → State → State
  | .nop => id
  | .pad => padEffect
  | .fwd => fwdEffect
  | .inv => invEffect
  | .reasm => reasmEffect
  | .run => runEffect
  | .fwdb p q => forwardBlock p q
  | .invb p q => inverseBlock p q

/-! ## The rules of acceptance and of the transforms, written out for the statements -/

/-- When an idle core accepts a command: the conditions of 40_padder.md R81, 41_forward_quantize.md R94 and R95,
42_inverse_dequantize.md R108 and R109, and 44_reassembler.md R137. -/
def Acceptable (s : State) : Instr → Prop
  | .nop => True
  | .pad | .run =>
    let w := s.inW.toNat % 65536
    let h := s.inH.toNat % 65536
    w ≠ 0 ∧ h ≠ 0 ∧ padDim w ≤ 1024 ∧ padDim h ≤ 1024
  | .fwd => s.pvalid = true
  | .fwdb p q => s.pvalid = true ∧ 8 * p < s.ph ∧ 8 * q < s.pw
  | .invb p q => s.pvalid = true ∧ 8 * p < s.ph ∧ 8 * q < s.pw ∧ s.tag p q = .qcoef
  | .inv => s.pvalid = true ∧ ∀ p q, p < s.ph / 8 → q < s.pw / 8 → s.tag p q = .qcoef
  | .reasm => s.pvalid = true ∧ ∀ p q, p < s.ph / 8 → q < s.pw / 8 → s.tag p q = .recon

/-- `QS[x][y]` of the command in the Engine: 1.0 where bit 4 of the latched CTRL is set, else `f64(QTABLE[x][y])`
(41_forward_quantize.md R92). -/
def stepFormula (s : State) (x y : Nat) : F64 :=
  if s.engSnap.ctrl.getLsbD 4 then 0x3FF0000000000000 else f64OfNat (s.qtable x y)

/-- The right side of 41_forward_quantize.md R93 for COEF[8p+x][8q+y], in the state before the command. -/
def forwardFormula (s : State) (p q x y : Nat) : F64 :=
  fdiv (fmul (fmul (al x) (al y)) (sum64 fun u v =>
    fmul (fmul (f64OfNat (s.mem.sample .psrc (8 * p + u) (8 * q + v)).toNat) (ct u x)) (ct v y))) (stepFormula s x y)

/-- The right side of 42_inverse_dequantize.md R107 for COEF[8p+i][8q+j], in the state before the command: sel(u, v) is
K[v][u] where bit 3 of the latched CTRL is clear (REF) and K[u][v] where it is set (STD), K the block of COEF (R105,
R106). -/
def inverseFormula (s : State) (p q i j : Nat) : F64 :=
  fmul (sum64 fun u v =>
    fmul (fmul (fmul (fmul (al u) (al v))
      (if s.engSnap.ctrl.getLsbD 3 then s.mem.coef (8 * p + u) (8 * q + v) else s.mem.coef (8 * p + v) (8 * q + u)))
      (ct i u)) (ct j v)) (stepFormula s i j)

/-- The bytes of the coefficients of block (p, q). -/
def InCoefBlock (p q a : Nat) : Prop :=
  ∃ x y k, x < 8 ∧ y < 8 ∧ k < 8 ∧ a = coefAddr (8 * p + x) (8 * q + y) + k

/-- The bytes of the coefficients of the blocks of a grid of `h` × `w` samples. -/
def InCoefGrid (h w a : Nat) : Prop := ∃ p q, p < h / 8 ∧ q < w / 8 ∧ InCoefBlock p q a

/-- The bytes of the region of `h` rows and `w` columns of a sample buffer. -/
def InSampleRegion (b : SampleBuf) (h w a : Nat) : Prop := ∃ r c, r < h ∧ c < w ∧ a = sampleAddr b r c

/-- The bytes that a command may store to when it completes from `s`: the only ones its rule names (40_padder.md R83,
41_forward_quantize.md R94 and R95, 42_inverse_dequantize.md R108 and R109, 43_scheduler.md R126 and R127,
44_reassembler.md R137). -/
def StoresTo (s : State) : Instr → Nat → Prop
  | .nop, _ => False
  | .pad, a =>
    InSampleRegion .psrc (padDim (s.engSnap.inH.toNat % 65536)) (padDim (s.engSnap.inW.toNat % 65536)) a
  | .fwd, a => InCoefGrid s.ph s.pw a
  | .inv, a => InCoefGrid s.ph s.pw a
  | .reasm, a => InSampleRegion .out s.ph s.pw a
  | .run, a =>
    let ph := padDim (s.engSnap.inH.toNat % 65536)
    let pw := padDim (s.engSnap.inW.toNat % 65536)
    InSampleRegion .psrc ph pw a ∨ InCoefGrid ph pw a ∨ InSampleRegion .out ph pw a
  | .fwdb p q, a => InCoefBlock p q a
  | .invb p q, a => InCoefBlock p q a

/-- The accesses that get BUSERR (60_exceptions.md R150), of `n` bytes at offset `a`. With MAX_W = MAX_H = 1024 every
element of a window exists (20_memory.md R53). -/
def BusErrorCase (busy : Prop) (n a : Nat) : Prop :=
  (0x1000 ≤ a ∧ a < 0x100000) ∨ (0x400000 ≤ a ∧ a < 0x800000) ∨
    (a < 0x1000 ∧ (n ≠ 4 ∨ a % 4 ≠ 0 ∨ ¬(a < 0x40 ∨ (0x800 ≤ a ∧ a < 0x900)))) ∨
    (0x100000 ≤ a ∧ a < 0x400000 ∧ (busy ∨ a % n ≠ 0)) ∨
    (0x800000 ≤ a ∧ (busy ∨ n ≠ 4 ∨ a % 4 ≠ 0))

/-! ## Good steps and reachable states -/

/-- A step that neither faults nor is refused: a run in which every step is good is a good run (60_exceptions.md R150). -/
def GoodStep (s : State) : Prop := ∃ t, step s = .next t

/-- The states of the runs from power-on, for any operations of the host and any order of the agents
(00_scope.md R5, 43_scheduler.md R131). -/
inductive Reachable : State → Prop where
  | boot (host : List HostOp) (turns : List Turn) : Reachable { State.reset with host := host, turns := turns }
  | step {s t : State} (hs : Reachable s) (h : Machine.step s = .next t) : Reachable t

/-! ## The invariant -/

/-- A dimension of a canvas: a multiple of 8 in 8..1024 (40_padder.md R80, R81). -/
def CanvasDim (n : Nat) : Prop := 8 ∣ n ∧ 8 ≤ n ∧ n ≤ 1024

/-- What every step keeps. -/
structure State.Inv (s : State) : Prop where
  /-- The buffer memory is in canonical form. -/
  mem_wf : s.mem.wf = true
  /-- The tag array is in canonical form. -/
  tags_wf : TagMap.wf s.tags = true
  /-- CTRL's reserved bits read 0 (10_state.md R27). -/
  ctrl_reserved : s.ctrl &&& 0xFFFFFFC0 = 0
  /-- PAD_MODE is 0 or 1 (10_state.md R27). -/
  ctrl_padMode : s.ctrl &&& 0x2 = 0
  /-- IRQ_STATUS' reserved bits read 0 (10_state.md R30). -/
  irqStatus_reserved : s.irqStatus &&& 0xFFFFFFF0 = 0
  /-- IRQ_ENABLE's reserved bits read 0 (10_state.md R31). -/
  irqEnable_reserved : s.irqEnable &&& 0xFFFFFFF8 = 0
  /-- ERR_CODE is a code of 60_exceptions.md R146. -/
  errCode_legal : s.errCode.toNat ≤ 7
  /-- IN_W's reserved bits read 0 (10_state.md R34). -/
  inW_reserved : s.inW &&& 0xFFFF0000 = 0
  /-- IN_H's reserved bits read 0 (10_state.md R35). -/
  inH_reserved : s.inH &&& 0xFFFF0000 = 0
  /-- PAD_W and PAD_H are 0 until PVALID, and the dimensions of a canvas from then on (10_state.md R29, R36, R37). -/
  canvas : if s.pvalid then CanvasDim s.padW.toNat ∧ CanvasDim s.padH.toNat else s.padW = 0 ∧ s.padH = 0
  /-- Every entry of QTABLE is at least 1 (00_scope.md R6). -/
  qtab_positive : ∀ k : Fin 64, s.qtab[k.val]'k.isLt ≠ 0
  /-- A block outside the grid is EMPTY (40_padder.md R83). -/
  tags_in_grid : ∀ p q, q < 1024 → s.tag p q ≠ .empty → s.inGrid p q = true
  /-- While BUSY the snapshot equals the registers it copied (10_state.md R46). -/
  busy_snapshot : s.phase = .busy → s.engSnap = ⟨s.ctrl, s.inW, s.inH, s.clampCnt⟩
  /-- While BUSY the Engine holds a legal command whose acceptance checks still pass (43_scheduler.md R123). -/
  busy_command : s.phase = .busy → ∃ i, decode s.engCmd = .ok i ∧ commandCheck i s = none

/-! ## Values of binary64 numbers -/

/-- The value of a finite binary64 number. -/
def f64Value (a : F64) : ℚ := (if f64Sign a then -1 else 1) * (f64Mant a : ℚ) * (2 : ℚ) ^ f64Lsb a

/-- `r` is what roundTiesToEven gives for the exact value `x` with the sign `neg` (00_scope.md R9; log 9): a finite `r` is
a value nearest to `x`, the one with an even encoding where two are; an infinity is the result exactly where `x` is at
least half a last place above the largest finite magnitude; and the sign is `neg`, a zero's too. -/
def RoundsTo (r : F64) (neg : Bool) (x : ℚ) : Prop :=
  f64Sign r = neg ∧
  (f64IsFinite r = true → ∀ c : F64, f64IsFinite c = true →
    |f64Value r - x| ≤ |f64Value c - x| ∧
    (|f64Value r - x| = |f64Value c - x| → f64Value c ≠ f64Value r → r.toNat % 2 = 0)) ∧
  (f64IsFinite r = true ↔ |x| < 2 ^ 1024 - 2 ^ 970) ∧
  (f64IsFinite r = false → f64IsInf r = true)

/-- Every block that holds coefficients holds finite ones, within the bounds of 41_forward_quantize.md R98 and
42_inverse_dequantize.md R112. -/
def State.CoefBounded (s : State) : Prop :=
  ∀ p q x y, p < 128 → q < 128 → x < 8 → y < 8 →
    (s.tag p q = .qcoef →
      f64IsFinite (s.mem.coef (8 * p + x) (8 * q + y)) = true ∧ |f64Value (s.mem.coef (8 * p + x) (8 * q + y))| ≤ 4080) ∧
    (s.tag p q = .recon →
      f64IsFinite (s.mem.coef (8 * p + x) (8 * q + y)) = true ∧
        |f64Value (s.mem.coef (8 * p + x) (8 * q + y))| < 4294967296)

end Sys2Proof.Machine
end

