-- ==== Sys2Proof/Certificates/Slice0/Obligations.lean ====
section
/-! DEFINITION. The statements for the provers. Each docstring names the rule of spec/ it formalises. -/

open Sys2Proof Sys2Proof.Machine

/-! ## Encoding and decoding -/

/-- 95_test_vectors.md V1 and V2: the words the spec prints decode to the commands it prints, and the illegal ones are
refused. -/
def Obligations.PrintedWordsDecodeAsPrinted : Prop :=
  (decode 0x00000000 = .ok .nop ∧ decode 0x00000001 = .ok .pad ∧ decode 0x00000002 = .ok .fwd ∧
    decode 0x00000003 = .ok .inv ∧ decode 0x00000004 = .ok .reasm ∧ decode 0x00000005 = .ok .run) ∧
  (decode 0x00000006 = .ok (.fwdb 0 0) ∧ decode 0x00001006 = .ok (.fwdb 1 0) ∧ decode 0x00400006 = .ok (.fwdb 0 1) ∧
    decode 0x00801006 = .ok (.fwdb 1 2) ∧ decode 0x00400007 = .ok (.invb 0 1) ∧
    decode 0xFFFFF007 = .ok (.invb 1023 1023)) ∧
  (decode 0x00000008 = .error .reservedOp ∧ decode 0xFFFFF00F = .error .reservedOp ∧
    decode 0x00000016 = .error .nonzeroReserved ∧ decode 0x00000FF7 = .error .nonzeroReserved ∧
    decode 0x00000010 = .error .nonzeroReserved ∧ decode 0x00001001 = .error .nonzeroOperandField ∧
    decode 0x80000000 = .error .nonzeroOperandField)

/-- 30_encoding.md R72, R73, R76: decoding an encoded command gives it back, with every block index the field admits. -/
def Obligations.DecodeOfEncodeIsTheCommand : Prop :=
  ∀ i : Instr, i.WellFormed → decode (encode i) = .ok i

/-- 30_encoding.md R72, R75: a word that decodes is the encoding of the one well-formed command it decodes to. -/
def Obligations.DecodedWordsAreEncodings : Prop :=
  ∀ (w : Word) (i : Instr), decode w = .ok i ↔ (i.WellFormed ∧ encode i = w)

/-- 30_encoding.md R74: exactly the words of its three cases are illegal, and an idle core rejects each with
ILLEGAL_COMMAND and no effect beyond the error capture. -/
def Obligations.IllegalWordsAreRejected : Prop :=
  ∀ w : Word,
    ((∃ e, decode w = .error e) ↔
      (8 ≤ w.toNat % 16 ∨ w.toNat / 16 % 256 ≠ 0 ∨ (w.toNat % 16 ≤ 5 ∧ w.toNat / 4096 ≠ 0))) ∧
    ∀ s : State, s.phase = .idle → (∃ e, decode w = .error e) → present w s = .next (s.raise .illegalCommand w)

/-! ## The step -/

/-- 43_scheduler.md R120, R122, 60_exceptions.md R145 to R148: on the Host's turn a 4-byte write to CMD presents its word,
legal or not, busy or not; of a legal word to an idle core that is the decoded command's acceptance, and on the Engine's
turn it is the running command's completion. With no turn listed a running command completes and an idle core lets the
host go on (the model's choice, log 2); the lists and the response are the model's own (logs 2, 3 and 11). -/
def Obligations.StepRunsTheDecodedCommand : Prop :=
  ∀ (s : State) (w : Word) (i : Instr) (hs : List HostOp) (ts : List Turn),
    (s.host = .write .word 0x010 w :: hs →
      hostStep s = present w { s with host := hs, response := some .okay } ∧
      (s.turns = .host :: ts → step s = present w { s with host := hs, turns := ts, response := some .okay }) ∧
      (s.turns = [] → s.phase = .idle → step s = present w { s with host := hs, response := some .okay })) ∧
    (s.phase = .idle → decode w = .ok i → s.host = .write .word 0x010 w :: hs → s.turns = .host :: ts →
      step s = exec i { s with host := hs, turns := ts, response := some .okay }) ∧
    (s.phase = .idle → decode w = .ok i → s.host = .write .word 0x010 w :: hs → s.turns = [] →
      step s = exec i { s with host := hs, response := some .okay }) ∧
    (s.phase = .busy → decode s.engCmd = .ok i → s.turns = .engine :: ts → step s = exec i { s with turns := ts }) ∧
    (s.phase = .busy → decode s.engCmd = .ok i → s.turns = [] → step s = exec i s)

/-- The model's `withFetchWord` (log 3): from an idle state the very next step runs the placed command, and nothing but
the response differs from the state it was placed in. -/
def Obligations.PlacedWordRunsNext : Prop :=
  ∀ (s : State) (i : Instr), s.phase = .idle → i.WellFormed →
    step (s.withFetchWord 32 (encode i).toNat) = exec i { s with response := some .okay }

/-! ## Acceptance and errors -/

/-- 60_exceptions.md R147: of several errors the first in the order BUSY, ILLEGAL_COMMAND, then the command's own, is
reported, and it alone. -/
def Obligations.RejectionsReportTheFirstErrorInOrder : Prop :=
  ∀ (s : State) (w : Word),
    (s.phase = .busy → present w s = .next (s.raise .busy w)) ∧
    (s.phase = .idle → (∃ e, decode w = .error e) → present w s = .next (s.raise .illegalCommand w)) ∧
    (s.phase = .idle → (decode w = .ok .pad ∨ decode w = .ok .run) →
      (s.inW.toNat % 65536 = 0 ∨ s.inH.toNat % 65536 = 0 → present w s = .next (s.raise .invalidDimensions w)) ∧
      (s.inW.toNat % 65536 ≠ 0 → s.inH.toNat % 65536 ≠ 0 →
        (1024 < padDim (s.inW.toNat % 65536) ∨ 1024 < padDim (s.inH.toNat % 65536)) →
        present w s = .next (s.raise .allocationFailure w))) ∧
    (∀ i, s.phase = .idle → decode w = .ok i →
      (i = .fwd ∨ i = .inv ∨ i = .reasm ∨ ∃ p q, i = .fwdb p q ∨ i = .invb p q) → s.pvalid = false →
      present w s = .next (s.raise .notPadded w)) ∧
    (∀ p q, s.phase = .idle → (decode w = .ok (.fwdb p q) ∨ decode w = .ok (.invb p q)) → s.pvalid = true →
      (s.ph ≤ 8 * p ∨ s.pw ≤ 8 * q) → present w s = .next (s.raise .blockRange w)) ∧
    (∀ p q, s.phase = .idle → decode w = .ok (.invb p q) → s.pvalid = true → 8 * p < s.ph → 8 * q < s.pw →
      s.tag p q ≠ .qcoef → present w s = .next (s.raise .sequence w)) ∧
    (∀ p q, s.phase = .idle → decode w = .ok .inv → s.pvalid = true → p < s.ph / 8 → q < s.pw / 8 →
      s.tag p q ≠ .qcoef → present w s = .next (s.raise .sequence w)) ∧
    (∀ p q, s.phase = .idle → decode w = .ok .reasm → s.pvalid = true → p < s.ph / 8 → q < s.pw / 8 →
      s.tag p q ≠ .recon → present w s = .next (s.raise .sequence w))

/-- 60_exceptions.md R146 and R148: with ERR clear an error of the code R146 lists sets ERR_CODE, ERR_CMD and ERR, with
ERR set it sets OVERRUN, and nothing else changes. -/
def Obligations.ErrorCaptureKeepsTheFirstError : Prop :=
  (∀ (s : State) (e : CmdError) (w : Word),
    (s.irqStatus.getLsbD 1 = false →
      s.raise e w = { s with errCode := e.code, errCmd := w, irqStatus := s.irqStatus ||| 0x2 }) ∧
    (s.irqStatus.getLsbD 1 = true → s.raise e w = { s with irqStatus := s.irqStatus ||| 0x8 })) ∧
  (CmdError.invalidDimensions.code = 1 ∧ CmdError.allocationFailure.code = 2 ∧ CmdError.illegalCommand.code = 3 ∧
    CmdError.busy.code = 4 ∧ CmdError.notPadded.code = 5 ∧ CmdError.blockRange.code = 6 ∧ CmdError.sequence.code = 7)

/-- 43_scheduler.md R120: an idle core accepts each command whose conditions hold: ENG.CMD, ENG.SNAP and the phase
change, and nothing else. -/
def Obligations.AcceptableCommandsAreAccepted : Prop :=
  ∀ (i : Instr) (s : State), s.phase = .idle → Acceptable s i →
    exec i s = .next { s with phase := .busy, engCmd := encode i, engSnap := ⟨s.ctrl, s.inW, s.inH, s.clampCnt⟩ }

/-- 43_scheduler.md R120, 60_exceptions.md R145, R148: presenting any word to CMD touches no buffer, tag, configuration
register or counter, and neither DONE nor CLAMP; a rejection leaves the Engine alone. -/
def Obligations.PresentationTouchesOnlyEngineAndErrors : Prop :=
  ∀ (w : Word) (s : State), ∃ t, present w s = .next t ∧
    t = { s with errCode := t.errCode, errCmd := t.errCmd, irqStatus := t.irqStatus, phase := t.phase,
                 engCmd := t.engCmd, engSnap := t.engSnap } ∧
    (∀ n, n ≠ 1 → n ≠ 3 → t.irqStatus.getLsbD n = s.irqStatus.getLsbD n) ∧
    ((t.phase = s.phase ∧ t.engCmd = s.engCmd ∧ t.engSnap = s.engSnap ∧
        (t.irqStatus.getLsbD 1 = true)) ∨
      (s.phase = .idle ∧ t.phase = .busy ∧ t.errCode = s.errCode ∧ t.errCmd = s.errCmd ∧ t.irqStatus = s.irqStatus))

/-! ## Completions: what each command leaves -/

/-- 43_scheduler.md R126: an idle core accepts NOP, and its completion is R122's end and nothing else. -/
def Obligations.NopCompletesWithDoneOnly : Prop :=
  ∀ s : State,
    (s.phase = .idle →
      exec .nop s = .next { s with phase := .busy, engCmd := 0, engSnap := ⟨s.ctrl, s.inW, s.inH, s.clampCnt⟩ }) ∧
    (s.phase = .busy → exec .nop s = .next { s with phase := .idle, irqStatus := s.irqStatus ||| 0x1 })

/-- 40_padder.md R82 and R83: PAD completes; the canvas of PSRC holds the input and the fill that PAD_MODE selects, every
tag is EMPTY, and PAD_W, PAD_H and PVALID describe the canvas. -/
def Obligations.PadFillsTheCanvas : Prop :=
  ∀ s : State, s.phase = .busy → s.mem.wf = true →
    let w := s.engSnap.inW.toNat % 65536
    let h := s.engSnap.inH.toNat % 65536
    padDim w ≤ 1024 → padDim h ≤ 1024 →
    ∃ t, exec .pad s = .next t ∧
      (∀ r c, r < padDim h → c < padDim w →
        t.mem.sample .psrc r c =
          if r < h ∧ c < w then s.mem.sample .input r c
          else if s.engSnap.ctrl.toNat % 4 = 1 then s.mem.sample .input (min r (h - 1)) (min c (w - 1))
          else 0) ∧
      t.pw = padDim w ∧ t.ph = padDim h ∧ t.pvalid = true ∧ (∀ p q, t.tag p q = .empty) ∧
      t.phase = .idle ∧ t.irqStatus = s.irqStatus ||| 0x1

/-- 40_padder.md R84: with dimensions that are multiples of 8 PAD copies the input and fills nothing, in either mode. -/
def Obligations.PadOfWholeBlocksCopiesTheInput : Prop :=
  ∀ s : State, s.phase = .busy → s.mem.wf = true →
    let w := s.engSnap.inW.toNat % 65536
    let h := s.engSnap.inH.toNat % 65536
    8 ∣ w → 8 ∣ h → w ≤ 1024 → h ≤ 1024 →
    ∃ t, exec .pad s = .next t ∧ t.pw = w ∧ t.ph = h ∧
      ∀ r c, r < h → c < w → t.mem.sample .psrc r c = s.mem.sample .input r c

/-- 41_forward_quantize.md R93: FWDB completes; the 64 coefficients of its block are R93's, no other byte of memory
changes, its tag is QCOEF and no other tag changes. -/
def Obligations.FwdbComputesTheForwardFormula : Prop :=
  ∀ (s : State) (p q : Nat), s.phase = .busy → s.mem.wf = true → TagMap.wf s.tags = true → q < 1024 →
    ∃ t, exec (.fwdb p q) s = .next t ∧
      (∀ x y, x < 8 → y < 8 → t.mem.coef (8 * p + x) (8 * q + y) = forwardFormula s p q x y) ∧
      (∀ a, ¬ InCoefBlock p q a → t.mem.readByte a = s.mem.readByte a) ∧
      (∀ p' q', q' < 1024 → t.tag p' q' = if p' = p ∧ q' = q then .qcoef else s.tag p' q')

/-- 41_forward_quantize.md R95: FWD completes; every grid block holds R93's coefficients of PSRC as it was, and exactly
the grid's tags become QCOEF. -/
def Obligations.FwdTransformsEveryGridBlock : Prop :=
  ∀ s : State, s.phase = .busy → s.mem.wf = true → TagMap.wf s.tags = true → s.ph ≤ 1024 → s.pw ≤ 1024 →
    ∃ t, exec .fwd s = .next t ∧
      (∀ p q x y, p < s.ph / 8 → q < s.pw / 8 → x < 8 → y < 8 →
        t.mem.coef (8 * p + x) (8 * q + y) = forwardFormula s p q x y) ∧
      (∀ p q, q < 1024 → t.tag p q = if p < s.ph / 8 ∧ q < s.pw / 8 then .qcoef else s.tag p q)

/-- 42_inverse_dequantize.md R105 to R107: INVB completes; the 64 values of its block are R107's of the block before the
command, in the order INV_ORDER selects, no other byte changes, its tag is RECON and no other tag changes. -/
def Obligations.InvbComputesTheInverseFormula : Prop :=
  ∀ (s : State) (p q : Nat), s.phase = .busy → s.mem.wf = true → TagMap.wf s.tags = true → q < 1024 →
    ∃ t, exec (.invb p q) s = .next t ∧
      (∀ i j, i < 8 → j < 8 → t.mem.coef (8 * p + i) (8 * q + j) = inverseFormula s p q i j) ∧
      (∀ a, ¬ InCoefBlock p q a → t.mem.readByte a = s.mem.readByte a) ∧
      (∀ p' q', q' < 1024 → t.tag p' q' = if p' = p ∧ q' = q then .recon else s.tag p' q')

/-- 42_inverse_dequantize.md R109: INV completes; every grid block holds R107's values of its own block before the
command, and exactly the grid's tags become RECON. -/
def Obligations.InvTransformsEveryGridBlock : Prop :=
  ∀ s : State, s.phase = .busy → s.mem.wf = true → TagMap.wf s.tags = true → s.ph ≤ 1024 → s.pw ≤ 1024 →
    ∃ t, exec .inv s = .next t ∧
      (∀ p q i j, p < s.ph / 8 → q < s.pw / 8 → i < 8 → j < 8 →
        t.mem.coef (8 * p + i) (8 * q + j) = inverseFormula s p q i j) ∧
      (∀ p q, q < 1024 → t.tag p q = if p < s.ph / 8 ∧ q < s.pw / 8 then .recon else s.tag p q)

/-- 44_reassembler.md R136 to R138: REASM completes; OUT holds the converted canvas, CLAMP_CNT the snapshot's count plus
the clamped elements, saturated, and CLAMP is set if there were any. -/
def Obligations.ReasmRoundsAndClampsTheCanvas : Prop :=
  ∀ s : State, s.phase = .busy → s.mem.wf = true → s.ph ≤ 1024 → s.pw ≤ 1024 →
    let conv := fun r c => toSample (s.engSnap.ctrl.getLsbD 2) (s.mem.coef r c)
    let k := ((Finset.range s.ph ×ˢ Finset.range s.pw).filter fun e => (conv e.1 e.2).2 = true).card
    ∃ t, exec .reasm s = .next t ∧
      (∀ r c, r < s.ph → c < s.pw → t.mem.sample .out r c = (conv r c).1) ∧
      t.clampCnt.toNat = min (s.engSnap.clampCnt.toNat + k) 0xFFFFFFFF ∧
      t.irqStatus = s.irqStatus ||| (if 0 < k then 0x5 else 0x1) ∧ t.phase = .idle ∧ t.tags = s.tags ∧
      t.errCode = s.errCode ∧ t.errCmd = s.errCmd

/-- 43_scheduler.md R127: RUN completes, and what it leaves is what `pad`, `fwd`, `inv` and `reasm` leave when each is
presented after the one before it has completed, each accepted; ENG.CMD and ENG.SNAP, which nothing reads while IDLE and
which the model keeps from the last accepted command (the model's choice, log 7), are the only difference. -/
def Obligations.RunIsThePipelineOfItsStages : Prop :=
  ∀ s : State, s.phase = .busy → s.mem.wf = true → s.engSnap = ⟨s.ctrl, s.inW, s.inH, s.clampCnt⟩ →
    Acceptable s .run →
    ∃ t a a' b b' c c' d, exec .run s = .next t ∧
      exec .pad s = .next a ∧
      exec .fwd a = .next a' ∧ a'.phase = .busy ∧ exec .fwd a' = .next b ∧
      exec .inv b = .next b' ∧ b'.phase = .busy ∧ exec .inv b' = .next c ∧
      exec .reasm c = .next c' ∧ c'.phase = .busy ∧ exec .reasm c' = .next d ∧
      t = { d with engCmd := s.engCmd, engSnap := s.engSnap }

/-- 43_scheduler.md R128: SCHED (bit 5 of the latched CTRL) has no effect on the state RUN leaves. -/
def Obligations.ScheduleModeIsUnobservable : Prop :=
  ∀ s : State, s.phase = .busy → s.mem.wf = true →
    padDim (s.engSnap.inW.toNat % 65536) ≤ 1024 → padDim (s.engSnap.inH.toNat % 65536) ≤ 1024 →
    let flipped := { s.engSnap with ctrl := s.engSnap.ctrl ^^^ 0x20 }
    ∃ t, exec .run s = .next t ∧
      exec .run { s with engSnap := flipped } = .next { t with engSnap := flipped }

/-- 43_scheduler.md R125: the block functions of distinct blocks of the buffers commute, so the order of the blocks has no
effect. -/
def Obligations.DistinctBlocksCommute : Prop :=
  ∀ (s : State) (p q p' q' : Nat), s.mem.wf = true → TagMap.wf s.tags = true →
    p < 128 → q < 128 → p' < 128 → q' < 128 → (p ≠ p' ∨ q ≠ q') →
    forwardBlock p q (forwardBlock p' q' s) = forwardBlock p' q' (forwardBlock p q s) ∧
    inverseBlock p q (inverseBlock p' q' s) = inverseBlock p' q' (inverseBlock p q s) ∧
    forwardBlock p q (inverseBlock p' q' s) = inverseBlock p' q' (forwardBlock p q s)

/-! ## Frames -/

/-- The registers each completion may write (the "Status bits written" of 40_padder.md R83, 41_forward_quantize.md R94
and R95, 42_inverse_dequantize.md R108 and R109, 43_scheduler.md R126 and R127, 44_reassembler.md R137): every other
register, flag and field is unchanged. -/
def Obligations.CompletionsWriteOnlyTheirRegisters : Prop :=
  ∀ (i : Instr) (s : State), s.phase = .busy → ∃ t, exec i s = .next t ∧
    t = { s with phase := .idle, irqStatus := t.irqStatus, clampCnt := t.clampCnt, pvalid := t.pvalid,
                 padW := t.padW, padH := t.padH, mem := t.mem, tags := t.tags } ∧
    t.irqStatus.getLsbD 0 = true ∧
    (∀ n, n ≠ 0 → n ≠ 2 → t.irqStatus.getLsbD n = s.irqStatus.getLsbD n) ∧
    (s.irqStatus.getLsbD 2 = true → t.irqStatus.getLsbD 2 = true) ∧
    (i ≠ .reasm → i ≠ .run → t.irqStatus.getLsbD 2 = s.irqStatus.getLsbD 2 ∧ t.clampCnt = s.clampCnt) ∧
    (i ≠ .pad → i ≠ .run → t.pvalid = s.pvalid ∧ t.padW = s.padW ∧ t.padH = s.padH) ∧
    (i = .nop ∨ i = .reasm → t.tags = s.tags)

/-- The bytes each completion may store to: every byte outside them reads as before (40_padder.md R83,
41_forward_quantize.md R94 and R95, 42_inverse_dequantize.md R108 and R109, 43_scheduler.md R126 and R127,
44_reassembler.md R137). -/
def Obligations.CompletionsStoreOnlyToTheirRegions : Prop :=
  ∀ (i : Instr) (s : State), s.phase = .busy → s.mem.wf = true → ∃ t, exec i s = .next t ∧
    ∀ a, ¬ StoresTo s i a → t.mem.readByte a = s.mem.readByte a

/-! ## Invariants -/

/-- Every step keeps the invariant of the machine: canonical memory and tags, legal CTRL, reserved bits 0, a legal error
code, the dimensions of a canvas, positive steps, EMPTY outside the grid, and while BUSY a snapshot equal to its registers
and a command that still passes its checks (10_state.md R27 to R48, 43_scheduler.md R123). -/
def Obligations.EveryStepKeepsTheInvariant : Prop :=
  ∀ s t : State, s.Inv → step s = .next t → t.Inv

/-- The state after reset meets the invariant and the bound on coefficients. -/
def Obligations.ResetMeetsTheInvariant : Prop := State.reset.Inv ∧ State.reset.CoefBounded

/-- 42_inverse_dequantize.md R112: every block that holds coefficients holds finite ones within the rule's bounds, and
every step keeps it so: no NaN and no infinity arises from any command. -/
def Obligations.EveryStepKeepsCoefficientsBounded : Prop :=
  ∀ s t : State, s.Inv → s.CoefBounded → step s = .next t → t.CoefBounded

/-- No step of a state that meets the invariant is refused: the machine stops only where a host access gets a bus
error, and only on the Host's turn. That this is so of an idle core with no turn listed is the model's choice (log 2), and
that a busy Engine without a legal command would be refused is too (log 16). -/
def Obligations.OnlyHostAccessesStopTheMachine : Prop :=
  ∀ s : State, s.Inv →
    (∃ t, step s = .next t) ∨
      ((∃ f, step s = .fault f) ∧ (s.turns.head? = some .host ∨ (s.turns = [] ∧ s.phase = .idle)) ∧ s.host ≠ [])

/-- 42_inverse_dequantize.md R112, 60_exceptions.md R145, R150: whatever the host does, in whatever order the agents move
and whatever images resets leave, every state of a run meets the invariant, its blocks hold bounded finite coefficients,
and its next step is no refusal (the one refusal is the model's own, log 16). -/
def Obligations.EveryRunStaysWithinTheInvariant : Prop :=
  ∀ s : State, Reachable s → s.Inv ∧ s.CoefBounded ∧ ((∃ t, step s = .next t) ∨ ∃ f, step s = .fault f)

/-- 43_scheduler.md R122, 60_exceptions.md R145: the Engine's turn completes an accepted command, with DONE, no error and
no other command accepted. That a busy core with no turn listed takes the Engine's turn is the model's choice (log 2). -/
def Obligations.RunningCommandCompletesOnTheEnginesTurn : Prop :=
  ∀ (s : State) (ts : List Turn), s.Inv → s.phase = .busy → (s.turns = .engine :: ts ∨ s.turns = []) →
    ∃ t, step s = .next t ∧ t.phase = .idle ∧ t.irqStatus.getLsbD 0 = true ∧ t.errCode = s.errCode ∧
      t.errCmd = s.errCmd ∧ t.irqStatus.getLsbD 1 = s.irqStatus.getLsbD 1

/-- 10_state.md R46, 43_scheduler.md R123: no access of the host changes what a running command reads, or the command. -/
def Obligations.HostAccessesLeaveARunningCommandAlone : Prop :=
  ∀ s t : State, s.phase = .busy → hostStep s = .next t →
    t = { s with errCode := t.errCode, errCmd := t.errCmd, irqStatus := t.irqStatus, irqEnable := t.irqEnable,
                 host := t.host, response := t.response }

/-! ## Reset -/

/-- 70_reset_and_hazards.md R165: the reset step leaves every register at the value of 10_state.md R49, every tag EMPTY,
the Engine IDLE, IRQ 0, and as the buffers' contents any image at all. -/
def Obligations.ResetStepLeavesTheResetTable : Prop :=
  ∀ (s : State) (image : List Host.Cell) (ts : List Turn), s.turns = .reset image :: ts →
    ∃ t, step s = .next t ∧
      (∀ r : Reg, t.readReg r =
        match r with
        | .id => 0x44435438
        | .version => 0x00000001
        | .cap => 0x04000400
        | .qtab k => BitVec.ofNat 32 (s.qtab[k.val]'k.isLt).toNat
        | _ => 0x00000000) ∧
      (∀ p q, t.tag p q = .empty) ∧ t.phase = .idle ∧ t.irqLine = false ∧
      t.mem.wf = true ∧
      (Memory.wf image = true → (∀ c ∈ image, inBuffers c.1 = true) → t.mem = image)

/-! ## Registers -/

/-- 10_state.md R24 to R40: what a 4-byte read of each register returns, busy or not; nothing of the block changes. -/
def Obligations.RegistersReadTheirFields : Prop :=
  ∀ (s : State) (addr : Offset) (rest : List HostOp), s.host = .read .word addr :: rest →
    let reads := fun (a : Nat) (v : Word) =>
      addr.toNat = a → hostStep s = .next { s with host := rest, response := some (.data v) }
    reads 0x000 0x44435438 ∧ reads 0x004 0x00000001 ∧ reads 0x008 0x04000400 ∧ reads 0x00C s.ctrl ∧ reads 0x010 0 ∧
    reads 0x014 (BitVec.ofNat 32 ((if s.phase = .busy then 1 else 0) + (if s.pvalid then 2 else 0))) ∧
    reads 0x018 s.irqStatus ∧ reads 0x01C s.irqEnable ∧ reads 0x020 s.errCode ∧ reads 0x024 s.errCmd ∧
    reads 0x028 s.inW ∧ reads 0x02C s.inH ∧ reads 0x030 s.padW ∧ reads 0x034 s.padH ∧ reads 0x038 s.clampCnt ∧
    reads 0x03C (BitVec.ofNat 32 (s.padW.toNat % 65536 / 8 * (s.padH.toNat % 65536 / 8))) ∧
    ∀ x y, x < 8 → y < 8 → reads (0x800 + 4 * (8 * x + y)) (BitVec.ofNat 32 (s.qtable x y))

/-- 10_state.md R27: a write to CTRL while idle stores bits [5:2], leaves PAD_MODE as it was where the data's bits [1:0]
are 2 or 3, and leaves the reserved bits 0; nothing else changes. -/
def Obligations.CtrlWritesAreLegalised : Prop :=
  ∀ (s : State) (v : Word) (rest : List HostOp), s.phase = .idle → s.host = .write .word 0x00C v :: rest →
    hostStep s = .next { s with
      host := rest
      response := some .okay
      ctrl := BitVec.ofNat 32 (v.toNat / 4 % 16 * 4 +
        (if v.toNat % 4 ≤ 1 then v.toNat % 4 else s.ctrl.toNat % 4)) }

/-- 10_state.md R30, R31, R34, R35, R38: what a write to each other writable register stores; nothing else changes. -/
def Obligations.RegisterWritesStoreTheirFields : Prop :=
  ∀ (s : State) (v : Word) (rest : List HostOp),
    (s.host = .write .word 0x018 v :: rest →
      hostStep s = .next { s with host := rest, response := some .okay, irqStatus := s.irqStatus &&& ~~~v }) ∧
    (s.host = .write .word 0x01C v :: rest →
      hostStep s = .next { s with host := rest, response := some .okay, irqEnable := BitVec.ofNat 32 (v.toNat % 8) }) ∧
    (s.phase = .idle → s.host = .write .word 0x028 v :: rest →
      hostStep s = .next { s with host := rest, response := some .okay, inW := BitVec.ofNat 32 (v.toNat % 65536) }) ∧
    (s.phase = .idle → s.host = .write .word 0x02C v :: rest →
      hostStep s = .next { s with host := rest, response := some .okay, inH := BitVec.ofNat 32 (v.toNat % 65536) }) ∧
    (s.phase = .idle → s.host = .write .word 0x038 v :: rest →
      hostStep s = .next { s with host := rest, response := some .okay, clampCnt := v })

/-- 70_reset_and_hazards.md R171: a write to CTRL, IN_W, IN_H or CLAMP_CNT while BUSY is ignored without an error. -/
def Obligations.ConfigurationWritesWhileBusyAreLost : Prop :=
  ∀ (s : State) (addr : Offset) (v : Word) (rest : List HostOp), s.phase = .busy →
    s.host = .write .word addr v :: rest → addr.toNat ∈ [0x00C, 0x028, 0x02C, 0x038] →
    hostStep s = .next { s with host := rest, response := some .okay }

/-- 10_state.md R48: a write to a read-only register completes without a bus error and changes nothing, busy or not. -/
def Obligations.ReadOnlyRegisterWritesChangeNothing : Prop :=
  ∀ (s : State) (addr : Offset) (v : Word) (rest : List HostOp), s.host = .write .word addr v :: rest →
    (addr.toNat ∈ [0x000, 0x004, 0x008, 0x014, 0x020, 0x024, 0x030, 0x034, 0x03C] ∨
      ∃ k, k < 64 ∧ addr.toNat = 0x800 + 4 * k) →
    hostStep s = .next { s with host := rest, response := some .okay }

/-- 10_state.md R47: IRQ is the OR of DONE, ERR and CLAMP, each under its enable; OVERRUN does not drive it. After reset
it is 0. -/
def Obligations.IrqLineFollowsTheEnabledBits : Prop :=
  (∀ s : State, s.irqLine = true ↔ ∃ n, n ≤ 2 ∧ s.irqStatus.getLsbD n = true ∧ s.irqEnable.getLsbD n = true) ∧
  (∀ (s : State) (b : Bool), ({ s with irqStatus := (s.irqStatus &&& ~~~0x8) ||| (if b then 0x8 else 0) }).irqLine
    = s.irqLine) ∧
  State.reset.irqLine = false

/-! ## Bus accesses -/

/-- 60_exceptions.md R150: a host access gets BUSERR in exactly the listed cases, whether it reads, writes or polls. -/
def Obligations.BusErrorsAreExactlyTheListedOnes : Prop :=
  ∀ (s : State) (size : Size) (addr : Offset) (v mask : Word) (rest : List HostOp),
    (s.host = .read size addr :: rest →
      ((∃ f, hostStep s = .fault f) ↔ BusErrorCase (s.phase = .busy) size.bytes addr.toNat)) ∧
    (s.host = .write size addr v :: rest →
      ((∃ f, hostStep s = .fault f) ↔ BusErrorCase (s.phase = .busy) size.bytes addr.toNat)) ∧
    (s.host = .poll addr mask v :: rest →
      ((∃ f, hostStep s = .fault f) ↔ BusErrorCase (s.phase = .busy) 4 addr.toNat))

/-- 20_memory.md R56: while BUSY every access to a buffer window gets BUSERR, whatever its size and alignment, and the
register window is unaffected. -/
def Obligations.BufferWindowsFaultWhileBusy : Prop :=
  ∀ (s : State) (size : Size) (addr : Offset) (v mask : Word) (rest : List HostOp), s.phase = .busy →
    (s.host = .read size addr :: rest ∨ s.host = .write size addr v :: rest ∨ s.host = .poll addr mask v :: rest) →
    (inBuffers addr.toNat = true → ∃ f, hostStep s = .fault f) ∧
    (addr.toNat < 0x1000 →
      ((∃ f, hostStep s = .fault f) ↔ ∃ f, hostStep { s with phase := .idle } = .fault f))

/-- 20_memory.md R53 and R54: an aligned access of n bytes to a sample window, at row r and column c. Byte k of a read is
element c + k of the row; a write to IN stores byte k there and changes no other byte; a write to PSRC or OUT changes
nothing. A misaligned access gets BUSERR. -/
def Obligations.SampleWindowAccessesMoveElements : Prop :=
  ∀ (s : State) (b : SampleBuf) (size : Size) (addr : Offset) (v : Word) (rest : List HostOp) (r c : Nat),
    s.phase = .idle → s.mem.wf = true → r < 1024 → c < 1024 → addr.toNat = b.base + r * 1024 + c →
    (c % size.bytes = 0 →
      (s.host = .read size addr :: rest →
        ∃ d : Word, hostStep s = .next { s with host := rest, response := some (.data d) } ∧
          (∀ k, k < size.bytes → d.toNat / 256 ^ k % 256 = (s.mem.sample b r (c + k)).toNat) ∧
          d.toNat < 256 ^ size.bytes) ∧
      (s.host = .write size addr v :: rest → b = .input →
        ∃ t, hostStep s = .next t ∧ t = { s with host := rest, response := some .okay, mem := t.mem } ∧
          (∀ k, k < size.bytes → (t.mem.sample .input r (c + k)).toNat = v.toNat / 256 ^ k % 256) ∧
          (∀ a, (a < addr.toNat ∨ addr.toNat + size.bytes ≤ a) → t.mem.readByte a = s.mem.readByte a)) ∧
      (s.host = .write size addr v :: rest → b ≠ .input →
        hostStep s = .next { s with host := rest, response := some .okay })) ∧
    (c % size.bytes ≠ 0 → (s.host = .read size addr :: rest ∨ s.host = .write size addr v :: rest) →
      hostStep s = .fault .busSampleMisaligned)

/-- 20_memory.md R55: of COEF[r][c] a 4-byte read at its offset returns bits [31:0] and at its offset + 4 bits [63:32]; a
4-byte write changes nothing; a 1- or 2-byte or misaligned access gets BUSERR. -/
def Obligations.CoefficientWindowReadsTheTwoHalves : Prop :=
  ∀ (s : State) (addr : Offset) (rest : List HostOp) (r c : Nat), s.phase = .idle → r < 1024 → c < 1024 →
    (addr.toNat = 0x800000 + 8 * (r * 1024 + c) → s.host = .read .word addr :: rest →
      hostStep s = .next { s with host := rest, response := some (.data ((s.mem.coef r c).extractLsb' 0 32)) }) ∧
    (addr.toNat = 0x800000 + 8 * (r * 1024 + c) + 4 → s.host = .read .word addr :: rest →
      hostStep s = .next { s with host := rest, response := some (.data ((s.mem.coef r c).extractLsb' 32 32)) }) ∧
    (∀ v, 0x800000 ≤ addr.toNat → addr.toNat % 4 = 0 → s.host = .write .word addr v :: rest →
      hostStep s = .next { s with host := rest, response := some .okay }) ∧
    (∀ size v, 0x800000 ≤ addr.toNat → (size ≠ .word ∨ addr.toNat % 4 ≠ 0) →
      (s.host = .read size addr :: rest ∨ s.host = .write size addr v :: rest) → ∃ f, hostStep s = .fault f)

/-- 20_memory.md R59: no read has a side effect: a read that gets OKAY changes the host's list and the response alone,
which the model adds (logs 3 and 11). -/
def Obligations.ReadsHaveNoSideEffect : Prop :=
  ∀ (s : State) (size : Size) (addr : Offset) (rest : List HostOp), s.host = .read size addr :: rest →
    ¬ BusErrorCase (s.phase = .busy) size.bytes addr.toNat →
    ∃ d, hostStep s = .next { s with host := rest, response := some (.data d) }

/-- 00_scope.md R11: a poll of STATUS reads it, and stays the host's next operation until the masked value matches. -/
def Obligations.PollRepeatsUntilTheValueMatches : Prop :=
  ∀ (s : State) (mask value : Word) (rest : List HostOp), s.host = .poll 0x014 mask value :: rest →
    (s.statusWord &&& mask = value →
      hostStep s = .next { s with host := rest, response := some (.data s.statusWord) }) ∧
    (s.statusWord &&& mask ≠ value → hostStep s = .next { s with response := some (.data s.statusWord) })

/-! ## Arithmetic -/

/-- 40_padder.md R80: padDim(n) is the least multiple of 8 that is at least n, and at most 65536 for n ≤ 65535. -/
def Obligations.PaddedDimensionIsTheLeastMultipleOfEight : Prop :=
  ∀ n : Nat, 1 ≤ n →
    8 ∣ padDim n ∧ n ≤ padDim n ∧ (∀ m, 8 ∣ m → n ≤ m → padDim n ≤ m) ∧ (n ≤ 65535 → padDim n ≤ 65536)

/-- 44_reassembler.md R135: toSample on the exact value of a finite v, with the clamp judged on the rounded integer; a
command converts with the mode bit of the CTRL it latched. -/
def Obligations.SampleConversionIsExact : Prop :=
  (∀ (trunc : Bool) (v : F64), f64IsFinite v = true →
    let x := f64Value v
    let n : ℤ := (if x < 0 then -1 else 1) * (if trunc then ⌊|x|⌋ else ⌊|x| + 1 / 2⌋)
    toSample trunc v =
      if n < 0 then (0, true) else if 255 < n then (255, true) else (BitVec.ofNat 8 n.toNat, false)) ∧
  ∀ (s : State) (r c : Nat), s.reasmElement r c = toSample (s.engSnap.ctrl.toNat / 4 % 2 = 1) (s.mem.coef r c)

/-- 00_scope.md R9: fadd rounds the exact sum once to binary64, ties to even. An exact sum of 0 is +0.0 unless both
operands are negative zeros. What binary64 and roundTiesToEven are is IEEE 754's, from outside the spec (PRESUMED,
log 9). -/
def Obligations.AdditionRoundsToNearestEven : Prop :=
  ∀ a b : F64, f64IsFinite a = true → f64IsFinite b = true →
    let x := f64Value a + f64Value b
    RoundsTo (fadd a b) (if x = 0 then f64Sign a && f64Sign b else decide (x < 0)) x

/-- 00_scope.md R9: fmul rounds the exact product once to binary64, ties to even, with the sign of the operands' product, a
zero's too. What binary64 and roundTiesToEven are is IEEE 754's, from outside the spec (PRESUMED, log 9). -/
def Obligations.MultiplicationRoundsToNearestEven : Prop :=
  ∀ a b : F64, f64IsFinite a = true → f64IsFinite b = true →
    RoundsTo (fmul a b) (f64Sign a != f64Sign b) (f64Value a * f64Value b)

/-- 00_scope.md R9: fdiv by a nonzero divisor rounds the exact quotient once to binary64, ties to even, with the sign of the
operands' quotient, a zero's too. What binary64 and roundTiesToEven are is IEEE 754's, from outside the spec (PRESUMED,
log 9). -/
def Obligations.DivisionRoundsToNearestEven : Prop :=
  ∀ a b : F64, f64IsFinite a = true → f64IsFinite b = true → f64Value b ≠ 0 →
    RoundsTo (fdiv a b) (f64Sign a != f64Sign b) (f64Value a / f64Value b)

/-- 41_forward_quantize.md R90: each entry of CT is finite and within half a unit of its last place of the exact real
cosine, and row 0 holds the encodings the rule prints. -/
def Obligations.CosineTableIsCorrectlyRounded : Prop :=
  (∀ n k : Nat, n < 8 → k < 8 →
    f64IsFinite (ct n k) = true ∧
    |((f64Value (ct n k) : ℚ) : ℝ) - Real.cos ((2 * n + 1) * k * Real.pi / 16)| ≤ (2 : ℝ) ^ (f64Lsb (ct n k) - 1)) ∧
  ct 0 0 = 0x3FF0000000000000 ∧ ct 0 1 = 0x3FEF6297CFF75CB0 ∧ ct 0 2 = 0x3FED906BCF328D46 ∧
  ct 0 3 = 0x3FEA9B66290EA1A3 ∧ ct 0 4 = 0x3FE6A09E667F3BCD ∧ ct 0 5 = 0x3FE1C73B39AE68C8 ∧
  ct 0 6 = 0x3FD87DE2A6AEA963 ∧ ct 0 7 = 0x3FC8F8B83C69A60B

/-- 41_forward_quantize.md R91: AL[0] is within half a unit of its last place of sqrt(1/8), AL[1..7] are sqrt(2/8)
exactly, and the encodings are the ones the rule prints, with that of fmul(AL[0], AL[0]). -/
def Obligations.ScaleTableIsCorrectlyRounded : Prop :=
  |((f64Value (al 0) : ℚ) : ℝ) - Real.sqrt (1 / 8)| ≤ (2 : ℝ) ^ (f64Lsb (al 0) - 1) ∧
  al 0 = 0x3FD6A09E667F3BCD ∧
  (∀ k : Nat, 1 ≤ k → k < 8 → ((f64Value (al k) : ℚ) : ℝ) = Real.sqrt (2 / 8) ∧ al k = 0x3FE0000000000000) ∧
  fmul (al 0) (al 0) = 0x3FC0000000000001

/-- 41_forward_quantize.md R98: whatever the samples and the (positive) steps, every forward value is finite and at most
4080 in magnitude. -/
def Obligations.ForwardValuesAreBounded : Prop :=
  ∀ (s : State) (p q x y : Nat), (∀ k : Fin 64, s.qtab[k.val]'k.isLt ≠ 0) → x < 8 → y < 8 →
    f64IsFinite (forwardFormula s p q x y) = true ∧ |f64Value (forwardFormula s p q x y)| ≤ 4080

/-- 41_forward_quantize.md R94, corner case: FWDB of a block of zeros leaves 64 coefficients of +0.0, for any table. -/
def Obligations.ZeroBlockHasPositiveZeroCoefficients : Prop :=
  ∀ (s : State) (p q : Nat), s.phase = .busy → s.mem.wf = true → (∀ k : Fin 64, s.qtab[k.val]'k.isLt ≠ 0) →
    (∀ u v, u < 8 → v < 8 → s.mem.sample .psrc (8 * p + u) (8 * q + v) = 0) →
    ∃ t, exec (.fwdb p q) s = .next t ∧ ∀ x y, x < 8 → y < 8 → t.mem.coef (8 * p + x) (8 * q + y) = 0
end

