-- ==== Sys2Proof/Laws/Sparse.lean ====
section
/-! SUPPORT. The laws of sparse maps: read after write, the canonical form is kept, and canonical maps that read alike are
equal. -/

namespace Sys2Proof.Machine

variable {α : Type} {d : α}

@[simp] theorem sparseGet_nil (a : Nat) : sparseGet d [] a = d := rfl

/-- A key below every listed one reads as unlisted. -/
theorem sparseGet_below [DecidableEq α] :
    ∀ {m : List (Nat × α)} {lo a : Nat}, sparseWfFrom d lo m = true → a < lo → sparseGet d m a = d
  | [], _, _, _, _ => rfl
  | (k, v) :: rest, lo, a, h, ha => by
    simp only [sparseWfFrom, Bool.and_eq_true, decide_eq_true_eq] at h
    rw [sparseGet, if_pos (by omega)]

/-- A canonical map is one from any smaller bound on. -/
theorem sparseWfFrom_mono [DecidableEq α] :
    ∀ {m : List (Nat × α)} {lo lo' : Nat}, sparseWfFrom d lo m = true → lo' ≤ lo → sparseWfFrom d lo' m = true
  | [], _, _, _, _ => rfl
  | (k, v) :: rest, lo, lo', h, hle => by
    simp only [sparseWfFrom, Bool.and_eq_true, decide_eq_true_eq] at h ⊢
    exact ⟨⟨by omega, h.1.2⟩, h.2⟩

/-- Writing keeps the canonical form, whatever the bound below the key. -/
theorem sparseSet_wfFrom [DecidableEq α] (a : Nat) (v : α) :
    ∀ {m : List (Nat × α)} {lo : Nat}, sparseWfFrom d lo m = true → lo ≤ a → sparseWfFrom d lo (sparseSet d m a v) = true
  | [], lo, _, ha => by
    by_cases hv : v = d <;> simp [sparseSet, sparseWfFrom, hv, ha]
  | (k, w) :: rest, lo, h, ha => by
    have h' := h
    simp only [sparseWfFrom, Bool.and_eq_true, decide_eq_true_eq] at h
    unfold sparseSet
    split
    · split
      · exact h'
      · simp only [sparseWfFrom, Bool.and_eq_true, decide_eq_true_eq]
        exact ⟨⟨ha, ‹_›⟩, ⟨by omega, h.1.2⟩, h.2⟩
    · split
      · subst a
        split
        · exact sparseWfFrom_mono h.2 (by omega)
        · simp only [sparseWfFrom, Bool.and_eq_true, decide_eq_true_eq]
          exact ⟨⟨ha, ‹_›⟩, h.2⟩
      · simp only [sparseWfFrom, Bool.and_eq_true, decide_eq_true_eq]
        exact ⟨h.1, sparseSet_wfFrom a v h.2 (by omega)⟩

/-- Read after write, in full: the written key reads as written, every other key as before. -/
theorem sparseGet_sparseSet [DecidableEq α] (a b : Nat) (v : α) :
    ∀ {m : List (Nat × α)} {lo : Nat}, sparseWfFrom d lo m = true →
      sparseGet d (sparseSet d m a v) b = if b = a then v else sparseGet d m b
  | [], lo, _ => by
    by_cases hv : v = d <;> by_cases hb : b = a <;> simp [sparseSet, sparseGet, hv, hb]
  | (k, w) :: rest, lo, h => by
    simp only [sparseWfFrom, Bool.and_eq_true, decide_eq_true_eq] at h
    have ih := sparseGet_sparseSet a b v h.2
    have hb := @sparseGet_below α d _ rest (k + 1) b h.2
    unfold sparseSet
    by_cases h1 : a < k
    · rw [if_pos h1]
      by_cases hv : v = d
      · rw [if_pos hv]
        by_cases hba : b = a
        · subst hba; simp [sparseGet, h1, hv]
        · simp [hba]
      · rw [if_neg hv]
        simp only [sparseGet]
        by_cases hba : b = a
        · subst hba; simp
        · by_cases hlt : b < a
          · have : b < k := by omega
            simp [hlt, hba, this]
          · simp [hlt, hba]
    · rw [if_neg h1]
      by_cases h2 : a = k
      · subst h2
        rw [if_pos rfl]
        by_cases hv : v = d
        · rw [if_pos hv]
          by_cases hba : b = a
          · subst hba; simp [hb (by omega), hv]
          · simp only [sparseGet, hba, if_false]
            by_cases hlt : b < a
            · simp [hlt, hb (by omega)]
            · simp [hlt]
        · rw [if_neg hv]
          by_cases hba : b = a <;> simp [sparseGet, hba]
      · rw [if_neg h2]
        simp only [sparseGet, ih]
        by_cases hba : b = a
        · subst hba; simp [h1, h2]
        · simp [hba]

/-- Two canonical maps that read alike at every key are equal. -/
theorem sparse_ext [DecidableEq α] :
    ∀ {m n : List (Nat × α)} {lo : Nat}, sparseWfFrom d lo m = true → sparseWfFrom d lo n = true →
      (∀ a, sparseGet d m a = sparseGet d n a) → m = n
  | [], [], _, _, _, _ => rfl
  | [], (k, v) :: rest, _, _, hn, h => by
    simp only [sparseWfFrom, Bool.and_eq_true, decide_eq_true_eq] at hn
    have := h k
    simp [sparseGet] at this
    exact absurd this.symm hn.1.2
  | (k, v) :: rest, [], _, hm, _, h => by
    simp only [sparseWfFrom, Bool.and_eq_true, decide_eq_true_eq] at hm
    have := h k
    simp [sparseGet] at this
    exact absurd this hm.1.2
  | (k, v) :: rest, (k', v') :: rest', lo, hm, hn, h => by
    simp only [sparseWfFrom, Bool.and_eq_true, decide_eq_true_eq] at hm hn
    have hk : k = k' := by
      rcases Nat.lt_trichotomy k k' with hlt | heq | hgt
      · have := h k
        simp [sparseGet, hlt] at this
        exact absurd this hm.1.2
      · exact heq
      · have := h k'
        simp [sparseGet, hgt] at this
        exact absurd this.symm hn.1.2
    subst hk
    have hv : v = v' := by simpa [sparseGet] using h k
    have hrest : rest = rest' := sparse_ext hm.2 hn.2 fun a => by
      by_cases hle : a ≤ k
      · rw [sparseGet_below hm.2 (by omega), sparseGet_below hn.2 (by omega)]
      · have := h a
        simpa [sparseGet, show ¬ a < k by omega, show ¬ a = k by omega] using this
    rw [hv, hrest]

/-! ## A list of writes -/

@[simp] theorem sparseSetAll_nil [DecidableEq α] (m : List (Nat × α)) : sparseSetAll d m [] = m := rfl

@[simp] theorem sparseSetAll_cons [DecidableEq α] (m : List (Nat × α)) (c : Nat × α) (cs : List (Nat × α)) :
    sparseSetAll d m (c :: cs) = sparseSetAll d (sparseSet d m c.1 c.2) cs := rfl

theorem sparseSetAll_append [DecidableEq α] (m : List (Nat × α)) (cs cs' : List (Nat × α)) :
    sparseSetAll d m (cs ++ cs') = sparseSetAll d (sparseSetAll d m cs) cs' := by
  simp [sparseSetAll]

/-- A list of writes keeps the canonical form. -/
theorem sparseSetAll_wf [DecidableEq α] (cs : List (Nat × α)) :
    ∀ {m : List (Nat × α)}, sparseWfFrom d 0 m = true → sparseWfFrom d 0 (sparseSetAll d m cs) = true := by
  induction cs with
  | nil => intro m h; exact h
  | cons c cs ih => intro m h; exact ih (sparseSet_wfFrom c.1 c.2 h (Nat.zero_le _))

/-- A key that no write of the list names reads as before. -/
theorem sparseGet_setAll_frame [DecidableEq α] (cs : List (Nat × α)) (a : Nat) (ha : ∀ c ∈ cs, c.1 ≠ a) :
    ∀ {m : List (Nat × α)}, sparseWfFrom d 0 m = true → sparseGet d (sparseSetAll d m cs) a = sparseGet d m a := by
  induction cs with
  | nil => intro m _; rfl
  | cons c cs ih =>
    intro m h
    rw [sparseSetAll_cons, ih (fun c' hc' => ha c' (List.mem_cons_of_mem _ hc'))
      (sparseSet_wfFrom c.1 c.2 h (Nat.zero_le _)), sparseGet_sparseSet c.1 a c.2 h,
      if_neg (Ne.symm (ha c List.mem_cons_self))]

/-- Where the list names each key once, a named key reads as written. -/
theorem sparseGet_setAll_mem [DecidableEq α] (cs : List (Nat × α)) (hnd : (cs.map Prod.fst).Nodup) (c : Nat × α)
    (hc : c ∈ cs) :
    ∀ {m : List (Nat × α)}, sparseWfFrom d 0 m = true → sparseGet d (sparseSetAll d m cs) c.1 = c.2 := by
  induction cs with
  | nil => cases hc
  | cons c' cs ih =>
    intro m h
    simp only [List.map_cons, List.nodup_cons] at hnd
    have hwf := @sparseSet_wfFrom α d _ c'.1 c'.2 m 0 h (Nat.zero_le _)
    rcases List.mem_cons.mp hc with rfl | hmem
    · rw [sparseSetAll_cons, sparseGet_setAll_frame cs c.1 _ hwf, sparseGet_sparseSet c.1 c.1 c.2 h, if_pos rfl]
      intro c'' hc'' heq
      exact hnd.1 (List.mem_map.mpr ⟨c'', hc'', heq⟩)
    · rw [sparseSetAll_cons]
      exact ih hnd.2 hmem hwf

end Sys2Proof.Machine
end

