-- ==== Sys2Proof/Laws/State.lean ====
section
/-! SUPPORT. One lemma per field per named update of the state. -/

namespace Sys2Proof.Machine

/-! ## `State.setTag` -/

@[simp] theorem State.setTag_ctrl (s : State) (p q : Nat) (t : Tag) :
    (s.setTag p q t).ctrl = s.ctrl := rfl
@[simp] theorem State.setTag_pvalid (s : State) (p q : Nat) (t : Tag) :
    (s.setTag p q t).pvalid = s.pvalid := rfl
@[simp] theorem State.setTag_irqStatus (s : State) (p q : Nat) (t : Tag) :
    (s.setTag p q t).irqStatus = s.irqStatus := rfl
@[simp] theorem State.setTag_irqEnable (s : State) (p q : Nat) (t : Tag) :
    (s.setTag p q t).irqEnable = s.irqEnable := rfl
@[simp] theorem State.setTag_errCode (s : State) (p q : Nat) (t : Tag) :
    (s.setTag p q t).errCode = s.errCode := rfl
@[simp] theorem State.setTag_errCmd (s : State) (p q : Nat) (t : Tag) :
    (s.setTag p q t).errCmd = s.errCmd := rfl
@[simp] theorem State.setTag_inW (s : State) (p q : Nat) (t : Tag) :
    (s.setTag p q t).inW = s.inW := rfl
@[simp] theorem State.setTag_inH (s : State) (p q : Nat) (t : Tag) :
    (s.setTag p q t).inH = s.inH := rfl
@[simp] theorem State.setTag_padW (s : State) (p q : Nat) (t : Tag) :
    (s.setTag p q t).padW = s.padW := rfl
@[simp] theorem State.setTag_padH (s : State) (p q : Nat) (t : Tag) :
    (s.setTag p q t).padH = s.padH := rfl
@[simp] theorem State.setTag_clampCnt (s : State) (p q : Nat) (t : Tag) :
    (s.setTag p q t).clampCnt = s.clampCnt := rfl
@[simp] theorem State.setTag_qtab (s : State) (p q : Nat) (t : Tag) :
    (s.setTag p q t).qtab = s.qtab := rfl
@[simp] theorem State.setTag_mem (s : State) (p q : Nat) (t : Tag) :
    (s.setTag p q t).mem = s.mem := rfl
@[simp] theorem State.setTag_tags (s : State) (p q : Nat) (t : Tag) :
    (s.setTag p q t).tags = sparseSet .empty s.tags (tagKey p q) t := rfl
@[simp] theorem State.setTag_phase (s : State) (p q : Nat) (t : Tag) :
    (s.setTag p q t).phase = s.phase := rfl
@[simp] theorem State.setTag_engCmd (s : State) (p q : Nat) (t : Tag) :
    (s.setTag p q t).engCmd = s.engCmd := rfl
@[simp] theorem State.setTag_engSnap (s : State) (p q : Nat) (t : Tag) :
    (s.setTag p q t).engSnap = s.engSnap := rfl
@[simp] theorem State.setTag_host (s : State) (p q : Nat) (t : Tag) :
    (s.setTag p q t).host = s.host := rfl
@[simp] theorem State.setTag_turns (s : State) (p q : Nat) (t : Tag) :
    (s.setTag p q t).turns = s.turns := rfl
@[simp] theorem State.setTag_response (s : State) (p q : Nat) (t : Tag) :
    (s.setTag p q t).response = s.response := rfl

/-! ## `State.clearTags` -/

@[simp] theorem State.clearTags_ctrl (s : State) :
    (s.clearTags).ctrl = s.ctrl := rfl
@[simp] theorem State.clearTags_pvalid (s : State) :
    (s.clearTags).pvalid = s.pvalid := rfl
@[simp] theorem State.clearTags_irqStatus (s : State) :
    (s.clearTags).irqStatus = s.irqStatus := rfl
@[simp] theorem State.clearTags_irqEnable (s : State) :
    (s.clearTags).irqEnable = s.irqEnable := rfl
@[simp] theorem State.clearTags_errCode (s : State) :
    (s.clearTags).errCode = s.errCode := rfl
@[simp] theorem State.clearTags_errCmd (s : State) :
    (s.clearTags).errCmd = s.errCmd := rfl
@[simp] theorem State.clearTags_inW (s : State) :
    (s.clearTags).inW = s.inW := rfl
@[simp] theorem State.clearTags_inH (s : State) :
    (s.clearTags).inH = s.inH := rfl
@[simp] theorem State.clearTags_padW (s : State) :
    (s.clearTags).padW = s.padW := rfl
@[simp] theorem State.clearTags_padH (s : State) :
    (s.clearTags).padH = s.padH := rfl
@[simp] theorem State.clearTags_clampCnt (s : State) :
    (s.clearTags).clampCnt = s.clampCnt := rfl
@[simp] theorem State.clearTags_qtab (s : State) :
    (s.clearTags).qtab = s.qtab := rfl
@[simp] theorem State.clearTags_mem (s : State) :
    (s.clearTags).mem = s.mem := rfl
@[simp] theorem State.clearTags_tags (s : State) :
    (s.clearTags).tags = [] := rfl
@[simp] theorem State.clearTags_phase (s : State) :
    (s.clearTags).phase = s.phase := rfl
@[simp] theorem State.clearTags_engCmd (s : State) :
    (s.clearTags).engCmd = s.engCmd := rfl
@[simp] theorem State.clearTags_engSnap (s : State) :
    (s.clearTags).engSnap = s.engSnap := rfl
@[simp] theorem State.clearTags_host (s : State) :
    (s.clearTags).host = s.host := rfl
@[simp] theorem State.clearTags_turns (s : State) :
    (s.clearTags).turns = s.turns := rfl
@[simp] theorem State.clearTags_response (s : State) :
    (s.clearTags).response = s.response := rfl

/-! ## `State.store` -/

@[simp] theorem State.store_ctrl (s : State) (cells : List Host.Cell) :
    (s.store cells).ctrl = s.ctrl := rfl
@[simp] theorem State.store_pvalid (s : State) (cells : List Host.Cell) :
    (s.store cells).pvalid = s.pvalid := rfl
@[simp] theorem State.store_irqStatus (s : State) (cells : List Host.Cell) :
    (s.store cells).irqStatus = s.irqStatus := rfl
@[simp] theorem State.store_irqEnable (s : State) (cells : List Host.Cell) :
    (s.store cells).irqEnable = s.irqEnable := rfl
@[simp] theorem State.store_errCode (s : State) (cells : List Host.Cell) :
    (s.store cells).errCode = s.errCode := rfl
@[simp] theorem State.store_errCmd (s : State) (cells : List Host.Cell) :
    (s.store cells).errCmd = s.errCmd := rfl
@[simp] theorem State.store_inW (s : State) (cells : List Host.Cell) :
    (s.store cells).inW = s.inW := rfl
@[simp] theorem State.store_inH (s : State) (cells : List Host.Cell) :
    (s.store cells).inH = s.inH := rfl
@[simp] theorem State.store_padW (s : State) (cells : List Host.Cell) :
    (s.store cells).padW = s.padW := rfl
@[simp] theorem State.store_padH (s : State) (cells : List Host.Cell) :
    (s.store cells).padH = s.padH := rfl
@[simp] theorem State.store_clampCnt (s : State) (cells : List Host.Cell) :
    (s.store cells).clampCnt = s.clampCnt := rfl
@[simp] theorem State.store_qtab (s : State) (cells : List Host.Cell) :
    (s.store cells).qtab = s.qtab := rfl
@[simp] theorem State.store_mem (s : State) (cells : List Host.Cell) :
    (s.store cells).mem = s.mem.store cells := rfl
@[simp] theorem State.store_tags (s : State) (cells : List Host.Cell) :
    (s.store cells).tags = s.tags := rfl
@[simp] theorem State.store_phase (s : State) (cells : List Host.Cell) :
    (s.store cells).phase = s.phase := rfl
@[simp] theorem State.store_engCmd (s : State) (cells : List Host.Cell) :
    (s.store cells).engCmd = s.engCmd := rfl
@[simp] theorem State.store_engSnap (s : State) (cells : List Host.Cell) :
    (s.store cells).engSnap = s.engSnap := rfl
@[simp] theorem State.store_host (s : State) (cells : List Host.Cell) :
    (s.store cells).host = s.host := rfl
@[simp] theorem State.store_turns (s : State) (cells : List Host.Cell) :
    (s.store cells).turns = s.turns := rfl
@[simp] theorem State.store_response (s : State) (cells : List Host.Cell) :
    (s.store cells).response = s.response := rfl

/-! ## `State.setCanvas` -/

@[simp] theorem State.setCanvas_ctrl (s : State) (pw ph : Nat) :
    (s.setCanvas pw ph).ctrl = s.ctrl := rfl
@[simp] theorem State.setCanvas_pvalid (s : State) (pw ph : Nat) :
    (s.setCanvas pw ph).pvalid = true := rfl
@[simp] theorem State.setCanvas_irqStatus (s : State) (pw ph : Nat) :
    (s.setCanvas pw ph).irqStatus = s.irqStatus := rfl
@[simp] theorem State.setCanvas_irqEnable (s : State) (pw ph : Nat) :
    (s.setCanvas pw ph).irqEnable = s.irqEnable := rfl
@[simp] theorem State.setCanvas_errCode (s : State) (pw ph : Nat) :
    (s.setCanvas pw ph).errCode = s.errCode := rfl
@[simp] theorem State.setCanvas_errCmd (s : State) (pw ph : Nat) :
    (s.setCanvas pw ph).errCmd = s.errCmd := rfl
@[simp] theorem State.setCanvas_inW (s : State) (pw ph : Nat) :
    (s.setCanvas pw ph).inW = s.inW := rfl
@[simp] theorem State.setCanvas_inH (s : State) (pw ph : Nat) :
    (s.setCanvas pw ph).inH = s.inH := rfl
@[simp] theorem State.setCanvas_padW (s : State) (pw ph : Nat) :
    (s.setCanvas pw ph).padW = BitVec.ofNat 32 pw := rfl
@[simp] theorem State.setCanvas_padH (s : State) (pw ph : Nat) :
    (s.setCanvas pw ph).padH = BitVec.ofNat 32 ph := rfl
@[simp] theorem State.setCanvas_clampCnt (s : State) (pw ph : Nat) :
    (s.setCanvas pw ph).clampCnt = s.clampCnt := rfl
@[simp] theorem State.setCanvas_qtab (s : State) (pw ph : Nat) :
    (s.setCanvas pw ph).qtab = s.qtab := rfl
@[simp] theorem State.setCanvas_mem (s : State) (pw ph : Nat) :
    (s.setCanvas pw ph).mem = s.mem := rfl
@[simp] theorem State.setCanvas_tags (s : State) (pw ph : Nat) :
    (s.setCanvas pw ph).tags = s.tags := rfl
@[simp] theorem State.setCanvas_phase (s : State) (pw ph : Nat) :
    (s.setCanvas pw ph).phase = s.phase := rfl
@[simp] theorem State.setCanvas_engCmd (s : State) (pw ph : Nat) :
    (s.setCanvas pw ph).engCmd = s.engCmd := rfl
@[simp] theorem State.setCanvas_engSnap (s : State) (pw ph : Nat) :
    (s.setCanvas pw ph).engSnap = s.engSnap := rfl
@[simp] theorem State.setCanvas_host (s : State) (pw ph : Nat) :
    (s.setCanvas pw ph).host = s.host := rfl
@[simp] theorem State.setCanvas_turns (s : State) (pw ph : Nat) :
    (s.setCanvas pw ph).turns = s.turns := rfl
@[simp] theorem State.setCanvas_response (s : State) (pw ph : Nat) :
    (s.setCanvas pw ph).response = s.response := rfl

/-! ## `State.respond` -/

@[simp] theorem State.respond_ctrl (s : State) (r : Response) :
    (s.respond r).ctrl = s.ctrl := rfl
@[simp] theorem State.respond_pvalid (s : State) (r : Response) :
    (s.respond r).pvalid = s.pvalid := rfl
@[simp] theorem State.respond_irqStatus (s : State) (r : Response) :
    (s.respond r).irqStatus = s.irqStatus := rfl
@[simp] theorem State.respond_irqEnable (s : State) (r : Response) :
    (s.respond r).irqEnable = s.irqEnable := rfl
@[simp] theorem State.respond_errCode (s : State) (r : Response) :
    (s.respond r).errCode = s.errCode := rfl
@[simp] theorem State.respond_errCmd (s : State) (r : Response) :
    (s.respond r).errCmd = s.errCmd := rfl
@[simp] theorem State.respond_inW (s : State) (r : Response) :
    (s.respond r).inW = s.inW := rfl
@[simp] theorem State.respond_inH (s : State) (r : Response) :
    (s.respond r).inH = s.inH := rfl
@[simp] theorem State.respond_padW (s : State) (r : Response) :
    (s.respond r).padW = s.padW := rfl
@[simp] theorem State.respond_padH (s : State) (r : Response) :
    (s.respond r).padH = s.padH := rfl
@[simp] theorem State.respond_clampCnt (s : State) (r : Response) :
    (s.respond r).clampCnt = s.clampCnt := rfl
@[simp] theorem State.respond_qtab (s : State) (r : Response) :
    (s.respond r).qtab = s.qtab := rfl
@[simp] theorem State.respond_mem (s : State) (r : Response) :
    (s.respond r).mem = s.mem := rfl
@[simp] theorem State.respond_tags (s : State) (r : Response) :
    (s.respond r).tags = s.tags := rfl
@[simp] theorem State.respond_phase (s : State) (r : Response) :
    (s.respond r).phase = s.phase := rfl
@[simp] theorem State.respond_engCmd (s : State) (r : Response) :
    (s.respond r).engCmd = s.engCmd := rfl
@[simp] theorem State.respond_engSnap (s : State) (r : Response) :
    (s.respond r).engSnap = s.engSnap := rfl
@[simp] theorem State.respond_host (s : State) (r : Response) :
    (s.respond r).host = s.host := rfl
@[simp] theorem State.respond_turns (s : State) (r : Response) :
    (s.respond r).turns = s.turns := rfl
@[simp] theorem State.respond_response (s : State) (r : Response) :
    (s.respond r).response = some r := rfl

/-! ## `State.clearIrq` -/

@[simp] theorem State.clearIrq_ctrl (s : State) (v : Word) :
    (s.clearIrq v).ctrl = s.ctrl := rfl
@[simp] theorem State.clearIrq_pvalid (s : State) (v : Word) :
    (s.clearIrq v).pvalid = s.pvalid := rfl
@[simp] theorem State.clearIrq_irqStatus (s : State) (v : Word) :
    (s.clearIrq v).irqStatus = s.irqStatus &&& ~~~v := rfl
@[simp] theorem State.clearIrq_irqEnable (s : State) (v : Word) :
    (s.clearIrq v).irqEnable = s.irqEnable := rfl
@[simp] theorem State.clearIrq_errCode (s : State) (v : Word) :
    (s.clearIrq v).errCode = s.errCode := rfl
@[simp] theorem State.clearIrq_errCmd (s : State) (v : Word) :
    (s.clearIrq v).errCmd = s.errCmd := rfl
@[simp] theorem State.clearIrq_inW (s : State) (v : Word) :
    (s.clearIrq v).inW = s.inW := rfl
@[simp] theorem State.clearIrq_inH (s : State) (v : Word) :
    (s.clearIrq v).inH = s.inH := rfl
@[simp] theorem State.clearIrq_padW (s : State) (v : Word) :
    (s.clearIrq v).padW = s.padW := rfl
@[simp] theorem State.clearIrq_padH (s : State) (v : Word) :
    (s.clearIrq v).padH = s.padH := rfl
@[simp] theorem State.clearIrq_clampCnt (s : State) (v : Word) :
    (s.clearIrq v).clampCnt = s.clampCnt := rfl
@[simp] theorem State.clearIrq_qtab (s : State) (v : Word) :
    (s.clearIrq v).qtab = s.qtab := rfl
@[simp] theorem State.clearIrq_mem (s : State) (v : Word) :
    (s.clearIrq v).mem = s.mem := rfl
@[simp] theorem State.clearIrq_tags (s : State) (v : Word) :
    (s.clearIrq v).tags = s.tags := rfl
@[simp] theorem State.clearIrq_phase (s : State) (v : Word) :
    (s.clearIrq v).phase = s.phase := rfl
@[simp] theorem State.clearIrq_engCmd (s : State) (v : Word) :
    (s.clearIrq v).engCmd = s.engCmd := rfl
@[simp] theorem State.clearIrq_engSnap (s : State) (v : Word) :
    (s.clearIrq v).engSnap = s.engSnap := rfl
@[simp] theorem State.clearIrq_host (s : State) (v : Word) :
    (s.clearIrq v).host = s.host := rfl
@[simp] theorem State.clearIrq_turns (s : State) (v : Word) :
    (s.clearIrq v).turns = s.turns := rfl
@[simp] theorem State.clearIrq_response (s : State) (v : Word) :
    (s.clearIrq v).response = s.response := rfl

/-! ## `State.accept` -/

@[simp] theorem State.accept_ctrl (s : State) (w : Word) :
    (s.accept w).ctrl = s.ctrl := rfl
@[simp] theorem State.accept_pvalid (s : State) (w : Word) :
    (s.accept w).pvalid = s.pvalid := rfl
@[simp] theorem State.accept_irqStatus (s : State) (w : Word) :
    (s.accept w).irqStatus = s.irqStatus := rfl
@[simp] theorem State.accept_irqEnable (s : State) (w : Word) :
    (s.accept w).irqEnable = s.irqEnable := rfl
@[simp] theorem State.accept_errCode (s : State) (w : Word) :
    (s.accept w).errCode = s.errCode := rfl
@[simp] theorem State.accept_errCmd (s : State) (w : Word) :
    (s.accept w).errCmd = s.errCmd := rfl
@[simp] theorem State.accept_inW (s : State) (w : Word) :
    (s.accept w).inW = s.inW := rfl
@[simp] theorem State.accept_inH (s : State) (w : Word) :
    (s.accept w).inH = s.inH := rfl
@[simp] theorem State.accept_padW (s : State) (w : Word) :
    (s.accept w).padW = s.padW := rfl
@[simp] theorem State.accept_padH (s : State) (w : Word) :
    (s.accept w).padH = s.padH := rfl
@[simp] theorem State.accept_clampCnt (s : State) (w : Word) :
    (s.accept w).clampCnt = s.clampCnt := rfl
@[simp] theorem State.accept_qtab (s : State) (w : Word) :
    (s.accept w).qtab = s.qtab := rfl
@[simp] theorem State.accept_mem (s : State) (w : Word) :
    (s.accept w).mem = s.mem := rfl
@[simp] theorem State.accept_tags (s : State) (w : Word) :
    (s.accept w).tags = s.tags := rfl
@[simp] theorem State.accept_phase (s : State) (w : Word) :
    (s.accept w).phase = .busy := rfl
@[simp] theorem State.accept_engCmd (s : State) (w : Word) :
    (s.accept w).engCmd = w := rfl
@[simp] theorem State.accept_engSnap (s : State) (w : Word) :
    (s.accept w).engSnap = ⟨s.ctrl, s.inW, s.inH, s.clampCnt⟩ := rfl
@[simp] theorem State.accept_host (s : State) (w : Word) :
    (s.accept w).host = s.host := rfl
@[simp] theorem State.accept_turns (s : State) (w : Word) :
    (s.accept w).turns = s.turns := rfl
@[simp] theorem State.accept_response (s : State) (w : Word) :
    (s.accept w).response = s.response := rfl

/-! ## `State.finish` -/

@[simp] theorem State.finish_ctrl (s : State) :
    (s.finish).ctrl = s.ctrl := rfl
@[simp] theorem State.finish_pvalid (s : State) :
    (s.finish).pvalid = s.pvalid := rfl
@[simp] theorem State.finish_irqStatus (s : State) :
    (s.finish).irqStatus = s.irqStatus ||| irqDone := rfl
@[simp] theorem State.finish_irqEnable (s : State) :
    (s.finish).irqEnable = s.irqEnable := rfl
@[simp] theorem State.finish_errCode (s : State) :
    (s.finish).errCode = s.errCode := rfl
@[simp] theorem State.finish_errCmd (s : State) :
    (s.finish).errCmd = s.errCmd := rfl
@[simp] theorem State.finish_inW (s : State) :
    (s.finish).inW = s.inW := rfl
@[simp] theorem State.finish_inH (s : State) :
    (s.finish).inH = s.inH := rfl
@[simp] theorem State.finish_padW (s : State) :
    (s.finish).padW = s.padW := rfl
@[simp] theorem State.finish_padH (s : State) :
    (s.finish).padH = s.padH := rfl
@[simp] theorem State.finish_clampCnt (s : State) :
    (s.finish).clampCnt = s.clampCnt := rfl
@[simp] theorem State.finish_qtab (s : State) :
    (s.finish).qtab = s.qtab := rfl
@[simp] theorem State.finish_mem (s : State) :
    (s.finish).mem = s.mem := rfl
@[simp] theorem State.finish_tags (s : State) :
    (s.finish).tags = s.tags := rfl
@[simp] theorem State.finish_phase (s : State) :
    (s.finish).phase = .idle := rfl
@[simp] theorem State.finish_engCmd (s : State) :
    (s.finish).engCmd = s.engCmd := rfl
@[simp] theorem State.finish_engSnap (s : State) :
    (s.finish).engSnap = s.engSnap := rfl
@[simp] theorem State.finish_host (s : State) :
    (s.finish).host = s.host := rfl
@[simp] theorem State.finish_turns (s : State) :
    (s.finish).turns = s.turns := rfl
@[simp] theorem State.finish_response (s : State) :
    (s.finish).response = s.response := rfl

/-! ## `State.reportClamps` -/

@[simp] theorem State.reportClamps_ctrl (s : State) (k : Nat) :
    (s.reportClamps k).ctrl = s.ctrl := rfl
@[simp] theorem State.reportClamps_pvalid (s : State) (k : Nat) :
    (s.reportClamps k).pvalid = s.pvalid := rfl
@[simp] theorem State.reportClamps_irqStatus (s : State) (k : Nat) :
    (s.reportClamps k).irqStatus = if 0 < k then s.irqStatus ||| irqClamp else s.irqStatus := rfl
@[simp] theorem State.reportClamps_irqEnable (s : State) (k : Nat) :
    (s.reportClamps k).irqEnable = s.irqEnable := rfl
@[simp] theorem State.reportClamps_errCode (s : State) (k : Nat) :
    (s.reportClamps k).errCode = s.errCode := rfl
@[simp] theorem State.reportClamps_errCmd (s : State) (k : Nat) :
    (s.reportClamps k).errCmd = s.errCmd := rfl
@[simp] theorem State.reportClamps_inW (s : State) (k : Nat) :
    (s.reportClamps k).inW = s.inW := rfl
@[simp] theorem State.reportClamps_inH (s : State) (k : Nat) :
    (s.reportClamps k).inH = s.inH := rfl
@[simp] theorem State.reportClamps_padW (s : State) (k : Nat) :
    (s.reportClamps k).padW = s.padW := rfl
@[simp] theorem State.reportClamps_padH (s : State) (k : Nat) :
    (s.reportClamps k).padH = s.padH := rfl
@[simp] theorem State.reportClamps_clampCnt (s : State) (k : Nat) :
    (s.reportClamps k).clampCnt = saturatingCount s.engSnap.clampCnt k := rfl
@[simp] theorem State.reportClamps_qtab (s : State) (k : Nat) :
    (s.reportClamps k).qtab = s.qtab := rfl
@[simp] theorem State.reportClamps_mem (s : State) (k : Nat) :
    (s.reportClamps k).mem = s.mem := rfl
@[simp] theorem State.reportClamps_tags (s : State) (k : Nat) :
    (s.reportClamps k).tags = s.tags := rfl
@[simp] theorem State.reportClamps_phase (s : State) (k : Nat) :
    (s.reportClamps k).phase = s.phase := rfl
@[simp] theorem State.reportClamps_engCmd (s : State) (k : Nat) :
    (s.reportClamps k).engCmd = s.engCmd := rfl
@[simp] theorem State.reportClamps_engSnap (s : State) (k : Nat) :
    (s.reportClamps k).engSnap = s.engSnap := rfl
@[simp] theorem State.reportClamps_host (s : State) (k : Nat) :
    (s.reportClamps k).host = s.host := rfl
@[simp] theorem State.reportClamps_turns (s : State) (k : Nat) :
    (s.reportClamps k).turns = s.turns := rfl
@[simp] theorem State.reportClamps_response (s : State) (k : Nat) :
    (s.reportClamps k).response = s.response := rfl

/-! ## `State.raise`: only the error capture registers and two bits of IRQ_STATUS change (60_exceptions.md R148) -/

@[simp] theorem State.raise_ctrl (s : State) (e : CmdError) (w : Word) : (s.raise e w).ctrl = s.ctrl := by
  unfold State.raise
  split <;> rfl
@[simp] theorem State.raise_pvalid (s : State) (e : CmdError) (w : Word) : (s.raise e w).pvalid = s.pvalid := by
  unfold State.raise
  split <;> rfl
@[simp] theorem State.raise_irqEnable (s : State) (e : CmdError) (w : Word) : (s.raise e w).irqEnable = s.irqEnable := by
  unfold State.raise
  split <;> rfl
@[simp] theorem State.raise_inW (s : State) (e : CmdError) (w : Word) : (s.raise e w).inW = s.inW := by
  unfold State.raise
  split <;> rfl
@[simp] theorem State.raise_inH (s : State) (e : CmdError) (w : Word) : (s.raise e w).inH = s.inH := by
  unfold State.raise
  split <;> rfl
@[simp] theorem State.raise_padW (s : State) (e : CmdError) (w : Word) : (s.raise e w).padW = s.padW := by
  unfold State.raise
  split <;> rfl
@[simp] theorem State.raise_padH (s : State) (e : CmdError) (w : Word) : (s.raise e w).padH = s.padH := by
  unfold State.raise
  split <;> rfl
@[simp] theorem State.raise_clampCnt (s : State) (e : CmdError) (w : Word) : (s.raise e w).clampCnt = s.clampCnt := by
  unfold State.raise
  split <;> rfl
@[simp] theorem State.raise_qtab (s : State) (e : CmdError) (w : Word) : (s.raise e w).qtab = s.qtab := by
  unfold State.raise
  split <;> rfl
@[simp] theorem State.raise_mem (s : State) (e : CmdError) (w : Word) : (s.raise e w).mem = s.mem := by
  unfold State.raise
  split <;> rfl
@[simp] theorem State.raise_tags (s : State) (e : CmdError) (w : Word) : (s.raise e w).tags = s.tags := by
  unfold State.raise
  split <;> rfl
@[simp] theorem State.raise_phase (s : State) (e : CmdError) (w : Word) : (s.raise e w).phase = s.phase := by
  unfold State.raise
  split <;> rfl
@[simp] theorem State.raise_engCmd (s : State) (e : CmdError) (w : Word) : (s.raise e w).engCmd = s.engCmd := by
  unfold State.raise
  split <;> rfl
@[simp] theorem State.raise_engSnap (s : State) (e : CmdError) (w : Word) : (s.raise e w).engSnap = s.engSnap := by
  unfold State.raise
  split <;> rfl
@[simp] theorem State.raise_host (s : State) (e : CmdError) (w : Word) : (s.raise e w).host = s.host := by
  unfold State.raise
  split <;> rfl
@[simp] theorem State.raise_turns (s : State) (e : CmdError) (w : Word) : (s.raise e w).turns = s.turns := by
  unfold State.raise
  split <;> rfl
@[simp] theorem State.raise_response (s : State) (e : CmdError) (w : Word) : (s.raise e w).response = s.response := by
  unfold State.raise
  split <;> rfl

/-- The first error: captured, and ERR is set. -/
theorem State.raise_first (s : State) (e : CmdError) (w : Word) (h : s.irqStatus &&& irqErr = 0) :
    s.raise e w = { s with errCode := e.code, errCmd := w, irqStatus := s.irqStatus ||| irqErr } := by
  simp [State.raise, h]

/-- A further error: only OVERRUN is set. -/
theorem State.raise_overrun (s : State) (e : CmdError) (w : Word) (h : s.irqStatus &&& irqErr ≠ 0) :
    s.raise e w = { s with irqStatus := s.irqStatus ||| irqOverrun } := if_neg h

/-! ## What the commands read, across the updates -/

@[simp] theorem State.setTag_pw (s : State) (p q : Nat) (t : Tag) : (s.setTag p q t).pw = s.pw := rfl
@[simp] theorem State.setTag_ph (s : State) (p q : Nat) (t : Tag) : (s.setTag p q t).ph = s.ph := rfl
@[simp] theorem State.setTag_grid (s : State) (p q : Nat) (t : Tag) : (s.setTag p q t).grid = s.grid := rfl
@[simp] theorem State.setTag_step64 (s : State) (p q : Nat) (t : Tag) : (s.setTag p q t).step64 = s.step64 := rfl
@[simp] theorem State.clearTags_pw (s : State) : (s.clearTags).pw = s.pw := rfl
@[simp] theorem State.clearTags_ph (s : State) : (s.clearTags).ph = s.ph := rfl
@[simp] theorem State.clearTags_grid (s : State) : (s.clearTags).grid = s.grid := rfl
@[simp] theorem State.clearTags_step64 (s : State) : (s.clearTags).step64 = s.step64 := rfl
@[simp] theorem State.store_pw (s : State) (cells : List Host.Cell) : (s.store cells).pw = s.pw := rfl
@[simp] theorem State.store_ph (s : State) (cells : List Host.Cell) : (s.store cells).ph = s.ph := rfl
@[simp] theorem State.store_grid (s : State) (cells : List Host.Cell) : (s.store cells).grid = s.grid := rfl
@[simp] theorem State.store_step64 (s : State) (cells : List Host.Cell) : (s.store cells).step64 = s.step64 := rfl
@[simp] theorem State.store_tag (s : State) (cells : List Host.Cell) (i j : Nat) : (s.store cells).tag i j = s.tag i j := rfl
@[simp] theorem State.setCanvas_step64 (s : State) (pw ph : Nat) : (s.setCanvas pw ph).step64 = s.step64 := rfl
@[simp] theorem State.setCanvas_tag (s : State) (pw ph : Nat) (i j : Nat) : (s.setCanvas pw ph).tag i j = s.tag i j := rfl
@[simp] theorem State.respond_pw (s : State) (r : Response) : (s.respond r).pw = s.pw := rfl
@[simp] theorem State.respond_ph (s : State) (r : Response) : (s.respond r).ph = s.ph := rfl
@[simp] theorem State.respond_grid (s : State) (r : Response) : (s.respond r).grid = s.grid := rfl
@[simp] theorem State.respond_step64 (s : State) (r : Response) : (s.respond r).step64 = s.step64 := rfl
@[simp] theorem State.respond_tag (s : State) (r : Response) (i j : Nat) : (s.respond r).tag i j = s.tag i j := rfl
@[simp] theorem State.clearIrq_pw (s : State) (v : Word) : (s.clearIrq v).pw = s.pw := rfl
@[simp] theorem State.clearIrq_ph (s : State) (v : Word) : (s.clearIrq v).ph = s.ph := rfl
@[simp] theorem State.clearIrq_grid (s : State) (v : Word) : (s.clearIrq v).grid = s.grid := rfl
@[simp] theorem State.clearIrq_step64 (s : State) (v : Word) : (s.clearIrq v).step64 = s.step64 := rfl
@[simp] theorem State.clearIrq_tag (s : State) (v : Word) (i j : Nat) : (s.clearIrq v).tag i j = s.tag i j := rfl
@[simp] theorem State.accept_pw (s : State) (w : Word) : (s.accept w).pw = s.pw := rfl
@[simp] theorem State.accept_ph (s : State) (w : Word) : (s.accept w).ph = s.ph := rfl
@[simp] theorem State.accept_grid (s : State) (w : Word) : (s.accept w).grid = s.grid := rfl
@[simp] theorem State.accept_tag (s : State) (w : Word) (i j : Nat) : (s.accept w).tag i j = s.tag i j := rfl
@[simp] theorem State.finish_pw (s : State) : (s.finish).pw = s.pw := rfl
@[simp] theorem State.finish_ph (s : State) : (s.finish).ph = s.ph := rfl
@[simp] theorem State.finish_grid (s : State) : (s.finish).grid = s.grid := rfl
@[simp] theorem State.finish_step64 (s : State) : (s.finish).step64 = s.step64 := rfl
@[simp] theorem State.finish_tag (s : State) (i j : Nat) : (s.finish).tag i j = s.tag i j := rfl
@[simp] theorem State.reportClamps_pw (s : State) (k : Nat) : (s.reportClamps k).pw = s.pw := rfl
@[simp] theorem State.reportClamps_ph (s : State) (k : Nat) : (s.reportClamps k).ph = s.ph := rfl
@[simp] theorem State.reportClamps_grid (s : State) (k : Nat) : (s.reportClamps k).grid = s.grid := rfl
@[simp] theorem State.reportClamps_step64 (s : State) (k : Nat) : (s.reportClamps k).step64 = s.step64 := rfl
@[simp] theorem State.reportClamps_tag (s : State) (k : Nat) (i j : Nat) : (s.reportClamps k).tag i j = s.tag i j := rfl

end Sys2Proof.Machine
end

