-- ==== Sys2Proof/Laws/Memory.lean ====
section
/-! SUPPORT. The laws of the buffer memory: bytes, little-endian numbers, samples, coefficients and the regions the
commands store. -/

namespace Sys2Proof.Machine

/-! ## Bytes -/

/-- Storing keeps the canonical form. -/
theorem Memory.store_wf {m : Memory} (h : m.wf = true) (cells : List Host.Cell) : (m.store cells).wf = true :=
  sparseSetAll_wf cells h

/-- A byte outside the stored cells reads as before. -/
theorem Memory.readByte_store_frame {m : Memory} (h : m.wf = true) {cells : List Host.Cell} {a : Nat}
    (ha : ∀ c ∈ cells, c.1 ≠ a) : (m.store cells).readByte a = m.readByte a :=
  sparseGet_setAll_frame cells a ha h

/-- A stored byte reads as stored, where the cells name each address once. -/
theorem Memory.readByte_store_mem {m : Memory} (h : m.wf = true) {cells : List Host.Cell}
    (hnd : (cells.map Prod.fst).Nodup) {c : Host.Cell} (hc : c ∈ cells) : (m.store cells).readByte c.1 = c.2 :=
  sparseGet_setAll_mem cells hnd c hc h

/-- Canonical memories that read alike at every address are equal. -/
theorem Memory.ext_readByte {m n : Memory} (hm : m.wf = true) (hn : n.wf = true)
    (h : ∀ a, m.readByte a = n.readByte a) : m = n := sparse_ext hm hn h

/-- The image a reset leaves is in canonical form. -/
theorem Memory.ofImage_wf (image : List Host.Cell) : (Memory.ofImage image).wf = true := Memory.store_wf rfl _

/-! ## Little-endian numbers -/

/-- A number is read from its own bytes only. -/
theorem Memory.readLe_congr {m m' : Memory} :
    ∀ {n a : Nat}, (∀ k < n, m.readByte (a + k) = m'.readByte (a + k)) → m.readLe a n = m'.readLe a n
  | 0, _, _ => rfl
  | n + 1, a, h => by
    have h0 : m.readByte a = m'.readByte a := h 0 (by omega)
    have ih : m.readLe (a + 1) n = m'.readLe (a + 1) n :=
      Memory.readLe_congr fun k hk => by
        have := h (k + 1) (by omega)
        rwa [show a + 1 + k = a + (k + 1) by omega]
    rw [Memory.readLe, Memory.readLe, h0, ih]

/-- The cells of a number: byte k holds `v / 256^k`. -/
theorem mem_leCells {c : Host.Cell} :
    ∀ {n a v : Nat}, c ∈ leCells a n v ↔ ∃ k < n, c = (a + k, BitVec.ofNat 8 (v / 256 ^ k))
  | 0, a, v => by simp [leCells]
  | n + 1, a, v => by
    rw [leCells, List.mem_cons, mem_leCells]
    constructor
    · rintro (rfl | ⟨k, hk, rfl⟩)
      · exact ⟨0, by omega, by simp⟩
      · exact ⟨k + 1, by omega, by
          rw [Nat.div_div_eq_div_mul, ← Nat.pow_succ', show a + 1 + k = a + (k + 1) by omega]⟩
    · rintro ⟨k, hk, rfl⟩
      cases k with
      | zero => left; simp
      | succ k =>
        right
        exact ⟨k, by omega, by
          rw [Nat.div_div_eq_div_mul, ← Nat.pow_succ', show a + 1 + k = a + (k + 1) by omega]⟩

/-- The addresses of a number's cells are `a .. a + n - 1`. -/
theorem leCells_keys : ∀ (n a v : Nat), (leCells a n v).map Prod.fst = List.range' a n
  | 0, _, _ => rfl
  | n + 1, a, v => by rw [leCells, List.map_cons, leCells_keys n, List.range'_succ]

/-- A memory whose bytes are a number's cells reads as that number, cut to its bytes. -/
theorem Memory.readLe_of_bytes {m : Memory} :
    ∀ {n a v : Nat}, (∀ k < n, m.readByte (a + k) = BitVec.ofNat 8 (v / 256 ^ k)) → m.readLe a n = v % 256 ^ n
  | 0, _, v, _ => by simp [Memory.readLe, Nat.mod_one]
  | n + 1, a, v, h => by
    have h0 := h 0 (by omega)
    have ih : m.readLe (a + 1) n = v / 256 % 256 ^ n :=
      Memory.readLe_of_bytes fun k hk => by
        have := h (k + 1) (by omega)
        rwa [Nat.pow_succ', ← Nat.div_div_eq_div_mul, show a + (k + 1) = a + 1 + k by omega] at this
    rw [Memory.readLe, ih]
    rw [Nat.add_zero, Nat.pow_zero, Nat.div_one] at h0
    have hv : v % 256 ^ (n + 1) = v % 256 + 256 * (v / 256 % 256 ^ n) := by rw [Nat.pow_succ', Nat.mod_mul]
    rw [h0, BitVec.toNat_ofNat, hv]

/-- A number stored whole reads back, cut to its bytes. -/
theorem Memory.readLe_store_leCells {m : Memory} (h : m.wf = true) (a n v : Nat) :
    (m.store (leCells a n v)).readLe a n = v % 256 ^ n :=
  Memory.readLe_of_bytes fun k hk => by
    have hnd : ((leCells a n v).map Prod.fst).Nodup := by rw [leCells_keys]; exact List.nodup_range'
    exact Memory.readByte_store_mem h hnd (c := (a + k, BitVec.ofNat 8 (v / 256 ^ k))) (mem_leCells.mpr ⟨k, hk, rfl⟩)

/-! ## Addresses -/

/-- Within the row stride, an element's address tells its row and column. -/
theorem sampleAddr_inj {b : SampleBuf} {r c r' c' : Nat} (hc : c < 1024) (hc' : c' < 1024)
    (h : sampleAddr b r c = sampleAddr b r' c') : r = r' ∧ c = c' := by
  simp only [sampleAddr, Config.stride] at h
  omega

/-- Samples of buffers within their windows: distinct buffers have distinct addresses. -/
theorem sampleAddr_window {b : SampleBuf} {r c : Nat} (hr : r < 1024) (hc : c < 1024) :
    b.base ≤ sampleAddr b r c ∧ sampleAddr b r c < b.base + 0x100000 := by
  simp only [sampleAddr, Config.stride]
  omega

/-- Within the row stride, a byte of a coefficient tells its row, column and place. -/
theorem coefAddr_inj {r c k r' c' k' : Nat} (hc : c < 1024) (hc' : c' < 1024) (hk : k < 8) (hk' : k' < 8)
    (h : coefAddr r c + k = coefAddr r' c' + k') : r = r' ∧ c = c' ∧ k = k' := by
  simp only [coefAddr, Config.stride, coefBase] at h
  omega

/-- A byte of a coefficient within its block tells its local coordinates and place, whatever the block. -/
theorem coefAddr_block_inj {p q x y k x' y' k' : Nat} (hy : y < 8) (hk : k < 8) (hy' : y' < 8)
    (hk' : k' < 8) (h : coefAddr (8 * p + x) (8 * q + y) + k = coefAddr (8 * p + x') (8 * q + y') + k') :
    x = x' ∧ y = y' ∧ k = k' := by
  simp only [coefAddr, Config.stride, coefBase] at h
  omega

/-- Every coefficient lies at or above the base of its window. -/
theorem coefAddr_ge (r c : Nat) : 0x800000 ≤ coefAddr r c := by
  simp only [coefAddr, coefBase]
  omega

/-- A sample within its window lies below the coefficients. -/
theorem sampleAddr_lt_coef {b : SampleBuf} {r c : Nat} (hr : r < 1024) (hc : c < 1024) (r' c' k : Nat) :
    sampleAddr b r c < coefAddr r' c' + k := by
  have h1 := (sampleAddr_window (b := b) hr hc).2
  have h2 := coefAddr_ge r' c'
  have h3 : b.base ≤ 0x300000 := by cases b <;> simp [SampleBuf.base]
  omega

/-! ## The canvas region of a sample buffer -/

theorem mem_sampleRegion {b : SampleBuf} {h w : Nat} {f : Nat → Nat → Byte} {e : Host.Cell} :
    e ∈ sampleRegion b h w f ↔ ∃ r < h, ∃ c < w, e = (sampleAddr b r c, f r c) := by
  simp only [sampleRegion, List.mem_flatMap, List.mem_map, List.mem_range]
  constructor
  · rintro ⟨r, hr, c, hc, rfl⟩; exact ⟨r, hr, c, hc, rfl⟩
  · rintro ⟨r, hr, c, hc, rfl⟩; exact ⟨r, hr, c, hc, rfl⟩

/-- A region no wider than the stride names each address once. -/
theorem sampleRegion_keys_nodup {b : SampleBuf} {h w : Nat} {f : Nat → Nat → Byte} (hw : w ≤ 1024) :
    ((sampleRegion b h w f).map Prod.fst).Nodup := by
  simp only [sampleRegion, List.map_flatMap, List.map_map]
  refine List.nodup_flatMap.mpr ⟨fun r _ => ?_, ?_⟩
  · refine List.Nodup.map_on ?_ List.nodup_range
    intro c hc c' hc' heq
    exact (sampleAddr_inj (by have := List.mem_range.mp hc; omega) (by have := List.mem_range.mp hc'; omega) heq).2
  · refine List.Pairwise.imp_of_mem ?_ (List.nodup_range (n := h))
    intro r r' _ _ hne a ha ha'
    obtain ⟨c, hc, rfl⟩ := List.mem_map.mp ha
    obtain ⟨c', hc', heq⟩ := List.mem_map.mp ha'
    exact hne (sampleAddr_inj (by have := List.mem_range.mp hc; omega) (by have := List.mem_range.mp hc'; omega)
      heq.symm).1

/-- A stored region's element reads as stored. -/
theorem Memory.sample_store_region {m : Memory} (hm : m.wf = true) {b : SampleBuf} {h w r c : Nat}
    {f : Nat → Nat → Byte} (hw : w ≤ 1024) (hr : r < h) (hc : c < w) :
    (m.store (sampleRegion b h w f)).sample b r c = f r c :=
  Memory.readByte_store_mem hm (sampleRegion_keys_nodup hw) (c := (sampleAddr b r c, f r c))
    (mem_sampleRegion.mpr ⟨r, hr, c, hc, rfl⟩)

/-- Every byte outside a stored region reads as before. -/
theorem Memory.readByte_store_region_frame {m : Memory} (hm : m.wf = true) {b : SampleBuf} {h w a : Nat}
    {f : Nat → Nat → Byte} (ha : ∀ r < h, ∀ c < w, a ≠ sampleAddr b r c) :
    (m.store (sampleRegion b h w f)).readByte a = m.readByte a :=
  Memory.readByte_store_frame hm fun e he heq => by
    obtain ⟨r, hr, c, hc, rfl⟩ := mem_sampleRegion.mp he
    exact ha r hr c hc heq.symm

/-! ## The coefficients of a block -/

theorem mem_coefBlockCells {p q : Nat} {f : Nat → Nat → F64} {e : Host.Cell} :
    e ∈ coefBlockCells p q f ↔ ∃ x < 8, ∃ y < 8, ∃ k < 8,
      e = (coefAddr (8 * p + x) (8 * q + y) + k, BitVec.ofNat 8 ((f x y).toNat / 256 ^ k)) := by
  simp only [coefBlockCells, Config.blk, List.mem_flatMap, List.mem_range, mem_leCells]

/-- A block's cells name each address once. -/
theorem coefBlockCells_keys_nodup (p q : Nat) (f : Nat → Nat → F64) :
    ((coefBlockCells p q f).map Prod.fst).Nodup := by
  simp only [coefBlockCells, Config.blk, List.map_flatMap, leCells_keys]
  refine List.nodup_flatMap.mpr ⟨fun x hx => List.nodup_flatMap.mpr ⟨fun y _ => List.nodup_range', ?_⟩, ?_⟩
  · refine List.Pairwise.imp_of_mem ?_ (List.nodup_range (n := 8))
    intro y y' hy hy' hne a ha ha'
    have hy := List.mem_range.mp hy
    have hy' := List.mem_range.mp hy'
    simp only [List.mem_range'_1] at ha ha'
    exact hne (coefAddr_block_inj (p := p) (q := q) (x := x) (x' := x) (k := a - coefAddr (8 * p + x) (8 * q + y))
      (k' := a - coefAddr (8 * p + x) (8 * q + y')) hy (by omega) hy' (by omega) (by omega)).2.1
  · refine List.Pairwise.imp_of_mem ?_ (List.nodup_range (n := 8))
    intro x x' hx hx' hne a ha ha'
    obtain ⟨y, hy, ha⟩ := List.mem_flatMap.mp ha
    obtain ⟨y', hy', ha'⟩ := List.mem_flatMap.mp ha'
    have hy := List.mem_range.mp hy
    have hy' := List.mem_range.mp hy'
    simp only [List.mem_range'_1] at ha ha'
    exact hne (coefAddr_block_inj (p := p) (q := q) (x := x) (x' := x') (k := a - coefAddr (8 * p + x) (8 * q + y))
      (k' := a - coefAddr (8 * p + x') (8 * q + y')) hy (by omega) hy' (by omega) (by omega)).1

/-- A stored block's coefficient reads as stored. -/
theorem Memory.coef_store_block {m : Memory} (hm : m.wf = true) (p q : Nat) {f : Nat → Nat → F64} {x y : Nat}
    (hx : x < 8) (hy : y < 8) : (m.store (coefBlockCells p q f)).coef (8 * p + x) (8 * q + y) = f x y := by
  have h := Memory.readLe_of_bytes (m := m.store (coefBlockCells p q f)) (n := 8)
    (a := coefAddr (8 * p + x) (8 * q + y)) (v := (f x y).toNat) fun k hk =>
      Memory.readByte_store_mem hm (coefBlockCells_keys_nodup p q f)
        (c := (coefAddr (8 * p + x) (8 * q + y) + k, BitVec.ofNat 8 ((f x y).toNat / 256 ^ k)))
        (mem_coefBlockCells.mpr ⟨x, hx, y, hy, k, hk, rfl⟩)
  rw [Memory.coef, h, Nat.mod_eq_of_lt (by have := (f x y).isLt; omega), BitVec.ofNat_toNat, BitVec.setWidth_eq]

/-- Every byte outside a stored block reads as before. -/
theorem Memory.readByte_store_block_frame {m : Memory} (hm : m.wf = true) {p q a : Nat} {f : Nat → Nat → F64}
    (ha : ∀ x < 8, ∀ y < 8, ∀ k < 8, a ≠ coefAddr (8 * p + x) (8 * q + y) + k) :
    (m.store (coefBlockCells p q f)).readByte a = m.readByte a :=
  Memory.readByte_store_frame hm fun e he heq => by
    obtain ⟨x, hx, y, hy, k, hk, rfl⟩ := mem_coefBlockCells.mp he
    exact ha x hx y hy k hk heq.symm

/-- A coefficient of another block reads as before. -/
theorem Memory.coef_store_block_other {m : Memory} (hm : m.wf = true) {p q r c : Nat} {f : Nat → Nat → F64}
    (hq : 8 * q + 8 ≤ 1024) (hc : c < 1024) (hne : r / 8 ≠ p ∨ c / 8 ≠ q) :
    (m.store (coefBlockCells p q f)).coef r c = m.coef r c := by
  rw [Memory.coef, Memory.coef, Memory.readLe_congr]
  intro k hk
  refine Memory.readByte_store_block_frame hm fun x hx y hy k' hk' heq => ?_
  have := coefAddr_inj hc (by omega) hk hk' heq
  omega

/-- A sample within its window reads as before a block of coefficients is stored. -/
theorem Memory.sample_store_block {m : Memory} (hm : m.wf = true) {b : SampleBuf} {p q r c : Nat}
    {f : Nat → Nat → F64} (hr : r < 1024) (hc : c < 1024) :
    (m.store (coefBlockCells p q f)).sample b r c = m.sample b r c :=
  Memory.readByte_store_block_frame hm fun x _ y _ k _ heq => by
    have := sampleAddr_lt_coef (b := b) hr hc (8 * p + x) (8 * q + y) k
    omega

end Sys2Proof.Machine
end

