-- ==== Sys2Proof/Laws/Commands.lean ====
section
/-! SUPPORT. The laws of the commands: the two halves of `exec`, the snapshots of a block, what one block's transform
changes, and that a pass over the grid changes buffers and tags only. -/

namespace Sys2Proof.Machine

/-! ## The two halves of `exec` -/

/-- A rejected command: the first error is captured, nothing else (43_scheduler.md R120). -/
theorem exec_rejected {i : Instr} {s : State} {e : CmdError} (hs : s.phase = .idle) (hc : commandCheck i s = some e) :
    exec i s = .next (s.raise e (encode i)) := by
  cases i <;> simp only [commandCheck] at hc <;>
    simp [exec, execNop, execPad, execFwd, execInv, execReasm, execRun, execFwdb, execInvb, State.lifecycle, hs, hc]
  cases hc

/-- An accepted command (43_scheduler.md R120). -/
theorem exec_accepted {i : Instr} {s : State} (hs : s.phase = .idle) (hc : commandCheck i s = none) :
    exec i s = .next (s.accept (encode i)) := by
  cases i <;> simp only [commandCheck] at hc <;>
    simp [exec, execNop, execPad, execFwd, execInv, execReasm, execRun, execFwdb, execInvb, State.lifecycle, hs, hc]

/-- A completion (43_scheduler.md R122). -/
theorem exec_completes {i : Instr} {s : State} (hs : s.phase = .busy) :
    exec i s = .next (commandEffect i s).finish := by
  cases i <;>
    simp [exec, execNop, execPad, execFwd, execInv, execReasm, execRun, execFwdb, execInvb, State.lifecycle, hs,
      commandEffect]

/-- Everything `exec` can do: reject, accept or complete. -/
theorem exec_cases (i : Instr) (s : State) :
    (∃ e, s.phase = .idle ∧ commandCheck i s = some e ∧ exec i s = .next (s.raise e (encode i))) ∨
      (s.phase = .idle ∧ commandCheck i s = none ∧ exec i s = .next (s.accept (encode i))) ∨
      (s.phase = .busy ∧ exec i s = .next (commandEffect i s).finish) := by
  cases hs : s.phase with
  | idle =>
    cases hc : commandCheck i s with
    | some e => exact .inl ⟨e, rfl, rfl, exec_rejected hs hc⟩
    | none => exact .inr (.inl ⟨rfl, rfl, exec_accepted hs hc⟩)
  | busy => exact .inr (.inr ⟨rfl, exec_completes hs⟩)

/-! ## The grid -/

theorem State.mem_grid {s : State} {b : Nat × Nat} : b ∈ s.grid ↔ b.1 < s.ph / 8 ∧ b.2 < s.pw / 8 := by
  obtain ⟨p, q⟩ := b
  simp [State.grid, Config.blk, List.mem_flatMap, List.mem_map, List.mem_range]

/-- The grid lists each block once. -/
theorem State.grid_nodup (s : State) : s.grid.Nodup := by
  refine List.nodup_flatMap.mpr ⟨fun p _ => ?_, ?_⟩
  · exact List.Nodup.map (fun q q' h => (Prod.mk.inj h).2) List.nodup_range
  · refine List.Pairwise.imp_of_mem ?_ (List.nodup_range (n := s.ph / Config.blk))
    intro p p' _ _ hne b hb hb'
    obtain ⟨q, _, rfl⟩ := List.mem_map.mp hb
    obtain ⟨q', _, h⟩ := List.mem_map.mp hb'
    exact hne (Prod.mk.inj h).1.symm

/-- The tag check of INV and REASM, over block indices. -/
theorem State.gridHasTag_iff {s : State} {t : Tag} :
    s.gridHasTag t = true ↔ ∀ p q, p < s.ph / 8 → q < s.pw / 8 → s.tag p q = t := by
  simp only [State.gridHasTag, List.all_eq_true, State.mem_grid, beq_iff_eq]
  exact ⟨fun h p q hp hq => h (p, q) ⟨hp, hq⟩, fun h b hb => h b.1 b.2 hb.1 hb.2⟩

theorem State.inGrid_iff {s : State} {p q : Nat} : s.inGrid p q = true ↔ 8 * p < s.ph ∧ 8 * q < s.pw := by
  simp [State.inGrid, Config.blk]

/-! ## Tags -/

/-- `TAG[p][q] <- t`: that tag changes and no other (10_state.md R45). -/
theorem State.tag_setTag {s : State} (h : TagMap.wf s.tags = true) (p q : Nat) (t : Tag) {p' q' : Nat} (hq : q < 1024)
    (hq' : q' < 1024) : (s.setTag p q t).tag p' q' = if p' = p ∧ q' = q then t else s.tag p' q' := by
  have := sparseGet_sparseSet (d := Tag.empty) (tagKey p q) (tagKey p' q') t h
  simp only [State.tag, State.setTag_tags, this]
  have : tagKey p' q' = tagKey p q ↔ p' = p ∧ q' = q := by simp only [tagKey]; omega
  simp [this]

/-- Setting a tag keeps the canonical form. -/
theorem State.setTag_wf {s : State} (h : TagMap.wf s.tags = true) (p q : Nat) (t : Tag) :
    TagMap.wf (s.setTag p q t).tags = true := sparseSet_wfFrom (tagKey p q) t h (Nat.zero_le _)

@[simp] theorem State.clearTags_tag (s : State) (p q : Nat) : s.clearTags.tag p q = .empty := rfl

/-! ## Snapshots -/

/-- An element of a snapshot is the element it copied. -/
theorem snapshotAt_snapshot (f : Nat → Nat → F64) {a b : Nat} (ha : a < 8) (hb : b < 8) :
    snapshotAt (snapshot f) a b = f a b := by
  have h : 8 * a + b < 64 := by omega
  simp [snapshotAt, snapshot, List.getD, h, show (8 * a + b) / 8 = a by omega, show (8 * a + b) % 8 = b by omega]

/-- The sum reads its 64 terms only. -/
theorem sum64_congr {f g : Nat → Nat → F64} (h : ∀ u < 8, ∀ v < 8, f u v = g u v) : sum64 f = sum64 g := by
  unfold sum64
  refine List.foldl_ext _ _ _ fun acc u hu => List.foldl_ext _ _ _ fun acc v hv => ?_
  rw [h u (List.mem_range.mp hu) v (List.mem_range.mp hv)]

/-- FDCT's value, without the snapshot (41_forward_quantize.md R93). -/
theorem State.fdctValue_eq (s : State) (p q x y : Nat) :
    s.fdctValue p q x y = fdctElement (s.blockSample p q) s.step64 x y := by
  simp only [State.fdctValue, fdctElement]
  rw [sum64_congr fun u hu v hv => ?_]
  simp only [fdctTerm, snapshotAt_snapshot _ hu hv]

/-- IDCT's value, without the snapshot (42_inverse_dequantize.md R105 to R107). -/
theorem State.idctValue_eq (s : State) (p q i j : Nat) :
    s.idctValue p q i j =
      idctElement (invSelect (ctrlStdOrder s.engSnap.ctrl) (s.blockCoef p q)) s.step64 i j := by
  simp only [State.idctValue, idctElement]
  rw [sum64_congr fun u hu v hv => ?_]
  simp only [idctTerm, invSelect]
  split
  · rw [snapshotAt_snapshot _ hu hv]
  · rw [snapshotAt_snapshot _ hv hu]

/-! ## One block -/

/-- A store and a tag change buffers and tags only. -/
theorem State.store_setTag (s : State) (cells : List Host.Cell) (p q : Nat) (t : Tag) :
    (s.store cells).setTag p q t =
      { s with mem := s.mem.store cells, tags := sparseSet .empty s.tags (tagKey p q) t } := rfl

theorem forwardBlock_eq (p q : Nat) (s : State) :
    forwardBlock p q s =
      { s with mem := s.mem.store (coefBlockCells p q (s.fdctValue p q)),
               tags := sparseSet .empty s.tags (tagKey p q) .qcoef } := by
  rw [forwardBlock, State.store_setTag, fdctCells]

theorem inverseBlock_eq (p q : Nat) (s : State) :
    inverseBlock p q s =
      { s with mem := s.mem.store (coefBlockCells p q (s.idctValue p q)),
               tags := sparseSet .empty s.tags (tagKey p q) .recon } := by
  rw [inverseBlock, State.store_setTag, idctCells]

/-- FDCT of a block changes buffers and tags only. -/
theorem forwardBlock_frame (p q : Nat) (s : State) :
    forwardBlock p q s = { s with mem := (forwardBlock p q s).mem, tags := (forwardBlock p q s).tags } := by
  rw [forwardBlock_eq]

/-- IDCT of a block changes buffers and tags only. -/
theorem inverseBlock_frame (p q : Nat) (s : State) :
    inverseBlock p q s = { s with mem := (inverseBlock p q s).mem, tags := (inverseBlock p q s).tags } := by
  rw [inverseBlock_eq]

theorem forwardBlock_mem (p q : Nat) (s : State) :
    (forwardBlock p q s).mem = s.mem.store (coefBlockCells p q (s.fdctValue p q)) := by rw [forwardBlock_eq]

theorem inverseBlock_mem (p q : Nat) (s : State) :
    (inverseBlock p q s).mem = s.mem.store (coefBlockCells p q (s.idctValue p q)) := by rw [inverseBlock_eq]

theorem forwardBlock_tags (p q : Nat) (s : State) :
    (forwardBlock p q s).tags = (s.setTag p q .qcoef).tags := by rw [forwardBlock_eq]; rfl

theorem inverseBlock_tags (p q : Nat) (s : State) :
    (inverseBlock p q s).tags = (s.setTag p q .recon).tags := by rw [inverseBlock_eq]; rfl

/-- The coefficients FDCT leaves in its block (41_forward_quantize.md R93). -/
theorem forwardBlock_coef {s : State} (h : s.mem.wf = true) (p q : Nat) {x y : Nat} (hx : x < 8) (hy : y < 8) :
    (forwardBlock p q s).mem.coef (8 * p + x) (8 * q + y) = fdctElement (s.blockSample p q) s.step64 x y := by
  rw [forwardBlock_mem, Memory.coef_store_block h p q hx hy, State.fdctValue_eq]

/-- The values IDCT leaves in its block (42_inverse_dequantize.md R107). -/
theorem inverseBlock_coef {s : State} (h : s.mem.wf = true) (p q : Nat) {i j : Nat} (hi : i < 8) (hj : j < 8) :
    (inverseBlock p q s).mem.coef (8 * p + i) (8 * q + j) =
      idctElement (invSelect (ctrlStdOrder s.engSnap.ctrl) (s.blockCoef p q)) s.step64 i j := by
  rw [inverseBlock_mem, Memory.coef_store_block h p q hi hj, State.idctValue_eq]

/-- A block function keeps the canonical forms. -/
theorem forwardBlock_wf {s : State} (h : s.mem.wf = true) (ht : TagMap.wf s.tags = true) (p q : Nat) :
    (forwardBlock p q s).mem.wf = true ∧ TagMap.wf (forwardBlock p q s).tags = true := by
  rw [forwardBlock_mem, forwardBlock_tags]
  exact ⟨Memory.store_wf h _, State.setTag_wf ht p q .qcoef⟩

theorem inverseBlock_wf {s : State} (h : s.mem.wf = true) (ht : TagMap.wf s.tags = true) (p q : Nat) :
    (inverseBlock p q s).mem.wf = true ∧ TagMap.wf (inverseBlock p q s).tags = true := by
  rw [inverseBlock_mem, inverseBlock_tags]
  exact ⟨Memory.store_wf h _, State.setTag_wf ht p q .recon⟩

/-! ## A pass over blocks -/

/-- A pass of functions that change buffers and tags only changes buffers and tags only. -/
theorem foldl_blocks_frame {f : Nat × Nat → State → State}
    (hf : ∀ b s, f b s = { s with mem := (f b s).mem, tags := (f b s).tags }) (bs : List (Nat × Nat)) :
    ∀ s : State, bs.foldl (fun t b => f b t) s =
      { s with mem := (bs.foldl (fun t b => f b t) s).mem, tags := (bs.foldl (fun t b => f b t) s).tags } := by
  induction bs with
  | nil => intro s; rfl
  | cons b bs ih =>
    intro s
    have h1 := ih (f b s)
    have h2 := hf b s
    rw [List.foldl_cons]
    generalize bs.foldl (fun t b => f b t) (f b s) = t at h1 ⊢
    rw [h2] at h1
    exact h1

theorem fwdEffect_frame (s : State) :
    fwdEffect s = { s with mem := (fwdEffect s).mem, tags := (fwdEffect s).tags } :=
  foldl_blocks_frame (f := fun b t => forwardBlock b.1 b.2 t) (fun b s => forwardBlock_frame b.1 b.2 s) s.grid s

theorem invEffect_frame (s : State) :
    invEffect s = { s with mem := (invEffect s).mem, tags := (invEffect s).tags } :=
  foldl_blocks_frame (f := fun b t => inverseBlock b.1 b.2 t) (fun b s => inverseBlock_frame b.1 b.2 s) s.grid s

theorem interleavedPass_frame (s : State) :
    interleavedPass s = { s with mem := (interleavedPass s).mem, tags := (interleavedPass s).tags } :=
  foldl_blocks_frame (f := fun b t => inverseBlock b.1 b.2 (forwardBlock b.1 b.2 t)) (fun b s => by
    rw [inverseBlock_frame, forwardBlock_frame]) s.grid s

/-- A property that each block function keeps is kept by a pass. -/
theorem foldl_blocks_keeps {f : Nat × Nat → State → State} {P : State → Prop} (bs : List (Nat × Nat))
    (hf : ∀ b ∈ bs, ∀ s, P s → P (f b s)) : ∀ s : State, P s → P (bs.foldl (fun t b => f b t) s) := by
  induction bs with
  | nil => intro s h; exact h
  | cons b bs ih =>
    intro s h
    exact ih (fun b' hb' => hf b' (List.mem_cons_of_mem _ hb')) _ (hf b List.mem_cons_self s h)

/-! ## The commands over the canvas -/

/-- PAD changes buffers, tags and the canvas registers only. -/
theorem padEffect_frame (s : State) :
    padEffect s = { s with mem := s.mem.store (padCells s), tags := [], pvalid := true,
                           padW := BitVec.ofNat 32 (padDim (dimField s.engSnap.inW)),
                           padH := BitVec.ofNat 32 (padDim (dimField s.engSnap.inH)) } := rfl

/-- REASM changes buffers and the clamp report only. -/
theorem reasmEffect_frame (s : State) :
    reasmEffect s = { s with mem := s.mem.store (reasmCells s),
                             clampCnt := saturatingCount s.engSnap.clampCnt (reasmClamps s),
                             irqStatus := if 0 < reasmClamps s then s.irqStatus ||| irqClamp else s.irqStatus } := rfl

/-- PAD's elements read back (40_padder.md R83). -/
theorem padEffect_sample {s : State} (h : s.mem.wf = true) (hw : padDim (dimField s.engSnap.inW) ≤ 1024) {r c : Nat}
    (hr : r < padDim (dimField s.engSnap.inH)) (hc : c < padDim (dimField s.engSnap.inW)) :
    (padEffect s).mem.sample .psrc r c =
      padElement s.mem s.engSnap.ctrl (dimField s.engSnap.inW) (dimField s.engSnap.inH) r c :=
  Memory.sample_store_region h hw hr hc

/-- REASM's elements read back (44_reassembler.md R137). -/
theorem reasmEffect_sample {s : State} (h : s.mem.wf = true) (hw : s.pw ≤ 1024) {r c : Nat} (hr : r < s.ph)
    (hc : c < s.pw) : (reasmEffect s).mem.sample .out r c = (s.reasmElement r c).1 :=
  Memory.sample_store_region h hw hr hc

end Sys2Proof.Machine
end

