-- ==== Sys2Proof/Laws/Float.lean ====
section
/-! SUPPORT. The fields of packed binary64 encodings, and small facts about the operations. -/

namespace Sys2Proof.Machine

/-- A packed encoding as a number. -/
theorem f64Pack_toNat {neg : Bool} {low : Nat} (h : low < 2 ^ 63) :
    (f64Pack neg low).toNat = if neg then 2 ^ 63 + low else low := by
  unfold f64Pack
  cases neg <;> simp only [BitVec.toNat_ofNat, if_true, if_false, Bool.false_eq_true] <;>
    exact Nat.mod_eq_of_lt (by omega)

theorem f64Sign_pack {neg : Bool} {low : Nat} (h : low < 2 ^ 63) : f64Sign (f64Pack neg low) = neg := by
  rw [f64Sign, f64Pack_toNat h]
  cases neg
  · simpa using h
  · simp

theorem f64Exp_pack {neg : Bool} {low : Nat} (h : low < 2 ^ 63) : f64Exp (f64Pack neg low) = low / 2 ^ 52 := by
  rw [f64Exp, f64Pack_toNat h]
  cases neg <;> simp <;> omega

theorem f64Frac_pack {neg : Bool} {low : Nat} (h : low < 2 ^ 63) : f64Frac (f64Pack neg low) = low % 2 ^ 52 := by
  rw [f64Frac, f64Pack_toNat h]
  cases neg
  · simp
  · simp only [if_true]; omega

/-- A value is its sign and its 63 low bits. -/
theorem f64Pack_eta (a : F64) : f64Pack (f64Sign a) (a.toNat % 2 ^ 63) = a := by
  apply BitVec.eq_of_toNat_eq
  have ha := a.isLt
  rw [f64Pack_toNat (Nat.mod_lt _ (by norm_num)), f64Sign]
  simp only [decide_eq_true_eq]
  split <;> omega

/-- A finite value, by its exponent field. -/
theorem f64IsFinite_iff {a : F64} : f64IsFinite a = true ↔ f64Exp a ≠ 2047 := by simp [f64IsFinite]

theorem f64Exp_lt (a : F64) : f64Exp a < 2048 := Nat.mod_lt _ (by norm_num)

theorem f64Frac_lt (a : F64) : f64Frac a < 2 ^ 52 := Nat.mod_lt _ (by norm_num)

/-- A significand has at most 53 bits. -/
theorem f64Mant_lt (a : F64) : f64Mant a < 2 ^ 53 := by
  have := f64Frac_lt a
  unfold f64Mant
  split <;> omega

/-- Rounding 0 gives a zero of the wanted sign. -/
@[simp] theorem round64_zero (neg : Bool) (e : Int) : round64 neg 0 e = f64Pack neg 0 := by simp [round64]

/-- The product of finite values one of which is a zero is a zero, with the sign of the product (00_scope.md R9). -/
theorem fmul_zero_of_mant {a b : F64} (ha : f64IsFinite a = true) (hb : f64IsFinite b = true)
    (h : f64Mant a = 0 ∨ f64Mant b = 0) : fmul a b = f64Pack (f64Sign a != f64Sign b) 0 := by
  rcases h with h | h <;> simp [fmul, ha, hb, fmulFinite, h]

/-- +0.0 and a zero of either sign add up to +0.0 (00_scope.md R9). -/
theorem fadd_zero_signed_zero (neg : Bool) : fadd f64Zero (f64Pack neg 0) = f64Zero := by cases neg <;> decide

/-- Every entry of CT is finite. -/
theorem ct_finite : ∀ n < 8, ∀ k < 8, f64IsFinite (ct n k) = true := by decide

/-- No entry of CT is zero (41_forward_quantize.md R90). -/
theorem ct_nonzero : ∀ n < 8, ∀ k < 8, f64Mant (ct n k) ≠ 0 := by decide

end Sys2Proof.Machine
end

