-- ==== Sys2Proof/Laws/PerInstr.lean ====
section
/-! SUPPORT. Statements about every command as syntax, one lemma per constructor. -/

namespace Sys2Proof.Laws.OpcodeField

/-- The operation code of a command (30_encoding.md R72). -/
def opcode : Instr → Nat
  | .nop => 0
  | .pad => 1
  | .fwd => 2
  | .inv => 3
  | .reasm => 4
  | .run => 5
  | .fwdb _ _ => 6
  | .invb _ _ => 7

/-- The encoding of a command, ill-formed ones too, has its OP code in bits [3:0] and 0 in RSV (30_encoding.md R70 to
R72). -/
def Statement (i : Instr) : Prop := (fieldOp (encode i)).toNat = opcode i ∧ fieldRsv (encode i) = 0

/-- A B-format encoding: its low 12 bits are OP's. -/
theorem encodeB_low (op p q : Nat) (hop : op < 16) : (encodeB op p q).toNat % 4096 = op := by
  have hp : (BitVec.ofNat 32 p <<< 12).toNat % 4096 = 0 := by
    rw [BitVec.toNat_shiftLeft, Nat.shiftLeft_eq]; omega
  have hq : (BitVec.ofNat 32 q <<< 22).toNat % 4096 = 0 := by
    rw [BitVec.toNat_shiftLeft, Nat.shiftLeft_eq]; omega
  have h4096 : (4096 : Nat) = 2 ^ 12 := by norm_num
  rw [encodeB, BitVec.toNat_or, BitVec.toNat_or, h4096, Nat.or_mod_two_pow, Nat.or_mod_two_pow, ← h4096, hp, hq,
    BitVec.toNat_ofNat]
  simp
  omega

theorem of_low {w : Word} {op : Nat} (hop : op < 16) (h : w.toNat % 4096 = op) :
    (fieldOp w).toNat = op ∧ fieldRsv w = 0 := by
  constructor
  · simp [fieldOp, BitVec.extractLsb'_toNat]
    omega
  · apply BitVec.eq_of_toNat_eq
    simp [fieldRsv, BitVec.extractLsb'_toNat, Nat.shiftRight_eq_div_pow]
    omega

theorem nop : Statement .nop := ⟨by decide, by decide⟩
theorem pad : Statement .pad := ⟨by decide, by decide⟩
theorem fwd : Statement .fwd := ⟨by decide, by decide⟩
theorem inv : Statement .inv := ⟨by decide, by decide⟩
theorem reasm : Statement .reasm := ⟨by decide, by decide⟩
theorem run : Statement .run := ⟨by decide, by decide⟩
theorem fwdb (p q : Nat) : Statement (.fwdb p q) := of_low (op := 6) (by norm_num) (encodeB_low 6 p q (by norm_num))
theorem invb (p q : Nat) : Statement (.invb p q) := of_low (op := 7) (by norm_num) (encodeB_low 7 p q (by norm_num))

end Sys2Proof.Laws.OpcodeField
end

