-- ==== Sys2Proof/Laws/Step.lean ====
section
/-! SUPPORT. The laws of a step: which agent moves, what the Host's accesses, the Engine's completion and a presented
command can do. -/

namespace Sys2Proof.Machine

/-! ## Which agent moves -/

/-- The next agent of `turns` moves. -/
theorem step_of_turn {s : State} {t : Turn} {rest : List Turn} (h : s.turns = t :: rest) :
    step s = turnStep t { s with turns := rest } := by rw [step, h]

/-- With no agent listed, a running command completes and else the host goes on. -/
theorem step_default {s : State} (h : s.turns = []) : step s = turnStep s.defaultTurn s := by rw [step, h]

theorem State.defaultTurn_busy {s : State} (h : s.phase = .busy) : s.defaultTurn = .engine := by
  simp [State.defaultTurn, State.isBusy, h]

theorem State.defaultTurn_idle {s : State} (h : s.phase = .idle) : s.defaultTurn = .host := by
  simp [State.defaultTurn, State.isBusy, h]

/-! ## A presented command -/

/-- The common checks of a CMD write, and the command's own (43_scheduler.md R120). -/
theorem present_busy {s : State} (h : s.phase = .busy) (w : Word) : present w s = .next (s.raise .busy w) := by
  simp [present, h]

theorem present_illegal {s : State} {w : Word} {e : Illegal} (h : s.phase = .idle) (hd : decode w = .error e) :
    present w s = .next (s.raise .illegalCommand w) := by simp [present, h, hd]

theorem present_legal {s : State} {w : Word} {i : Instr} (h : s.phase = .idle) (hd : decode w = .ok i) :
    present w s = exec i s := by simp [present, h, hd]

/-- A command never stops the machine. -/
theorem exec_next (i : Instr) (s : State) : ∃ t, exec i s = .next t := by
  rcases exec_cases i s with ⟨e, _, _, h⟩ | ⟨_, _, h⟩ | ⟨_, h⟩ <;> exact ⟨_, h⟩

/-- A CMD write never stops the machine. -/
theorem present_next (w : Word) (s : State) : ∃ t, present w s = .next t := by
  unfold present
  split
  · exact ⟨_, rfl⟩
  · split
    · exact ⟨_, rfl⟩
    · exact exec_next _ _

/-! ## Host accesses -/

/-- CMD is the register at offset 0x010, busy or not (10_state.md R23, 20_memory.md R52). -/
theorem State.target_cmd (s : State) : s.target .word 0x010 = .ok (.reg .cmd) := rfl

/-- The step after `presentNext w` is the presentation of `w`. -/
theorem step_presentNext (s : State) (w : Word) : step (s.presentNext w) = present w (s.respond .okay) := by
  rw [step_of_turn (s := s.presentNext w) (t := .host) (rest := s.turns) rfl]
  rfl

/-- A read answers the value and changes nothing else (20_memory.md R59). -/
theorem hostRead_next {size : Size} {addr : Offset} {s t : State} (h : hostRead size addr s = .next t) :
    ∃ g, s.target size addr = .ok g ∧ t = s.respond (.data (s.readTarget size g)) := by
  unfold hostRead at h
  split at h
  · cases h
  · exact ⟨_, ‹_›, by simpa using h.symm⟩

/-- A write presents a command, or stores where it goes. -/
theorem hostWrite_next {size : Size} {addr : Offset} {v : Word} {s t : State} (h : hostWrite size addr v s = .next t) :
    (s.target size addr = .ok (.reg .cmd) ∧ present v (s.respond .okay) = .next t) ∨
      ∃ g, g ≠ .reg .cmd ∧ s.target size addr = .ok g ∧ t = (s.respond .okay).writeTarget size v g := by
  unfold hostWrite at h
  split at h
  · cases h
  · exact .inl ⟨‹_›, h⟩
  · refine .inr ⟨_, ?_, ‹_›, by simpa using h.symm⟩
    rintro rfl
    exact absurd rfl ‹¬ _›

/-- A poll answers the value, and stays the host's next operation unless it matches. -/
theorem hostPoll_next {addr : Offset} {mask value : Word} {s t : State} (h : hostPoll addr mask value s = .next t) :
    ∃ g, s.target .word addr = .ok g ∧
      t = { s with response := some (.data (s.readTarget .word g)),
                   host := if s.readTarget .word g &&& mask = value then s.host
                           else .poll addr mask value :: s.host } := by
  unfold hostPoll at h
  split at h
  · cases h
  · refine ⟨_, ‹_›, ?_⟩
    simp only at h
    split at h
    · rename_i hv
      simp only [Host.Outcome.next.injEq] at h
      rw [← h, if_pos hv]
      rfl
    · rename_i hv
      simp only [Host.Outcome.next.injEq] at h
      rw [← h, if_neg hv]
      rfl

/-- Which fields a write other than one to CMD can change. -/
theorem State.writeTarget_frame (s : State) (size : Size) (v : Word) (g : Target) :
    s.writeTarget size v g =
      { s with ctrl := (s.writeTarget size v g).ctrl, irqStatus := (s.writeTarget size v g).irqStatus,
               irqEnable := (s.writeTarget size v g).irqEnable, inW := (s.writeTarget size v g).inW,
               inH := (s.writeTarget size v g).inH, clampCnt := (s.writeTarget size v g).clampCnt,
               mem := (s.writeTarget size v g).mem } := by
  cases g with
  | reg r => cases r <;> simp only [State.writeTarget, State.writeReg, State.busyLocked, State.clearIrq] <;>
      (try split) <;> rfl
  | sample b a => cases b <;> rfl
  | coef a => rfl

/-- While BUSY a write changes IRQ_STATUS and IRQ_ENABLE at most: the busy lock and the bus errors of the buffers
(10_state.md R46, 20_memory.md R56). -/
theorem State.writeTarget_busy {s : State} {size : Size} {addr : Offset} {v : Word} {g : Target} (hb : s.phase = .busy)
    (hg : s.target size addr = .ok g) :
    s.writeTarget size v g =
      { s with irqStatus := (s.writeTarget size v g).irqStatus, irqEnable := (s.writeTarget size v g).irqEnable } := by
  have hbusy : s.isBusy = true := by simp [State.isBusy, hb]
  cases g with
  | reg r => cases r <;> simp [State.writeTarget, State.writeReg, State.busyLocked, hbusy, State.clearIrq]
  | sample b a =>
    exfalso
    simp only [State.target, accessTarget, registerTarget, sampleTarget, coefTarget, hbusy, if_true] at hg
    (repeat' split at hg) <;> cases hg
  | coef a => rfl

/-! ## The Engine -/

/-- A completion (43_scheduler.md R122). -/
theorem engineStep_completes {s : State} {i : Instr} (hb : s.phase = .busy) (hd : decode s.engCmd = .ok i) :
    engineStep s = .next (commandEffect i s).finish := by
  simp only [engineStep, hb, hd]
  exact exec_completes hb

theorem engineStep_idle {s : State} (h : s.phase = .idle) : engineStep s = .next s := by simp [engineStep, h]

/-- Every step that answers a next state: who moved, and what the move answered. -/
theorem step_next {s t : State} (h : step s = .next t) :
    ∃ u : State, (∃ ts, u = { s with turns := ts }) ∧
      (hostStep u = .next t ∨ engineStep u = .next t ∨ ∃ image, t = resetStep image u) := by
  have key : ∀ (g : Turn) (u : State), turnStep g u = .next t →
      hostStep u = .next t ∨ engineStep u = .next t ∨ ∃ image, t = resetStep image u := by
    intro g u hu
    cases g with
    | host => exact .inl hu
    | engine => exact .inr (.inl hu)
    | reset image => exact .inr (.inr ⟨image, by simpa [turnStep] using hu.symm⟩)
  cases hts : s.turns with
  | nil =>
    rw [step_default hts] at h
    exact ⟨s, ⟨s.turns, rfl⟩, key _ _ h⟩
  | cons g rest =>
    rw [step_of_turn hts] at h
    exact ⟨{ s with turns := rest }, ⟨rest, rfl⟩, key _ _ h⟩

end Sys2Proof.Machine
end

