-- ==== Sys2Proof/Tests/Slice0.lean ====
section
/-! SUPPORT. The model's own tests: the well-formedness smoke tests, words written out from the encoding, one step on
small states with the expected value of the spec's vectors, and a witness for each statement's hypotheses. -/

namespace Sys2Proof.Tests

open Sys2Proof.Machine

/-! ## Well-formedness refuses each ill-formed term -/

theorem test_wf_refuses_fwdb_row : (Instr.fwdb 1024 0).wellFormed = false := by decide
theorem test_wf_refuses_fwdb_column : (Instr.fwdb 0 1024).wellFormed = false := by decide
theorem test_wf_refuses_invb_row : (Instr.invb 1024 0).wellFormed = false := by decide
theorem test_wf_refuses_invb_column : (Instr.invb 0 1024).wellFormed = false := by decide
theorem test_wf_admits_the_largest_indices : (Instr.invb 1023 1023).wellFormed = true := by decide

/-! ## Decoding: words written out field by field, BCOL, BROW, RSV, OP (30_encoding.md R70, R72; 95_test_vectors.md V1,
V2) -/

theorem test_decode_nop : decode 0b0000000000_0000000000_00000000_0000 = .ok .nop := by decide
theorem test_decode_pad : decode 0b0000000000_0000000000_00000000_0001 = .ok .pad := by decide
theorem test_decode_fwd : decode 0b0000000000_0000000000_00000000_0010 = .ok .fwd := by decide
theorem test_decode_inv : decode 0b0000000000_0000000000_00000000_0011 = .ok .inv := by decide
theorem test_decode_reasm : decode 0b0000000000_0000000000_00000000_0100 = .ok .reasm := by decide
theorem test_decode_run : decode 0b0000000000_0000000000_00000000_0101 = .ok .run := by decide
theorem test_decode_fwdb : decode 0b0000000010_0000000001_00000000_0110 = .ok (.fwdb 1 2) := by decide
theorem test_decode_invb : decode 0b1000000000_0000000001_00000000_0111 = .ok (.invb 1 512) := by decide
theorem test_decode_reserved_op : decode 0x00000008 = .error .reservedOp := by decide
theorem test_decode_reserved_field : decode 0x00000016 = .error .nonzeroReserved := by decide
theorem test_decode_z_operand : decode 0x00001001 = .error .nonzeroOperandField := by decide
theorem test_encode_fwdb : encode (.fwdb 1 2) = 0x00801006 := by decide
theorem test_encode_invb : encode (.invb 1023 1023) = 0xFFFFF007 := by decide
theorem test_table_word : decodeTableWord 32 0x00801006 = some (.fwdb 1 2) := by decide

/-! ## Small states -/

/-- A concrete idle state with a table of ones. -/
def base : State := { State.reset with qtab := Vector.replicate 64 1 }

/-- `base` with an 8 × 8 input latched and a command in the Engine. -/
def running (w ctrl : Word) : State :=
  { base with phase := .busy, engCmd := w, inW := 8, inH := 8, ctrl := ctrl, engSnap := ⟨ctrl, 8, 8, 0⟩ }

/-- `base` with a canvas of 8 × 8 samples, its one block with a tag. -/
def canvas (t : Tag) : State :=
  { base with pvalid := true, padW := 8, padH := 8, inW := 8, inH := 8, tags := [(0, t)] }

/-- A number read off a next state; `none` where the step stops. -/
def onNext (o : Host.Outcome State Fault Refusal) (f : State → Nat) : Option Nat :=
  match o with
  | .next t => some (f t)
  | .fault _ => none
  | .refused _ => none

/-! ## Commands: one step each -/

/-- 43_scheduler.md R126: from IRQ_STATUS = 0 the completion of `nop` leaves 0x1. -/
theorem test_nop_done : onNext (exec .nop (running 0x0 0)) (fun t => t.irqStatus.toNat) = some 0x1 := by decide

/-- V22: a 1 × 1 input of 7 under REPLICATE fills the canvas with 7; PAD_W is 8. -/
theorem test_pad_replicates :
    onNext (exec .pad { base with phase := .busy, engSnap := ⟨1, 1, 1, 0⟩, mem := [(0x100000, 7)] })
      (fun t => (t.mem.sample .psrc 7 7).toNat * 100 + t.pw) = some 708 := by decide +kernel

/-- V24: IN_H = 0 comes before IN_W too large: INVALID_DIMENSIONS (1). -/
theorem test_pad_dimension_priority :
    onNext (exec .pad { base with inW := 2000 }) (fun t => t.errCode.toNat) = some 1 := by decide

/-- V24: padDim(1025) = 1032 > 1024: ALLOCATION_FAILURE (2). -/
theorem test_run_allocation :
    onNext (exec .run { base with inW := 1025, inH := 8 }) (fun t => t.errCode.toNat) = some 2 := by decide

/-- 43_scheduler.md R127: RUN leaves PVALID and the padded width. -/
theorem test_run_canvas :
    onNext (exec .run { running 0x5 0 with engSnap := ⟨0, 9, 8, 0⟩ })
      (fun t => if t.pvalid then t.pw else 0) = some 16 := by decide +kernel

/-- V41: `fwd` from reset is rejected: ERR_CODE = 5, ERR_CMD = 2, IRQ_STATUS = 2. -/
theorem test_fwd_not_padded :
    onNext (exec .fwd State.reset) (fun t => t.errCode.toNat * 100 + t.errCmd.toNat * 10 + t.irqStatus.toNat)
      = some 522 := by decide

/-- 41_forward_quantize.md R95: FWD turns the grid's tag to QCOEF (and needs no tag). -/
theorem test_fwd_tag :
    onNext (exec .fwd { canvas .recon with phase := .busy }) (fun t => if t.tag 0 0 = .qcoef then 1 else 0)
      = some 1 := by decide +kernel

/-- V15: after PAD of a 9 × 8 input, `fwdb 0, 2` is out of range: BLOCK_RANGE (6), ERR_CMD the word. -/
theorem test_fwdb_range :
    onNext (exec (.fwdb 0 2) { canvas .empty with padW := 16 })
      (fun t => t.errCode.toNat * 0x100000000 + t.errCmd.toNat) = some 0x600800006 := by decide

/-- V15: `fwdb 0, 1` is in range there and is accepted. -/
theorem test_fwdb_accepted :
    onNext (exec (.fwdb 0 1) { canvas .empty with padW := 16 }) (fun t => t.engCmd.toNat) = some 0x00400006 := by decide

/-- V16: `invb 0, 0` of a RECON block: SEQUENCE (7). -/
theorem test_invb_sequence : onNext (exec (.invb 0 0) (canvas .recon)) (fun t => t.errCode.toNat) = some 7 := by decide

/-- V16: `invb 2, 0` beyond the canvas: BLOCK_RANGE (6), before SEQUENCE. -/
theorem test_invb_range : onNext (exec (.invb 2 0) (canvas .empty)) (fun t => t.errCode.toNat) = some 6 := by decide

/-- V16: `inv` with the grid's tag EMPTY: SEQUENCE (7). -/
theorem test_inv_sequence : onNext (exec .inv (canvas .empty)) (fun t => t.errCode.toNat) = some 7 := by decide

/-- 42_inverse_dequantize.md R109: INV moves the grid's tag to RECON. -/
theorem test_inv_tag :
    onNext (exec .inv { canvas .qcoef with phase := .busy }) (fun t => if t.tag 0 0 = .recon then 1 else 0)
      = some 1 := by decide +kernel

/-- V34: REASM with tags at QCOEF: SEQUENCE (7). -/
theorem test_reasm_sequence : onNext (exec .reasm (canvas .qcoef)) (fun t => t.errCode.toNat) = some 7 := by decide

/-- V18 and V29: COEF[0][0] = 255.5 (0x406FF00000000000) converts to 255 with one clamp, counted on from 5. -/
theorem test_reasm_clamps :
    onNext (exec .reasm { canvas .recon with
        phase := .busy, engSnap := ⟨0, 8, 8, 5⟩, mem := [(0x800005, 0xF0), (0x800006, 0x6F), (0x800007, 0x40)] })
      (fun t => (t.mem.sample .out 0 0).toNat * 1000 + t.clampCnt.toNat * 10 + t.irqStatus.toNat) = some 255065 := by
  decide +kernel

/-! ## Transform arithmetic, on one coefficient -/

/-- V10: fmul(AL[0], AL[0]) and fmul(AL[0], AL[1]). -/
theorem test_scale_products :
    fmul (al 0) (al 0) = 0x3FC0000000000001 ∧ fmul (al 0) (al 1) = 0x3FC6A09E667F3BCD := by decide

/-- V5, forward half: 1024.0000000000002 / 16. -/
theorem test_fdiv : fdiv 0x4090000000000001 (f64OfNat 16) = 0x4050000000000001 := by decide

/-- V4, forward half: the DC coefficient of the constant block 128 under ONES. -/
theorem test_fdct_constant :
    fdctElement (fun _ _ => f64OfNat 128) (fun _ _ => f64One) 0 0 = 0x4090000000000001 := by decide +kernel

/-- V6, forward half: COEF[0][1] of the column ramp 16c under ONES. -/
theorem test_fdct_ramp :
    fdctElement (fun _ c => f64OfNat (16 * c)) (fun _ _ => f64One) 0 1 = 0xC07238BD7A03D9D4 := by decide +kernel

/-- V4, inverse half, from the DC coefficient alone: by hand (1/8)(1 + 2^-52) · 1024(1 + 2^-52) rounds to
128.00000000000006. -/
theorem test_idct_dc :
    idctElement (invSelect false fun a b => if a = 0 ∧ b = 0 then 0x4090000000000001 else 0) (fun _ _ => f64One) 3 5
      = 0x4060000000000002 := by decide +kernel

/-- 42_inverse_dequantize.md R106, R110: a coefficient in row 0, column 1 varies along the rows under REF. -/
theorem test_idct_ref_transposes :
    f64Sign (idctElement (invSelect false fun a b => if a = 0 ∧ b = 1 then f64One else 0) (fun _ _ => f64One) 7 0)
      = true := by decide +kernel

/-- The same coefficient varies along the columns under STD. -/
theorem test_idct_std_does_not :
    f64Sign (idctElement (invSelect true fun a b => if a = 0 ∧ b = 1 then f64One else 0) (fun _ _ => f64One) 7 0)
      = false := by decide +kernel

/-- V18: NEAREST of 49.99999999999999, 2.5, −0.4, −0.5 and −0.0. -/
theorem test_toSample_nearest :
    toSample false 0x4048FFFFFFFFFFFF = (50, false) ∧ toSample false 0x4004000000000000 = (3, false) ∧
      toSample false 0xBFD999999999999A = (0, false) ∧ toSample false 0xBFE0000000000000 = (0, true) ∧
      toSample false 0x8000000000000000 = (0, false) := by decide +kernel

/-- V18: TRUNC of 49.99999999999999, 255.5, 256.0000000000001 and −0.5. -/
theorem test_toSample_trunc :
    toSample true 0x4048FFFFFFFFFFFF = (49, false) ∧ toSample true 0x406FF00000000000 = (255, false) ∧
      toSample true 0x4070000000000002 = (255, true) ∧ toSample true 0xBFE0000000000000 = (0, false) := by
  decide +kernel

/-- 41_forward_quantize.md R90: the printed table has the signs and magnitudes of the cosine, CT[7−n][k] = (−1)^k CT[n][k]
and CT[n][0] = 1. -/
theorem test_ct_symmetry :
    ∀ n < 8, ct n 0 = f64One ∧ ∀ k < 8, ct (7 - n) k = if k % 2 = 0 then ct n k else f64Neg (ct n k) := by decide

/-! ## Bus and registers -/

/-- V51: a write of 0x17 to CTRL from reset reads back 0x14. -/
theorem test_ctrl_warl : ctrlAfterWrite 0 0x17 = 0x14 ∧ ctrlAfterWrite 0 0xFFFFFFC1 = 0x01 := by decide

/-- V54: `MemWrite(0x100402, 2, 0xBBAA)` sets IN[1][2] = 0xAA and IN[1][3] = 0xBB. -/
theorem test_in_write :
    onNext (hostStep { base with host := [.write .half 0x100402 0xBBAA] })
      (fun t => (t.mem.sample .input 1 2).toNat * 1000 + (t.mem.sample .input 1 3).toNat) = some 170187 := by decide

/-- V54 and V56: a misaligned sample write, a hole, a 1-byte register read and a buffer read while BUSY are faults. -/
theorem test_bus_errors :
    accessTarget false 2 0x100001 = .error .busSampleMisaligned ∧ accessTarget false 4 0x040 = .error .busUnmapped ∧
      accessTarget false 1 0x000 = .error .busRegisterSize ∧ accessTarget true 4 0x300000 = .error .busBufferBusy := by
  decide

/-- V42: with DONE_EN, DONE asserts IRQ; OVERRUN alone does not. -/
theorem test_irq_line :
    State.irqLine { base with irqStatus := 0x1, irqEnable := 0x1 } = true ∧
      State.irqLine { base with irqStatus := 0x8, irqEnable := 0x7 } = false := by decide

/-- V40: 0x00000008 written while BUSY gives BUSY (4), not ILLEGAL. -/
theorem test_busy_first : onNext (present 0x8 (running 0x0 0)) (fun t => t.errCode.toNat) = some 4 := by decide

/-- V1: a placed word is the next step's command: `fwdb 1, 2` from reset is rejected with NOT_PADDED. -/
theorem test_fetch_word :
    onNext (step (State.reset.withFetchWord 32 0x00801006)) (fun t => t.errCode.toNat * 0x100000000 + t.errCmd.toNat)
      = some 0x500801006 := by decide

/-! ## Witnesses: each statement's hypotheses are met -/

theorem base_inv : base.Inv where
  mem_wf := rfl
  tags_wf := rfl
  ctrl_reserved := by decide
  ctrl_padMode := by decide
  irqStatus_reserved := by decide
  irqEnable_reserved := by decide
  errCode_legal := by decide
  inW_reserved := by decide
  inH_reserved := by decide
  canvas := ⟨rfl, rfl⟩
  qtab_positive := by decide
  tags_in_grid := fun _ _ _ h => absurd rfl h
  busy_snapshot := by decide
  busy_command := fun h => by cases h

theorem canvas_inv (t : Tag) (ht : t ≠ .empty) : (canvas t).Inv where
  mem_wf := rfl
  tags_wf := by simp [canvas, TagMap.wf, sparseWfFrom, ht]
  ctrl_reserved := by show (0 : Word) &&& _ = 0; decide
  ctrl_padMode := by show (0 : Word) &&& _ = 0; decide
  irqStatus_reserved := by show (0 : Word) &&& _ = 0; decide
  irqEnable_reserved := by show (0 : Word) &&& _ = 0; decide
  errCode_legal := by show (0 : Word).toNat ≤ 7; decide
  inW_reserved := by show (8 : Word) &&& _ = 0; decide
  inH_reserved := by show (8 : Word) &&& _ = 0; decide
  canvas := by
    show CanvasDim 8 ∧ CanvasDim 8
    simp [CanvasDim]
  qtab_positive := by show ∀ k : Fin 64, (Vector.replicate 64 (1 : BitVec 16))[k.val]'k.isLt ≠ 0; decide
  tags_in_grid := by
    intro p q hq h
    have hk : tagKey p q = 0 := by
      by_contra hne
      exact h (by simp [State.tag, canvas, sparseGet, hne])
    have : p = 0 ∧ q = 0 := by simp only [tagKey] at hk; omega
    obtain ⟨rfl, rfl⟩ := this
    rfl
  busy_snapshot := fun h => by cases h
  busy_command := fun h => by cases h

/-- `running` with NOP meets the invariant. -/
theorem running_inv : (running 0 0).Inv where
  mem_wf := rfl
  tags_wf := rfl
  ctrl_reserved := by decide
  ctrl_padMode := by decide
  irqStatus_reserved := by decide
  irqEnable_reserved := by decide
  errCode_legal := by decide
  inW_reserved := by decide
  inH_reserved := by decide
  canvas := ⟨rfl, rfl⟩
  qtab_positive := by decide
  tags_in_grid := fun _ _ _ h => absurd rfl h
  busy_snapshot := fun _ => rfl
  busy_command := fun _ => ⟨.nop, by decide, rfl⟩

/-- A canvas whose block is QCOEF, its coefficients +0.0, meets the bound. -/
theorem canvas_coefBounded (t : Tag) : (canvas t).CoefBounded := by
  intro p q x y _ _ _ _
  have hz : (canvas t).mem.coef (8 * p + x) (8 * q + y) = 0#64 := rfl
  rw [hz]
  have hv : f64Value 0#64 = 0 := by
    have h : f64Mant 0#64 = 0 := by decide
    simp [f64Value, h]
  rw [hv]
  exact ⟨fun _ => ⟨by decide, by norm_num⟩, fun _ => ⟨by decide, by norm_num⟩⟩

theorem witness_DecodeOfEncodeIsTheCommand : (Instr.fwdb 1023 1023).WellFormed ∧ (Instr.invb 0 1023).WellFormed := by
  decide

theorem witness_IllegalWordsAreRejected :
    base.phase = .idle ∧ (∃ e, decode 0x8 = .error e) ∧ (∃ e, decode 0xFF7 = .error e) ∧
      (∃ e, decode 0x80000000 = .error e) :=
  ⟨rfl, ⟨_, rfl⟩, ⟨_, rfl⟩, ⟨_, rfl⟩⟩

/-- Each clause of a presented word: an illegal word while BUSY on a listed turn, and an illegal word to an idle core with
no turn listed. -/
theorem witness_StepRunsTheDecodedCommand_present :
    (∃ s : State, s.phase = .busy ∧ decode 0x8 = .error .reservedOp ∧ s.host = [.write .word 0x010 0x8] ∧
      s.turns = [.host]) ∧
    (∃ s : State, s.phase = .idle ∧ decode 0xFFFFFFFF = .error .reservedOp ∧
      s.host = [.write .word 0x010 0xFFFFFFFF] ∧ s.turns = []) :=
  ⟨⟨{ running 0 0 with host := [.write .word 0x010 0x8], turns := [.host] }, rfl, by decide, rfl, rfl⟩,
    ⟨{ base with host := [.write .word 0x010 0xFFFFFFFF] }, rfl, by decide, rfl, rfl⟩⟩

/-- V40: a write of 0x00000008 to CMD while BUSY, through the bus: BUSY (4), ERR_CMD the word, and the command runs on. -/
theorem test_cmd_write_while_busy :
    onNext (hostStep { running 0 0 with host := [.write .word 0x010 0x8] })
      (fun t => t.errCode.toNat * 1000 + t.errCmd.toNat * 100 + t.irqStatus.toNat * 10 + t.statusWord.toNat) = some 4821
    := by decide

/-- The other four clauses: Host's turn listed or not, Engine's turn listed or not. -/
theorem witness_StepRunsTheDecodedCommand :
    (∃ s : State, s.phase = .idle ∧ decode 0x801006 = .ok (.fwdb 1 2) ∧
      s.host = [.write .word 0x010 0x801006] ∧ s.turns = [.host]) ∧
    (∃ s : State, s.phase = .idle ∧ decode 0x801006 = .ok (.fwdb 1 2) ∧
      s.host = [.write .word 0x010 0x801006] ∧ s.turns = []) ∧
    (∃ s : State, s.phase = .busy ∧ decode s.engCmd = .ok .nop ∧ s.turns = [.engine, .host]) ∧
    (∃ s : State, s.phase = .busy ∧ decode s.engCmd = .ok .nop ∧ s.turns = []) :=
  ⟨⟨{ base with host := [.write .word 0x010 0x801006], turns := [.host] }, rfl, by decide, rfl, rfl⟩,
    ⟨{ base with host := [.write .word 0x010 0x801006] }, rfl, by decide, rfl, rfl⟩,
    ⟨{ running 0 0 with turns := [.engine, .host] }, rfl, by decide, rfl⟩, ⟨running 0 0, rfl, by decide, rfl⟩⟩

theorem witness_PlacedWordRunsNext : State.reset.phase = .idle ∧ (Instr.invb 1023 0).WellFormed := by decide

/-- Each clause, the later ones at the edge of the canvas. -/
theorem witness_RejectionsReportTheFirstErrorInOrder :
    (running 0 0).phase = .busy ∧ (∃ e, decode 0x8 = .error e) ∧
    (decode 0x1 = .ok .pad ∧ base.inW.toNat % 65536 = 0) ∧
    (decode 0x5 = .ok .run ∧ ∃ s : State, s.phase = .idle ∧ s.inW.toNat % 65536 ≠ 0 ∧ s.inH.toNat % 65536 ≠ 0 ∧
      1024 < padDim (s.inW.toNat % 65536)) ∧
    (decode 0x2 = .ok .fwd ∧ base.phase = .idle ∧ base.pvalid = false) ∧
    (decode 0x1006 = .ok (.fwdb 1 0) ∧ (canvas .empty).pvalid = true ∧ (canvas .empty).ph ≤ 8 * 1) ∧
    (decode 0x7 = .ok (.invb 0 0) ∧ 8 * 0 < (canvas .recon).ph ∧ 8 * 0 < (canvas .recon).pw ∧
      (canvas .recon).tag 0 0 ≠ .qcoef) ∧
    (decode 0x3 = .ok .inv ∧ 0 < (canvas .recon).ph / 8 ∧ 0 < (canvas .recon).pw / 8 ∧
      (canvas .recon).tag 0 0 ≠ .qcoef) ∧
    (decode 0x4 = .ok .reasm ∧ (canvas .qcoef).tag 0 0 ≠ .recon) :=
  ⟨by decide, ⟨_, rfl⟩, by decide, ⟨by decide, { base with inW := 1025, inH := 8 }, by decide⟩, by decide, by decide,
    by decide, by decide, by decide⟩

theorem witness_ErrorCaptureKeepsTheFirstError :
    base.irqStatus.getLsbD 1 = false ∧ ({ base with irqStatus := 0x2 } : State).irqStatus.getLsbD 1 = true := by decide

/-- The grid of `canvas` is its one block. -/
theorem canvas_grid {t : Tag} {p q : Nat} (hp : p < (canvas t).ph / 8) (hq : q < (canvas t).pw / 8) : p = 0 ∧ q = 0 := by
  have h1 : (canvas t).ph / 8 = 1 := by show dimField 8 / 8 = 1; decide
  have h2 : (canvas t).pw / 8 = 1 := by show dimField 8 / 8 = 1; decide
  omega

/-- Each command is acceptable somewhere. -/
theorem witness_AcceptableCommandsAreAccepted :
    (∀ t, (canvas t).phase = .idle) ∧ Acceptable base .nop ∧ Acceptable (canvas .empty) .pad ∧
      Acceptable (canvas .empty) .run ∧ Acceptable (canvas .recon) .fwd ∧ Acceptable (canvas .recon) (.fwdb 0 0) ∧
      Acceptable (canvas .qcoef) (.invb 0 0) ∧ Acceptable (canvas .qcoef) .inv ∧ Acceptable (canvas .recon) .reasm := by
  refine ⟨fun _ => rfl, trivial, by simp [Acceptable, canvas, padDim], by simp [Acceptable, canvas, padDim], rfl,
    ⟨rfl, by decide, by decide⟩, ⟨rfl, by decide, by decide, by decide⟩, ⟨rfl, ?_⟩, ⟨rfl, ?_⟩⟩
  · intro p q hp hq
    obtain ⟨rfl, rfl⟩ := canvas_grid hp hq
    rfl
  · intro p q hp hq
    obtain ⟨rfl, rfl⟩ := canvas_grid hp hq
    rfl

theorem witness_NopCompletesWithDoneOnly : base.phase = .idle ∧ (running 0 0).phase = .busy := by decide

/-- At the largest padded dimension, from an odd width. -/
theorem witness_PadFillsTheCanvas :
    ∃ s : State, s.phase = .busy ∧ s.mem.wf = true ∧ padDim (s.engSnap.inW.toNat % 65536) = 1024 ∧
      padDim (s.engSnap.inH.toNat % 65536) ≤ 1024 :=
  ⟨{ running 0x1 0 with engSnap := ⟨0, 1017, 1, 0⟩ }, by decide⟩

theorem witness_PadOfWholeBlocksCopiesTheInput :
    ∃ s : State, s.phase = .busy ∧ s.mem.wf = true ∧ 8 ∣ s.engSnap.inW.toNat % 65536 ∧
      8 ∣ s.engSnap.inH.toNat % 65536 ∧ s.engSnap.inW.toNat % 65536 = 1024 ∧ s.engSnap.inH.toNat % 65536 ≤ 1024 :=
  ⟨{ running 0x1 0 with engSnap := ⟨0, 1024, 8, 0⟩ }, by decide⟩

/-- For FWDB and INVB, at the largest column index. -/
theorem witness_FwdbComputesTheForwardFormula :
    (running 0xFFC00006 0).phase = .busy ∧ (running 0xFFC00006 0).mem.wf = true ∧
      TagMap.wf (running 0xFFC00006 0).tags = true ∧ 1023 < 1024 := by decide

theorem witness_InvbComputesTheInverseFormula :
    (running 0xFFC00007 0x8).phase = .busy ∧ (running 0xFFC00007 0x8).mem.wf = true ∧
      TagMap.wf (running 0xFFC00007 0x8).tags = true ∧ 1023 < 1024 := by decide

/-- For FWD, INV and REASM, with the largest canvas. -/
theorem witness_FwdTransformsEveryGridBlock :
    ∃ s : State, s.phase = .busy ∧ s.mem.wf = true ∧ TagMap.wf s.tags = true ∧ s.ph = 1024 ∧ s.pw = 1024 :=
  ⟨{ running 0x2 0 with padW := 1024, padH := 1024 }, by decide⟩

theorem witness_InvTransformsEveryGridBlock :
    ∃ s : State, s.phase = .busy ∧ s.mem.wf = true ∧ TagMap.wf s.tags = true ∧ s.ph = 1024 ∧ s.pw = 1024 :=
  ⟨{ running 0x3 0 with padW := 1024, padH := 1024 }, by decide⟩

theorem witness_ReasmRoundsAndClampsTheCanvas :
    ∃ s : State, s.phase = .busy ∧ s.mem.wf = true ∧ s.ph = 1024 ∧ s.pw = 1024 :=
  ⟨{ running 0x4 0 with padW := 1024, padH := 1024 }, by decide⟩

theorem witness_RunIsThePipelineOfItsStages :
    (running 0x5 0).phase = .busy ∧ (running 0x5 0).mem.wf = true ∧
      (running 0x5 0).engSnap = ⟨(running 0x5 0).ctrl, (running 0x5 0).inW, (running 0x5 0).inH, (running 0x5 0).clampCnt⟩ ∧
      Acceptable (running 0x5 0) .run :=
  ⟨rfl, rfl, rfl, by simp [Acceptable, running, padDim]⟩

theorem witness_ScheduleModeIsUnobservable :
    ∃ s : State, s.phase = .busy ∧ s.mem.wf = true ∧ padDim (s.engSnap.inW.toNat % 65536) = 1024 ∧
      padDim (s.engSnap.inH.toNat % 65536) ≤ 1024 :=
  ⟨{ running 0x5 0 with engSnap := ⟨0x20, 1024, 9, 0⟩ }, by decide⟩

theorem witness_DistinctBlocksCommute :
    base.mem.wf = true ∧ TagMap.wf base.tags = true ∧ 127 < 128 ∧ 0 < 128 ∧ (127 ≠ 127 ∨ 0 ≠ 127) := by decide

theorem witness_CompletionsWriteOnlyTheirRegisters : (running 0x5 0).phase = .busy ∧ (running 0xFFC00007 0).phase = .busy :=
  ⟨rfl, rfl⟩

theorem witness_CompletionsStoreOnlyToTheirRegions :
    (running 0x5 0).phase = .busy ∧ (running 0x5 0).mem.wf = true := by decide

theorem witness_EveryStepKeepsTheInvariant :
    base.Inv ∧ (canvas .qcoef).Inv ∧ (running 0 0).Inv ∧ (∃ t, step base = .next t) ∧ (∃ t, step (running 0 0) = .next t) :=
  ⟨base_inv, canvas_inv .qcoef (by decide), running_inv, ⟨_, rfl⟩, ⟨_, rfl⟩⟩

theorem witness_EveryStepKeepsCoefficientsBounded :
    (canvas .qcoef).Inv ∧ (canvas .qcoef).CoefBounded ∧ ∃ t, step (canvas .qcoef) = .next t :=
  ⟨canvas_inv .qcoef (by decide), canvas_coefBounded .qcoef, _, rfl⟩

theorem witness_OnlyHostAccessesStopTheMachine : base.Inv ∧ (canvas .recon).Inv :=
  ⟨base_inv, canvas_inv .recon (by decide)⟩

/-- A run in which the host polls, writes and is reset. -/
theorem witness_EveryRunStaysWithinTheInvariant :
    Reachable { State.reset with host := HostProgram.wait, turns := [.host, .reset [(0x800000, 7)]] } := .boot _ _

theorem witness_RunningCommandCompletesOnTheEnginesTurn :
    (running 0 0).Inv ∧ (running 0 0).phase = .busy ∧ (running 0 0).turns = [] :=
  ⟨running_inv, rfl, rfl⟩

theorem witness_HostAccessesLeaveARunningCommandAlone :
    ∃ s : State, s.phase = .busy ∧ (∃ t, hostStep s = .next t) ∧ s.host = [.write .word 0x00C 0x19] :=
  ⟨{ running 0 0 with host := [.write .word 0x00C 0x19] }, rfl, ⟨_, rfl⟩, rfl⟩

theorem witness_ResetStepLeavesTheResetTable :
    ∃ (s : State) (image : List Host.Cell), s.turns = [.reset image] ∧ Memory.wf image = true ∧
      (∀ c ∈ image, inBuffers c.1 = true) ∧ image = [(0x100000, 1), (0xFFFFFF, 2)] :=
  ⟨{ running 0 0 with turns := [.reset [(0x100000, 1), (0xFFFFFF, 2)]] }, [(0x100000, 1), (0xFFFFFF, 2)], rfl,
    by decide, by decide, rfl⟩

/-- Every offset the statement names is one a read can have. -/
theorem witness_RegistersReadTheirFields :
    (∀ k < 16, (BitVec.ofNat 24 (4 * k)).toNat = 4 * k) ∧
      (∀ x < 8, ∀ y < 8, (BitVec.ofNat 24 (0x800 + 4 * (8 * x + y))).toNat = 0x800 + 4 * (8 * x + y)) ∧
      ∃ s : State, s.host = [.read .word 0x014] :=
  ⟨by decide, by decide, { base with host := [.read .word 0x014] }, rfl⟩

theorem witness_CtrlWritesAreLegalised :
    ∃ s : State, s.phase = .idle ∧ s.host = [.write .word 0x00C 0x17] :=
  ⟨{ base with host := [.write .word 0x00C 0x17] }, rfl, rfl⟩

theorem witness_RegisterWritesStoreTheirFields :
    ∀ a ∈ [(0x018 : Offset), 0x01C, 0x028, 0x02C, 0x038],
      ∃ s : State, s.phase = .idle ∧ s.host = [.write .word a 0x00010008] :=
  fun a _ => ⟨{ base with host := [.write .word a 0x00010008] }, rfl, rfl⟩

theorem witness_ConfigurationWritesWhileBusyAreLost :
    (0x00C : Offset).toNat = 0x00C ∧ (0x028 : Offset).toNat = 0x028 ∧ (0x02C : Offset).toNat = 0x02C ∧
      (0x038 : Offset).toNat = 0x038 ∧
      ∀ a ∈ [(0x00C : Offset), 0x028, 0x02C, 0x038], ∃ s : State, s.phase = .busy ∧ s.host = [.write .word a 0x9] :=
  ⟨rfl, rfl, rfl, rfl, fun a _ => ⟨{ running 0 0 with host := [.write .word a 0x9] }, rfl, rfl⟩⟩

theorem witness_ReadOnlyRegisterWritesChangeNothing :
    (0x03C : Offset).toNat ∈ [0x000, 0x004, 0x008, 0x014, 0x020, 0x024, 0x030, 0x034, 0x03C] ∧
      (0x8FC : Offset).toNat = 0x800 + 4 * 63 ∧ ∃ s : State, s.host = [.write .word 0x8FC 0] :=
  ⟨by decide, by decide, { base with host := [.write .word 0x8FC 0] }, rfl⟩

theorem witness_BusErrorsAreExactlyTheListedOnes :
    ∃ s s' s'' : State, s.host = [.read .byte 0xFFFFFF] ∧ s'.host = [.write .half 0x3FFFFE 1] ∧
      s''.host = [.poll 0x1000 0 0] :=
  ⟨{ base with host := [.read .byte 0xFFFFFF] }, { base with host := [.write .half 0x3FFFFE 1] },
    { base with host := [.poll 0x1000 0 0] }, rfl, rfl, rfl⟩

/-- In the buffers at both ends of each range, and in the register window. -/
theorem witness_BufferWindowsFaultWhileBusy :
    inBuffers 0x100000 = true ∧ inBuffers 0x3FFFFF = true ∧ inBuffers 0x800000 = true ∧ inBuffers 0xFFFFFF = true ∧
      (∃ s : State, s.phase = .busy ∧ s.host = [.read .byte 0x3FFFFF]) ∧
      (∃ s : State, s.phase = .busy ∧ s.host = [.poll 0xFFFFFD 0 0]) ∧
      (∃ s : State, s.phase = .busy ∧ s.host = [.write .word 0xFFC 0] ∧ (0xFFC : Offset).toNat < 0x1000) :=
  ⟨by decide, by decide, by decide, by decide, ⟨{ running 0 0 with host := [.read .byte 0x3FFFFF] }, rfl, rfl⟩,
    ⟨{ running 0 0 with host := [.poll 0xFFFFFD 0 0] }, rfl, rfl⟩,
    ⟨{ running 0 0 with host := [.write .word 0xFFC 0] }, rfl, rfl, by decide⟩⟩

/-- Reads and writes of each buffer at its last element, and a misaligned access. -/
theorem witness_SampleWindowAccessesMoveElements :
    base.phase = .idle ∧ base.mem.wf = true ∧
      (0x1FFFFC : Offset).toNat = SampleBuf.input.base + 1023 * 1024 + 1020 ∧ 1020 % Size.word.bytes = 0 ∧
      (0x2FFFFF : Offset).toNat = SampleBuf.psrc.base + 1023 * 1024 + 1023 ∧ 1023 % Size.byte.bytes = 0 ∧
      (0x3FFFFD : Offset).toNat = SampleBuf.out.base + 1023 * 1024 + 1021 ∧ 1021 % Size.half.bytes ≠ 0 := by decide

/-- The last coefficient's two halves, and a misaligned offset. -/
theorem witness_CoefficientWindowReadsTheTwoHalves :
    base.phase = .idle ∧ (0xFFFFF8 : Offset).toNat = 0x800000 + 8 * (1023 * 1024 + 1023) ∧
      (0xFFFFFC : Offset).toNat = 0x800000 + 8 * (1023 * 1024 + 1023) + 4 ∧ (0xFFFFFC : Offset).toNat % 4 = 0 ∧
      (0x800002 : Offset).toNat % 4 ≠ 0 := by decide

theorem witness_ReadsHaveNoSideEffect :
    ∃ s : State, s.host = [.read .byte 0x1FFFFF] ∧ ¬ BusErrorCase (s.phase = .busy) Size.byte.bytes 0x1FFFFF :=
  ⟨{ base with host := [.read .byte 0x1FFFFF] }, rfl, by simp [BusErrorCase, base, State.reset, Size.bytes]⟩

/-- A poll that matches and one that does not. -/
theorem witness_PollRepeatsUntilTheValueMatches :
    (base.statusWord &&& 0x1 = 0) ∧ ((running 0 0).statusWord &&& 0x1 ≠ 0) ∧
      ∃ s : State, s.host = [.poll 0x014 0x1 0x0] :=
  ⟨by decide, by decide, { base with host := [.poll 0x014 0x1 0x0] }, rfl⟩

theorem witness_PaddedDimensionIsTheLeastMultipleOfEight : 1 ≤ 65535 ∧ padDim 65535 = 65536 := by decide

theorem witness_SampleConversionIsExact :
    f64IsFinite 0x406FF00000000000 = true ∧ f64IsFinite 0x8000000000000000 = true := by decide

/-- The value of a finite number from its fields. -/
theorem f64Value_of {a : F64} {neg : Bool} {m : Nat} {e : Int} (hs : f64Sign a = neg) (hm : f64Mant a = m)
    (he : f64Lsb a = e) : f64Value a = (if neg then -1 else 1) * (m : ℚ) * (2 : ℚ) ^ e := by
  rw [f64Value, hs, hm, he]

/-- A finite result and an overflow. -/
theorem witness_AdditionRoundsToNearestEven :
    f64IsFinite 0x7FEFFFFFFFFFFFFF = true ∧ f64IsFinite (fadd 0x7FEFFFFFFFFFFFFF 0x0000000000000001) = true ∧
      f64IsFinite (fadd 0x7FEFFFFFFFFFFFFF 0x7FEFFFFFFFFFFFFF) = false := by
  decide +kernel

/-- A tie: 1 + 2^-53 is as near to 1 as to 1 + 2^-52, and the sum is 1. -/
theorem witness_AdditionRoundsToNearestEven_tie :
    fadd 0x3FF0000000000000 0x3CA0000000000000 = 0x3FF0000000000000 ∧
      |f64Value 0x3FF0000000000000 - (f64Value 0x3FF0000000000000 + f64Value 0x3CA0000000000000)| =
        |f64Value 0x3FF0000000000001 - (f64Value 0x3FF0000000000000 + f64Value 0x3CA0000000000000)| := by
  refine ⟨by decide +kernel, ?_⟩
  rw [f64Value_of (a := 0x3FF0000000000000) (neg := false) (m := 2 ^ 52) (e := -52) (by decide) (by decide) (by decide),
    f64Value_of (a := 0x3CA0000000000000) (neg := false) (m := 2 ^ 52) (e := -105) (by decide) (by decide) (by decide),
    f64Value_of (a := 0x3FF0000000000001) (neg := false) (m := 2 ^ 52 + 1) (e := -52) (by decide) (by decide)
      (by decide)]
  norm_num

theorem witness_MultiplicationRoundsToNearestEven :
    f64IsFinite 0x7FEFFFFFFFFFFFFF = true ∧ f64IsFinite (fmul 0x7FEFFFFFFFFFFFFF 0x3FF0000000000000) = true ∧
      f64IsFinite (fmul 0x7FEFFFFFFFFFFFFF 0x4000000000000000) = false := by
  decide +kernel

/-- A tie: (1 + 2^-52) · 1.5 is as near to 1.5 + 2^-52 as to 1.5 + 2^-51, and the product is the latter. -/
theorem witness_MultiplicationRoundsToNearestEven_tie :
    fmul 0x3FF0000000000001 0x3FF8000000000000 = 0x3FF8000000000002 ∧
      |f64Value 0x3FF8000000000002 - f64Value 0x3FF0000000000001 * f64Value 0x3FF8000000000000| =
        |f64Value 0x3FF8000000000001 - f64Value 0x3FF0000000000001 * f64Value 0x3FF8000000000000| := by
  refine ⟨by decide +kernel, ?_⟩
  rw [f64Value_of (a := 0x3FF8000000000002) (neg := false) (m := 3 * 2 ^ 51 + 2) (e := -52) (by decide) (by decide)
      (by decide),
    f64Value_of (a := 0x3FF8000000000001) (neg := false) (m := 3 * 2 ^ 51 + 1) (e := -52) (by decide) (by decide)
      (by decide),
    f64Value_of (a := 0x3FF8000000000000) (neg := false) (m := 3 * 2 ^ 51) (e := -52) (by decide) (by decide)
      (by decide),
    f64Value_of (a := 0x3FF0000000000001) (neg := false) (m := 2 ^ 52 + 1) (e := -52) (by decide) (by decide)
      (by decide)]
  norm_num

theorem witness_DivisionRoundsToNearestEven :
    f64IsFinite (fdiv 0x3FF0000000000000 0x4008000000000000) = true ∧
      f64IsFinite (fdiv 0x7FEFFFFFFFFFFFFF 0x3FE0000000000000) = false ∧ f64Value 0x3FE0000000000000 ≠ 0 := by
  refine ⟨by decide +kernel, by decide +kernel, ?_⟩
  rw [f64Value_of (neg := false) (m := 2 ^ 52) (e := -53) (by decide) (by decide) (by decide)]
  norm_num

/-- A tie, among the subnormal numbers: 3 · 2^-1074 / 2 is as near to 2^-1074 as to 2 · 2^-1074, and the quotient is the
latter. -/
theorem witness_DivisionRoundsToNearestEven_tie :
    fdiv 0x3 0x4000000000000000 = 0x2 ∧
      |f64Value 0x2 - f64Value 0x3 / f64Value 0x4000000000000000| =
        |f64Value 0x1 - f64Value 0x3 / f64Value 0x4000000000000000| := by
  refine ⟨by decide +kernel, ?_⟩
  rw [f64Value_of (a := 0x2) (neg := false) (m := 2) (e := -1074) (by decide) (by decide) (by decide),
    f64Value_of (a := 0x1) (neg := false) (m := 1) (e := -1074) (by decide) (by decide) (by decide),
    f64Value_of (a := 0x3) (neg := false) (m := 3) (e := -1074) (by decide) (by decide) (by decide),
    f64Value_of (a := 0x4000000000000000) (neg := false) (m := 2 ^ 52) (e := -51) (by decide) (by decide) (by decide)]
  generalize (2 : ℚ) ^ (-1074 : ℤ) = t
  rw [← abs_neg]
  congr 1
  norm_num
  ring

/-- The sign of a zero: of an exact sum of 0, and of a product and a quotient of zeros. -/
theorem test_zero_signs :
    fadd 0x3FF0000000000000 0xBFF0000000000000 = 0 ∧ fadd 0x8000000000000000 0x8000000000000000 = 0x8000000000000000 ∧
      fadd 0 0x8000000000000000 = 0 ∧ fmul 0x8000000000000000 0x3FF0000000000000 = 0x8000000000000000 ∧
      fdiv 0x8000000000000000 0xBFF0000000000000 = 0 := by
  decide +kernel

theorem witness_CosineTableIsCorrectlyRounded : 0 < 8 ∧ 7 < 8 ∧ ct 7 7 = f64Neg (cosMagnitude 7) := by decide

theorem witness_ScaleTableIsCorrectlyRounded : 1 ≤ 1 ∧ 1 ≤ 7 ∧ 7 < 8 := by decide

theorem witness_ForwardValuesAreBounded : ∀ k : Fin 64, base.qtab[k.val]'k.isLt ≠ 0 := by decide

theorem witness_ZeroBlockHasPositiveZeroCoefficients :
    (running 0x6 0).phase = .busy ∧ (running 0x6 0).mem.wf = true ∧
      (∀ k : Fin 64, (running 0x6 0).qtab[k.val]'k.isLt ≠ 0) ∧
      ∀ u v, u < 8 → v < 8 → (running 0x6 0).mem.sample .psrc (8 * 0 + u) (8 * 0 + v) = 0 :=
  ⟨by decide, by decide, by decide, fun _ _ _ _ => rfl⟩

end Sys2Proof.Tests
end

section
/-! Magnitudes of binary64 encodings: the value of the 63 low bits, with the exponent field left unbounded, so that an
overflow is a magnitude like any other until it is cut to the infinity. -/

namespace Sys2Proof.Machine

/-- The factor that a sign bit stands for. -/
def signFactor (neg : Bool) : ℚ := if neg then -1 else 1

theorem signFactor_bne (a b : Bool) : signFactor (a != b) = signFactor a * signFactor b := by
  cases a <;> cases b <;> simp [signFactor]

theorem signFactor_bne_eq_div (a b : Bool) : signFactor (a != b) = signFactor a / signFactor b := by
  cases a <;> cases b <;> simp [signFactor]

@[simp] theorem abs_signFactor (neg : Bool) : |signFactor neg| = 1 := by cases neg <;> simp [signFactor]

@[simp] theorem signFactor_not (neg : Bool) : signFactor (!neg) = -signFactor neg := by
  cases neg <;> simp [signFactor]

/-- The exponent of the last place of the magnitude with the 63 low bits `low`. -/
def magLsb (low : ℕ) : ℤ := if low / 2 ^ 52 = 0 then -1074 else ((low / 2 ^ 52 : ℕ) : ℤ) - 1075

/-- The magnitude with the 63 low bits `low`; that of an infinity is 2^1024. -/
def magnitude (low : ℕ) : ℚ :=
  ((if low / 2 ^ 52 = 0 then low % 2 ^ 52 else 2 ^ 52 + low % 2 ^ 52 : ℕ) : ℚ) * 2 ^ magLsb low

/-- The value of a number is its sign times the magnitude of its 63 low bits. -/
theorem f64Value_eq_magnitude (a : F64) : f64Value a = signFactor (f64Sign a) * magnitude (a.toNat % 2 ^ 63) := by
  have hexp : a.toNat % 2 ^ 63 / 2 ^ 52 = f64Exp a := by unfold f64Exp; omega
  have hfrac : a.toNat % 2 ^ 63 % 2 ^ 52 = f64Frac a := by unfold f64Frac; omega
  rw [magnitude, magLsb, hexp, hfrac, ← mul_assoc]
  rfl

theorem f64Value_pack {neg : Bool} {low : ℕ} (h : low < 2 ^ 63) :
    f64Value (f64Pack neg low) = signFactor neg * magnitude low := by
  have hlow : (f64Pack neg low).toNat % 2 ^ 63 = low := by rw [f64Pack_toNat h]; split <;> omega
  rw [f64Value_eq_magnitude, f64Sign_pack h, hlow]

theorem magnitude_nonneg (low : ℕ) : 0 ≤ magnitude low := mul_nonneg (Nat.cast_nonneg _) (by positivity)

@[simp] theorem magnitude_zero : magnitude 0 = 0 := by simp [magnitude]

/-- A significand of at most 53 bits and a carry, put in above the exponent `t` of its last place, has the value it
stands for: a carry out of the fraction field moves into the exponent field. -/
theorem magnitude_normalized {t n : ℕ} (hn : n ≤ 2 ^ 53) (ht : t = 0 ∨ 2 ^ 52 ≤ n) :
    magnitude (t * 2 ^ 52 + n) = n * 2 ^ ((t : ℤ) - 1074) := by
  have split_exp : ∀ j r, r < 2 ^ 52 → t * 2 ^ 52 + n = (t + j) * 2 ^ 52 + r →
      (t * 2 ^ 52 + n) / 2 ^ 52 = t + j ∧ (t * 2 ^ 52 + n) % 2 ^ 52 = r := fun j r hr h => by omega
  rcases lt_or_ge n (2 ^ 52) with hlt | hge
  · obtain rfl : t = 0 := ht.resolve_right (by omega)
    obtain ⟨hd, hr⟩ := split_exp 0 n hlt (by omega)
    rw [magnitude, magLsb, hd, hr, if_pos rfl, if_pos rfl]
    rfl
  rcases hn.lt_or_eq with hlt | rfl
  · obtain ⟨hd, hr⟩ := split_exp 1 (n - 2 ^ 52) (by omega) (by omega)
    rw [magnitude, magLsb, hd, hr, if_neg (by omega), if_neg (by omega), Nat.add_sub_cancel' hge]
    congr 2
    push_cast; ring
  · obtain ⟨hd, hr⟩ := split_exp 2 0 (by norm_num) (by ring)
    have he : ((t + 2 : ℕ) : ℤ) - 1075 = (t : ℤ) - 1074 + 1 := by push_cast; ring
    rw [magnitude, magLsb, hd, hr, if_neg (by omega), if_neg (by omega), he, zpow_add_one₀ two_ne_zero]
    push_cast; ring

/-- Every magnitude is an integer of at most 53 bits at a last place, a subnormal's being the lowest. -/
theorem exists_normalized (c : ℕ) :
    ∃ t n : ℕ, n < 2 ^ 53 ∧ (t = 0 ∨ 2 ^ 52 ≤ n) ∧ c = t * 2 ^ 52 + n := by
  rcases Nat.eq_zero_or_pos (c / 2 ^ 52) with h | h
  · exact ⟨0, c, by omega, .inl rfl, by omega⟩
  · exact ⟨c / 2 ^ 52 - 1, 2 ^ 52 + c % 2 ^ 52, by omega, .inr (by omega), by omega⟩

/-- The next magnitude is one last place up, also where the exponent changes. -/
theorem magnitude_strictMono : StrictMono magnitude := by
  refine strictMono_nat_of_lt_succ fun c => ?_
  obtain ⟨t, n, hn, ht, rfl⟩ := exists_normalized c
  rw [add_assoc, magnitude_normalized hn.le ht, magnitude_normalized hn (by omega)]
  exact mul_lt_mul_of_pos_right (by push_cast; linarith) (by positivity)

/-- The magnitudes of the highest finite exponent: `n` last places of 2^971. -/
theorem magnitude_top {n : ℕ} (hn : n ≤ 2 ^ 53) (hn' : 2 ^ 52 ≤ n) :
    magnitude (2045 * 2 ^ 52 + n) = n * 2 ^ 971 := by
  rw [magnitude_normalized hn (.inr hn'), show ((2045 : ℕ) : ℤ) - 1074 = (971 : ℕ) by norm_num, zpow_natCast]

theorem magnitude_infLow : magnitude f64InfLow = 2 ^ 1024 := by
  rw [show f64InfLow = 2045 * 2 ^ 52 + 2 ^ 53 by decide, magnitude_top le_rfl (by norm_num), Nat.cast_pow,
    Nat.cast_ofNat, ← pow_add]

/-- The largest finite magnitude, two half last places below the infinity's. -/
theorem magnitude_infLow_pred : magnitude (f64InfLow - 1) = 2 ^ 1024 - 2 * 2 ^ 970 := by
  rw [show f64InfLow - 1 = 2045 * 2 ^ 52 + (2 ^ 53 - 1) by decide, magnitude_top (by norm_num) (by norm_num),
    Nat.cast_sub (by norm_num), sub_mul, Nat.cast_pow, Nat.cast_ofNat, ← pow_add, Nat.cast_one, one_mul, ← pow_succ']

end Sys2Proof.Machine
end

section
/-! Nearness to an exact magnitude: among the integers, among the magnitudes, and as `RoundsTo` among the numbers. -/

namespace Sys2Proof.Machine

/-- `n` is an integer nearest to `q`, the even one of two. -/
def RoundsToInt (n : ℕ) (q : ℚ) : Prop := |n - q| ≤ 1 / 2 ∧ (|n - q| = 1 / 2 → n % 2 = 0)

/-- No integer is nearer, and one as near stands across a tie. -/
theorem RoundsToInt.nearest {n : ℕ} {q : ℚ} (h : RoundsToInt n q) (k : ℤ) :
    |n - q| ≤ |k - q| ∧ (|n - q| = |k - q| → (k : ℚ) ≠ n → n % 2 = 0) := by
  obtain ⟨hle, htie⟩ := h
  rcases eq_or_ne k n with rfl | hne
  · exact ⟨le_rfl, fun _ hne => absurd (Int.cast_natCast n) hne⟩
  · have hone : (1 : ℚ) ≤ |(k : ℚ) - n| := by exact_mod_cast Int.one_le_abs (sub_ne_zero.mpr hne)
    have htri : |(k : ℚ) - n| ≤ |k - q| + |n - q| := by rw [abs_sub_comm (n : ℚ) q]; exact abs_sub_le _ _ _
    exact ⟨by linarith, fun heq _ => htie (by linarith)⟩

/-- `low` is a magnitude nearest to `y`, of two the one with an even encoding; infinities are not yet cut off. -/
def NearestMagnitude (low : ℕ) (y : ℚ) : Prop :=
  ∀ c : ℕ, |magnitude low - y| ≤ |magnitude c - y| ∧
    (|magnitude low - y| = |magnitude c - y| → magnitude c ≠ magnitude low → low % 2 = 0)

theorem nearestMagnitude_zero : NearestMagnitude 0 0 := fun c =>
  ⟨by simp, fun _ _ => rfl⟩

/-- Measured in a last place `2 ^ (t - 1074)`, a magnitude is an integer, or it has a lower last place and then lies below
the least significand of 53 bits. -/
theorem magnitude_eq_mul_lastPlace (t c : ℕ) :
    ∃ w : ℚ, magnitude c = w * 2 ^ ((t : ℤ) - 1074) ∧ ((∃ k : ℕ, w = k) ∨ (t ≠ 0 ∧ w < 2 ^ 52)) := by
  obtain ⟨t', k, hk, hk', rfl⟩ := exists_normalized c
  rw [magnitude_normalized hk.le hk']
  rcases le_or_gt t t' with hle | hlt
  · refine ⟨(k * 2 ^ (t' - t) : ℕ), ?_, .inl ⟨_, rfl⟩⟩
    rw [show (t' : ℤ) - 1074 = ((t' - t : ℕ) : ℤ) + ((t : ℤ) - 1074) by omega, zpow_add₀ two_ne_zero, zpow_natCast]
    push_cast; ring
  · refine ⟨k * 2 ^ ((t' : ℤ) - t), ?_, .inr ⟨by omega, ?_⟩⟩
    · rw [mul_assoc, ← zpow_add₀ two_ne_zero]; congr 2; ring
    · have hk2 : (k : ℚ) < 2 ^ 53 := by exact_mod_cast hk
      calc (k : ℚ) * 2 ^ ((t' : ℤ) - t) < 2 ^ 53 * 2 ^ ((t' : ℤ) - t) := by gcongr
        _ ≤ 2 ^ 53 * 2 ^ (-1 : ℤ) := by gcongr <;> [norm_num; omega]
        _ = 2 ^ 52 := by norm_num

/-- A rounded integer is strictly nearer than what lies below a lower integer. -/
theorem RoundsToInt.nearer_of_lt {n : ℕ} {q w : ℚ} (h : RoundsToInt n q) (hq : 2 ^ 52 ≤ q) (hw : w < 2 ^ 52) :
    |n - q| < |w - q| := by
  have hnear : |(n : ℚ) - q| ≤ |2 ^ 52 - q| := by exact_mod_cast (h.nearest (2 ^ 52 : ℕ)).1
  refine hnear.trans_lt ?_
  rw [abs_sub_comm, abs_of_nonneg (sub_nonneg.mpr hq), abs_sub_comm, abs_of_pos (by linarith)]
  linarith

/-- Rounding to an integer number of last places is rounding to a nearest magnitude. -/
theorem RoundsToInt.nearestMagnitude {t n : ℕ} {q : ℚ} (h : RoundsToInt n q) (hlow : t = 0 ∨ 2 ^ 52 ≤ q)
    (hhigh : q < 2 ^ 53) : NearestMagnitude (t * 2 ^ 52 + n) (q * 2 ^ ((t : ℤ) - 1074)) := by
  obtain ⟨hnq, hqn⟩ := abs_le.mp h.1
  have hn : n ≤ 2 ^ 53 := by
    have : (n : ℚ) < (2 ^ 53 + 1 : ℕ) := by push_cast; linarith
    exact Nat.lt_succ_iff.mp (by exact_mod_cast this)
  have hn' : t = 0 ∨ 2 ^ 52 ≤ n := hlow.imp_right fun hq => by
    have : ((2 ^ 52 : ℕ) : ℚ) < (n + 1 : ℕ) := by push_cast; linarith
    exact Nat.lt_succ_iff.mp (by exact_mod_cast this)
  intro c
  obtain ⟨w, hwc, hw⟩ := magnitude_eq_mul_lastPlace t c
  have hu : (0 : ℚ) < 2 ^ ((t : ℤ) - 1074) := by positivity
  rw [magnitude_normalized hn hn', hwc, ← sub_mul, ← sub_mul, abs_mul, abs_mul, mul_le_mul_iff_left₀ (abs_pos.mpr hu.ne'),
    mul_left_inj' (abs_pos.mpr hu.ne').ne', ne_eq, mul_left_inj' hu.ne']
  rcases hw with ⟨k, rfl⟩ | ⟨ht, hw⟩
  · obtain ⟨hnear, htie⟩ := h.nearest k
    exact ⟨hnear, fun heq hne => by have := htie heq hne; omega⟩
  · have hlt := h.nearer_of_lt (hlow.resolve_left ht) hw
    exact ⟨hlt.le, fun heq _ => absurd heq hlt.ne⟩

/-- A nearest magnitude overflows exactly from half a last place above the largest finite magnitude: at that tie the
largest finite encoding is odd. -/
theorem NearestMagnitude.lt_infLow_iff {low : ℕ} {y : ℚ} (h : NearestMagnitude low y) :
    low < f64InfLow ↔ y < 2 ^ 1024 - 2 ^ 970 := by
  obtain ⟨hinf, htie⟩ := h f64InfLow
  have hmax := (h (f64InfLow - 1)).1
  have hmono := magnitude_strictMono.monotone
  have hmaxv := magnitude_infLow_pred
  have hinfv := magnitude_infLow
  have hhalf : (0 : ℚ) < 2 ^ 970 := by positivity
  generalize (2 : ℚ) ^ 970 = half, (2 : ℚ) ^ 1024 = inf at *
  constructor
  · intro hlt
    have hle : magnitude low ≤ magnitude (f64InfLow - 1) := hmono (Nat.le_pred_of_lt hlt)
    by_contra hge
    have hfar : |magnitude low - y| = y - magnitude low := by rw [abs_sub_comm, abs_of_nonneg (by linarith)]
    rw [hinfv, hfar] at hinf htie
    rcases abs_cases (inf - y) with ⟨habs, _⟩ | ⟨habs, _⟩ <;> rw [habs] at hinf htie
    · have heq : magnitude low = magnitude (f64InfLow - 1) := by linarith
      have heven := htie (by linarith) (by linarith)
      rw [magnitude_strictMono.injective heq] at heven
      exact absurd heven (by decide)
    · linarith
  · intro hy
    by_contra hge
    have hle : magnitude f64InfLow ≤ magnitude low := hmono (not_lt.mp hge)
    rw [hmaxv, abs_of_nonneg (a := magnitude low - y) (by linarith)] at hmax
    rcases abs_cases (inf - 2 * half - y) with ⟨habs, _⟩ | ⟨habs, _⟩ <;> linarith

/-- The magnitude of a finite value is below that of an infinity. -/
theorem f64IsFinite_pack_iff {neg : Bool} {low : ℕ} (h : low ≤ f64InfLow) :
    f64IsFinite (f64Pack neg low) = true ↔ low < f64InfLow := by
  have hinf : f64InfLow = 2047 * 2 ^ 52 := rfl
  rw [f64IsFinite_iff, f64Exp_pack (by omega)]
  omega

theorem f64IsInf_pack_infLow (neg : Bool) : f64IsInf (f64Pack neg f64InfLow) = true := by cases neg <;> decide

theorem f64Pack_toNat_mod_two {neg : Bool} {low : ℕ} (h : low < 2 ^ 63) : (f64Pack neg low).toNat % 2 = low % 2 := by
  rw [f64Pack_toNat h]; split <;> omega

/-- Signed values compare as their magnitudes do, a value of the other sign being no nearer than 0. -/
theorem NearestMagnitude.nearest_value {low : ℕ} {y : ℚ} (h : NearestMagnitude low y) (hy : 0 ≤ y) (neg : Bool)
    (c : F64) :
    |signFactor neg * magnitude low - signFactor neg * y| ≤ |f64Value c - signFactor neg * y| ∧
      (|signFactor neg * magnitude low - signFactor neg * y| = |f64Value c - signFactor neg * y| →
        f64Value c ≠ signFactor neg * magnitude low → low % 2 = 0) := by
  have hsign : ∀ v : ℚ, |signFactor neg * v - signFactor neg * y| = |v - y| := fun v => by
    rw [← mul_sub, abs_mul, abs_signFactor, one_mul]
  rw [f64Value_eq_magnitude, hsign]
  rcases Bool.eq_or_eq_not (f64Sign c) neg with hs | hs
  · rw [hs, hsign]
    exact ⟨(h _).1, fun heq hne => (h _).2 heq fun hc => hne (by rw [hc])⟩
  · have hm : 0 ≤ magnitude (c.toNat % 2 ^ 63) := magnitude_nonneg _
    obtain ⟨hzero, htie⟩ := h 0
    rw [magnitude_zero, zero_sub, abs_neg, abs_of_nonneg hy] at hzero htie
    rw [hs, signFactor_not, neg_mul_comm, hsign, abs_of_nonpos (a := -_ - y) (by linarith)]
    refine ⟨by linarith, fun heq hne => htie (by linarith) fun h0 => hne ?_⟩
    rw [← h0, show magnitude (c.toNat % 2 ^ 63) = 0 by linarith, neg_zero]

/-- A nearest magnitude, cut to the infinity and given a sign, is what roundTiesToEven answers. -/
theorem NearestMagnitude.roundsTo {low : ℕ} {y : ℚ} (h : NearestMagnitude low y) (hy : 0 ≤ y) (neg : Bool) :
    RoundsTo (f64Pack neg (min low f64InfLow)) neg (signFactor neg * y) := by
  have hinf : f64InfLow < 2 ^ 63 := by decide
  have hfin : f64IsFinite (f64Pack neg (min low f64InfLow)) = true ↔ low < f64InfLow := by
    rw [f64IsFinite_pack_iff (min_le_right _ _)]; omega
  refine ⟨f64Sign_pack (by omega), fun hr c _ => ?_, ?_, fun hr => ?_⟩
  · have hlow := hfin.mp hr
    rw [min_eq_left hlow.le, f64Value_pack (by omega), f64Pack_toNat_mod_two (by omega)]
    exact h.nearest_value hy neg c
  · rw [hfin, h.lt_infLow_iff, abs_mul, abs_signFactor, one_mul, abs_of_nonneg hy]
  · have hge : ¬ low < f64InfLow := fun hlt => by rw [hfin.mpr hlt] at hr; cases hr
    rw [min_eq_right (not_lt.mp hge)]
    exact f64IsInf_pack_infLow neg

end Sys2Proof.Machine
end

section
/-! `round64` and the operations that go through it: each is the nearest number to its exact result. -/

namespace Sys2Proof.Machine

/-- The integer `m` stands for the exact `z` in a rounding: it is `z`, or `z` lies next to it and its last bit says that
a remainder is left, far enough below the 53 bits that are kept. -/
def StandsFor (m : ℕ) (z : ℚ) : Prop := z = m ∨ (m % 2 = 1 ∧ 2 ^ 54 ≤ m ∧ |z - m| < 1)

/-- The exact value has the bits that its integer has. -/
theorem StandsFor.log2_bounds {m : ℕ} {z : ℚ} (h : StandsFor m z) (hm : m ≠ 0) :
    2 ^ Nat.log2 m ≤ z ∧ z < 2 ^ (Nat.log2 m + 1) := by
  have hlo : 2 ^ Nat.log2 m ≤ m := Nat.log2_self_le hm
  have hhi : m < 2 ^ (Nat.log2 m + 1) := Nat.lt_log2_self
  rcases h with rfl | ⟨hodd, hbig, hz⟩
  · exact ⟨by exact_mod_cast hlo, by exact_mod_cast hhi⟩
  · obtain ⟨hz1, hz2⟩ := abs_lt.mp hz
    have hlog : Nat.log2 m ≠ 0 := by
      intro h0; rw [h0] at hhi; omega
    have heven : 2 ∣ 2 ^ Nat.log2 m := dvd_pow_self 2 hlog
    have hlo' : ((2 ^ Nat.log2 m + 1 : ℕ) : ℚ) ≤ m := by exact_mod_cast (by omega : 2 ^ Nat.log2 m + 1 ≤ m)
    have hhi' : ((m + 1 : ℕ) : ℚ) ≤ (2 ^ (Nat.log2 m + 1) : ℕ) := by exact_mod_cast hhi
    push_cast at hlo' hhi'
    exact ⟨by linarith, by linarith⟩

/-- What is left of the exact value above the quotient by `2 ^ k` lies on the side of the half that the integer's
remainder says. -/
theorem StandsFor.remainder_side {m k : ℕ} {z : ℚ} (h : StandsFor m z) (hk : 2 ^ 54 ≤ m → 2 ≤ k) :
    ∃ ρ : ℚ, z = (m / 2 ^ k : ℕ) * 2 ^ k + ρ ∧ 0 ≤ ρ ∧ ρ ≤ 2 ^ k ∧
      (2 * (m % 2 ^ k) < 2 ^ k → 2 * ρ < 2 ^ k) ∧ (2 ^ k < 2 * (m % 2 ^ k) → 2 ^ k < 2 * ρ) ∧
      (2 * (m % 2 ^ k) = 2 ^ k → 2 * ρ = 2 ^ k) := by
  have hdiv : ((m / 2 ^ k : ℕ) : ℚ) * 2 ^ k + (m % 2 ^ k : ℕ) = m := by exact_mod_cast Nat.div_add_mod' m (2 ^ k)
  have hlt : m % 2 ^ k < 2 ^ k := Nat.mod_lt _ (by positivity)
  refine ⟨z - m + (m % 2 ^ k : ℕ), by linarith, ?_⟩
  rcases h with rfl | ⟨hodd, hbig, hz⟩
  · rw [sub_self, zero_add]
    exact ⟨by positivity, by exact_mod_cast hlt.le, fun hr => by exact_mod_cast hr, fun hr => by exact_mod_cast hr,
      fun hr => by exact_mod_cast hr⟩
  · obtain ⟨hz1, hz2⟩ := abs_lt.mp hz
    obtain ⟨j, rfl⟩ := Nat.exists_eq_add_of_le (hk hbig)
    have hpow : 2 ^ (2 + j) = 4 * 2 ^ j := by rw [pow_add]; norm_num
    have hpowq : (2 : ℚ) ^ (2 + j) = 4 * (2 ^ j : ℕ) := by exact_mod_cast hpow
    have hrodd : m % 2 ^ (2 + j) % 2 = 1 := by
      rw [Nat.mod_mod_of_dvd _ (dvd_pow_self 2 (by omega)), hodd]
    rw [hpowq]
    rw [hpow] at hrodd hlt ⊢
    generalize m % (4 * 2 ^ j) = r at *
    generalize 2 ^ j = q at *
    have cast_le : ∀ a b : ℕ, a ≤ b → (a : ℚ) ≤ b := fun a b => by exact_mod_cast id
    refine ⟨?_, ?_, fun hr => ?_, fun hr => ?_, fun hr => by omega⟩
    · have := cast_le 1 r (by omega); push_cast at this; linarith
    · have := cast_le (r + 1) (4 * q) (by omega); push_cast at this; linarith
    · have := cast_le (r + 1) (2 * q) (by omega); push_cast at this; linarith
    · have := cast_le (2 * q + 1) r (by omega); push_cast at this; linarith

theorem roundsToInt_down {n : ℕ} {f : ℚ} (h0 : 0 ≤ f) (h1 : f ≤ 1 / 2) (heven : f = 1 / 2 → n % 2 = 0) :
    RoundsToInt n (n + f) := by
  rw [RoundsToInt, abs_sub_comm, add_sub_cancel_left, abs_of_nonneg h0]
  exact ⟨h1, heven⟩

theorem roundsToInt_up {n : ℕ} {f : ℚ} (h0 : 1 / 2 ≤ f) (h1 : f ≤ 1) (hodd : f = 1 / 2 → n % 2 = 1) :
    RoundsToInt (n + 1) (n + f) := by
  rw [RoundsToInt, Nat.cast_add_one, add_sub_add_left_eq_sub, abs_of_nonneg (by linarith)]
  exact ⟨by linarith, fun h => by have := hodd (by linarith); omega⟩

theorem roundsToInt_self (n : ℕ) : RoundsToInt n n := by
  simpa using roundsToInt_down (n := n) (f := 0) le_rfl (by norm_num) (by norm_num)

/-- `shiftRightRne` rounds the exact value that its integer stands for. -/
theorem StandsFor.shiftRightRne_roundsToInt {m k : ℕ} {z : ℚ} (h : StandsFor m z) (hk : 2 ^ 54 ≤ m → 2 ≤ k) :
    RoundsToInt (shiftRightRne m k) (z / 2 ^ k) := by
  obtain ⟨ρ, hz, hρ0, hρ1, hlt, hgt, heq⟩ := h.remainder_side hk
  have hpos : (0 : ℚ) < 2 ^ k := by positivity
  have hquot : z / 2 ^ k = (m / 2 ^ k : ℕ) + ρ / 2 ^ k := by rw [hz, add_div, mul_div_cancel_right₀ _ hpos.ne']
  have hle : 2 * ρ ≤ 2 ^ k → ρ / 2 ^ k ≤ 1 / 2 := fun h => by rw [div_le_iff₀ hpos]; linarith
  have hge : 2 ^ k ≤ 2 * ρ → 1 / 2 ≤ ρ / 2 ^ k := fun h => by rw [le_div_iff₀ hpos]; linarith
  have htie : ρ / 2 ^ k = 1 / 2 → 2 * ρ = 2 ^ k := fun h => by rw [div_eq_iff hpos.ne'] at h; linarith
  simp only [shiftRightRne]
  rw [hquot]
  split
  · rename_i hup
    refine roundsToInt_up (hge ?_) ((div_le_one hpos).mpr hρ1) fun hf => ?_
    · exact hup.elim (fun hr => (hgt hr).le) fun hr => (heq hr.1).ge
    · exact hup.elim (fun hr => absurd (htie hf) (hgt hr).ne') And.right
  · rename_i hdown
    obtain ⟨hnot, heven⟩ := not_or.mp hdown
    rcases (not_lt.mp hnot).lt_or_eq with hr | hr
    · exact roundsToInt_down (by positivity) (hle (hlt hr).le) fun hf => absurd (htie hf) (hlt hr).ne
    · exact roundsToInt_down (by positivity) (hle (heq hr).le) fun _ => by omega

/-- The significand that `round64` keeps: the exact value in last places `2 ^ t`, rounded to an integer. -/
def keptSignificand (m : ℕ) (e t : ℤ) : ℕ :=
  if t ≤ e then m * 2 ^ (e - t).toNat else shiftRightRne m (t - e).toNat

theorem round64_of_ne_zero {m : ℕ} (hm : m ≠ 0) (neg : Bool) (e : ℤ) :
    round64 neg m e = f64Pack neg
      (min ((lastPlace m e + 1074).toNat * 2 ^ 52 + keptSignificand m e (lastPlace m e)) f64InfLow) := by
  rw [round64, if_neg hm]; rfl

/-- The two cases of `lastPlace`: 53 significant bits, or the last place of the subnormal numbers. -/
theorem lastPlace_cases (m : ℕ) (e : ℤ) : lastPlace m e = e + Nat.log2 m - 52 ∨ lastPlace m e = -1074 :=
  max_choice _ _

/-- The kept significand is the exact value in last places, rounded. -/
theorem StandsFor.keptSignificand_roundsToInt {m : ℕ} {z : ℚ} (h : StandsFor m z) (e : ℤ) :
    RoundsToInt (keptSignificand m e (lastPlace m e)) (z * 2 ^ (e - lastPlace m e)) := by
  have ht : e + Nat.log2 m - 52 ≤ lastPlace m e := le_max_left _ _
  have hbits : 2 ^ 54 ≤ m → 54 ≤ Nat.log2 m := fun hbig => (Nat.le_log2 (by omega)).mpr hbig
  unfold keptSignificand
  split
  · rename_i hle
    have hz : z = m := h.resolve_right fun ⟨_, hbig, _⟩ => by have := hbits hbig; omega
    obtain ⟨j, hj⟩ := Int.eq_ofNat_of_zero_le (sub_nonneg.mpr hle)
    rw [hz, hj, Int.toNat_natCast, zpow_natCast]
    exact_mod_cast roundsToInt_self (m * 2 ^ j)
  · rename_i hlt
    have hexp : e - lastPlace m e = -((lastPlace m e - e).toNat : ℕ) := by omega
    rw [hexp, zpow_neg, zpow_natCast, ← div_eq_mul_inv]
    exact h.shiftRightRne_roundsToInt fun hbig => by have := hbits hbig; omega

/-- In last places, the exact value has at most 53 bits before the point, and fewer among the subnormal numbers only. -/
theorem StandsFor.lastPlace_bounds {m : ℕ} {z : ℚ} (h : StandsFor m z) (hm : m ≠ 0) (e : ℤ) :
    ((lastPlace m e + 1074).toNat = 0 ∨ 2 ^ 52 ≤ z * 2 ^ (e - lastPlace m e)) ∧
      z * 2 ^ (e - lastPlace m e) < 2 ^ 53 := by
  obtain ⟨hlo, hhi⟩ := h.log2_bounds hm
  have hpow : ∀ n : ℕ, (2 : ℚ) ^ n * 2 ^ (52 - (Nat.log2 m : ℤ)) = 2 ^ ((n : ℤ) - Nat.log2 m + 52) := fun n => by
    rw [← zpow_natCast, ← zpow_add₀ two_ne_zero]; congr 1; ring
  constructor
  · rcases lastPlace_cases m e with ht | ht
    · right
      calc (2 : ℚ) ^ 52 = 2 ^ Nat.log2 m * 2 ^ (52 - (Nat.log2 m : ℤ)) := by rw [hpow, sub_self, zero_add]; rfl
        _ ≤ z * 2 ^ (52 - (Nat.log2 m : ℤ)) := by gcongr
        _ = z * 2 ^ (e - lastPlace m e) := by rw [ht]; congr 2; ring
    · left; rw [ht]; rfl
  · have ht : e + Nat.log2 m - 52 ≤ lastPlace m e := le_max_left _ _
    calc z * 2 ^ (e - lastPlace m e) < 2 ^ (Nat.log2 m + 1) * 2 ^ (e - lastPlace m e) := by gcongr
      _ ≤ 2 ^ (Nat.log2 m + 1) * 2 ^ (52 - (Nat.log2 m : ℤ)) :=
        mul_le_mul_of_nonneg_left (zpow_le_zpow_right₀ one_le_two (by omega)) (by positivity)
      _ = 2 ^ 53 := by rw [hpow, Nat.cast_add_one, add_sub_cancel_left]; rfl

/-- A zero of either sign is what rounding 0 gives. -/
theorem f64Pack_zero_roundsTo (neg : Bool) : RoundsTo (f64Pack neg 0) neg 0 := by
  simpa using nearestMagnitude_zero.roundsTo le_rfl neg

/-- `round64` is roundTiesToEven of the exact value that its integer stands for. -/
theorem round64_roundsTo {m : ℕ} {z : ℚ} (h : StandsFor m z) (neg : Bool) (e : ℤ) :
    RoundsTo (round64 neg m e) neg (signFactor neg * (z * 2 ^ e)) := by
  rcases eq_or_ne m 0 with rfl | hm
  · have hz : z = 0 := by simpa [StandsFor] using h
    simpa [hz] using f64Pack_zero_roundsTo neg
  · obtain ⟨hlow, hhigh⟩ := h.lastPlace_bounds hm e
    have hnear := (h.keptSignificand_roundsToInt e).nearestMagnitude hlow hhigh
    have ht : -1074 ≤ lastPlace m e := le_max_right _ _
    have hz : 0 ≤ z := le_trans (by positivity) (h.log2_bounds hm).1
    have hvalue : z * 2 ^ (e - lastPlace m e) * 2 ^ (((lastPlace m e + 1074).toNat : ℤ) - 1074) = z * 2 ^ e := by
      rw [mul_assoc, ← zpow_add₀ two_ne_zero]; congr 2; omega
    rw [hvalue] at hnear
    rw [round64_of_ne_zero hm]
    exact hnear.roundsTo (by positivity) neg

/-! ## The operations -/

theorem f64Value_eq_mant (a : F64) : f64Value a = signFactor (f64Sign a) * (f64Mant a * 2 ^ f64Lsb a) := mul_assoc _ _ _

/-- A finite value as a count of a place not above its last one. -/
theorem f64Scaled_mul {a : F64} {e : ℤ} (h : e ≤ f64Lsb a) : (f64Scaled a e : ℚ) * 2 ^ e = f64Value a := by
  have hshift : (2 : ℚ) ^ f64Lsb a = 2 ^ (f64Lsb a - e).toNat * 2 ^ e := by
    rw [← zpow_natCast, ← zpow_add₀ two_ne_zero]; congr 1; omega
  have hsign : (f64Scaled a e : ℚ) = signFactor (f64Sign a) * (f64Mant a * 2 ^ (f64Lsb a - e).toNat) := by
    cases hs : f64Sign a <;> simp [f64Scaled, signFactor, hs]
  rw [hsign, f64Value_eq_mant, hshift]
  ring

theorem signFactor_mul_natAbs (x : ℤ) : signFactor (decide (x < 0)) * (x.natAbs : ℚ) = x := by
  rw [Nat.cast_natAbs]
  rcases lt_or_ge x 0 with h | h
  · simp [signFactor, h, abs_of_neg]
  · simp [signFactor, h, abs_of_nonneg]

/-- `fadd` of finite operands (00_scope.md R9): the exact sum is an integer number of the lower of the two last places. -/
theorem fadd_roundsTo {a b : F64} (ha : f64IsFinite a = true) (hb : f64IsFinite b = true) :
    RoundsTo (fadd a b)
      (if f64Value a + f64Value b = 0 then f64Sign a && f64Sign b else decide (f64Value a + f64Value b < 0))
      (f64Value a + f64Value b) := by
  set e := min (f64Lsb a) (f64Lsb b) with he
  set x := f64Scaled a e + f64Scaled b e with hx
  have hfadd : fadd a b =
      if x = 0 then f64Pack (f64Sign a && f64Sign b) 0 else round64 (decide (x < 0)) x.natAbs e := by
    simp only [fadd, ha, hb, Bool.and_self, if_true]; rfl
  have hsum : f64Value a + f64Value b = x * 2 ^ e := by
    rw [← f64Scaled_mul (min_le_left _ _), ← f64Scaled_mul (min_le_right _ _), ← he, ← add_mul, hx, Int.cast_add]
  have he0 : (0 : ℚ) < 2 ^ e := by positivity
  rw [hfadd, hsum]
  rcases eq_or_ne x 0 with h0 | h0
  · rw [h0, if_pos rfl, Int.cast_zero, zero_mul, if_pos rfl]
    exact f64Pack_zero_roundsTo _
  · have hne : (x : ℚ) * 2 ^ e ≠ 0 := mul_ne_zero (Int.cast_ne_zero.mpr h0) he0.ne'
    have hlt : (x : ℚ) * 2 ^ e < 0 ↔ x < 0 := by rw [← not_le, mul_nonneg_iff_of_pos_right he0, not_le, Int.cast_lt_zero]
    rw [if_neg h0, if_neg hne, decide_eq_decide.mpr hlt, ← signFactor_mul_natAbs x, mul_assoc]
    exact round64_roundsTo (.inl rfl) _ e

/-- `fmul` of finite operands (00_scope.md R9): the significands' product is exact. -/
theorem fmul_roundsTo {a b : F64} (ha : f64IsFinite a = true) (hb : f64IsFinite b = true) :
    RoundsTo (fmul a b) (f64Sign a != f64Sign b) (f64Value a * f64Value b) := by
  have hfmul : fmul a b = round64 (f64Sign a != f64Sign b) (f64Mant a * f64Mant b) (f64Lsb a + f64Lsb b) := by
    simp only [fmul, ha, hb, Bool.and_self, if_true]; rfl
  have hprod : f64Value a * f64Value b =
      signFactor (f64Sign a != f64Sign b) * ((f64Mant a * f64Mant b : ℕ) * 2 ^ (f64Lsb a + f64Lsb b)) := by
    rw [f64Value_eq_mant, f64Value_eq_mant, signFactor_bne, zpow_add₀ two_ne_zero, Nat.cast_mul]
    ring
  rw [hfmul, hprod]
  exact round64_roundsTo (.inl rfl) _ _

/-- The integer that `fdivFinite` rounds: the quotient's bits, and below them whether a remainder is left. -/
def divSignificand (a b : F64) : ℕ :=
  2 * (f64Mant a * 2 ^ divScale / f64Mant b) + if f64Mant a * 2 ^ divScale % f64Mant b = 0 then 0 else 1

/-- A quotient with a sticky bit stands for the exact quotient: with 108 bits below the point it has at least 55 bits
when a remainder is left. -/
theorem divSignificand_standsFor {a b : F64} (hb : f64Mant b ≠ 0) :
    StandsFor (divSignificand a b) (2 * ((f64Mant a * 2 ^ divScale : ℕ) / f64Mant b)) := by
  have hb0 : (0 : ℚ) < f64Mant b := by exact_mod_cast Nat.pos_of_ne_zero hb
  set num := f64Mant a * 2 ^ divScale with hnum
  have hdiv : ((num / f64Mant b : ℕ) : ℚ) * f64Mant b + (num % f64Mant b : ℕ) = num := by
    exact_mod_cast Nat.div_add_mod' num (f64Mant b)
  have hquot : (num : ℚ) / f64Mant b = (num / f64Mant b : ℕ) + (num % f64Mant b : ℕ) / f64Mant b := by
    rw [← hdiv, add_div, mul_div_cancel_right₀ _ hb0.ne']
  rw [hquot, divSignificand, ← hnum]
  split
  · rename_i hexact
    left; rw [hexact]; push_cast; ring
  · rename_i hrem
    have hmant : f64Mant a ≠ 0 := fun h0 => hrem (by rw [hnum, h0, zero_mul, Nat.zero_mod])
    have hbits : 2 ^ 55 ≤ num / f64Mant b := by
      rw [Nat.le_div_iff_mul_le (Nat.pos_of_ne_zero hb)]
      calc 2 ^ 55 * f64Mant b ≤ 1 * 2 ^ divScale := by have := f64Mant_lt b; unfold divScale; omega
        _ ≤ num := Nat.mul_le_mul_right _ (Nat.pos_of_ne_zero hmant)
    have hrem0 : (0 : ℚ) < (num % f64Mant b : ℕ) / f64Mant b :=
      div_pos (by exact_mod_cast Nat.pos_of_ne_zero hrem) hb0
    have hrem1 : ((num % f64Mant b : ℕ) : ℚ) / f64Mant b < 1 :=
      (div_lt_one hb0).mpr (by exact_mod_cast Nat.mod_lt _ (Nat.pos_of_ne_zero hb))
    refine .inr ⟨by omega, by omega, abs_lt.mpr ⟨?_, ?_⟩⟩ <;> push_cast <;> linarith

/-- `fdiv` by a finite divisor with a significand other than 0 is the rounding of `divSignificand`. -/
theorem fdiv_of_finite {a b : F64} (ha : f64IsFinite a = true) (hb : f64IsFinite b = true) (hb0 : f64Mant b ≠ 0) :
    fdiv a b = round64 (f64Sign a != f64Sign b) (divSignificand a b) (f64Lsb a - f64Lsb b - divScale - 1) := by
  have special : ∀ {c : F64}, f64IsFinite c = true → f64IsNaN c = false ∧ f64IsInf c = false := fun hc => by
    have := f64IsFinite_iff.mp hc; simp [f64IsNaN, f64IsInf, this]
  obtain ⟨hna, hia⟩ := special ha
  obtain ⟨hnb, hib⟩ := special hb
  simp only [fdiv, hna, hia, hnb, hib, hb0, Bool.or_self, Bool.false_eq_true, if_false]
  rfl

/-- `fdiv` of finite operands by a divisor that is not 0 (00_scope.md R9). -/
theorem fdiv_roundsTo {a b : F64} (ha : f64IsFinite a = true) (hb : f64IsFinite b = true) (hb0 : f64Value b ≠ 0) :
    RoundsTo (fdiv a b) (f64Sign a != f64Sign b) (f64Value a / f64Value b) := by
  have hmant : f64Mant b ≠ 0 := fun h => hb0 (by simp [f64Value_eq_mant, h])
  have hmantq : (f64Mant b : ℚ) ≠ 0 := Nat.cast_ne_zero.mpr hmant
  have hquot : f64Value a / f64Value b = signFactor (f64Sign a != f64Sign b) *
      (2 * ((f64Mant a * 2 ^ divScale : ℕ) / f64Mant b) * 2 ^ (f64Lsb a - f64Lsb b - divScale - 1)) := by
    rw [f64Value_eq_mant, f64Value_eq_mant, mul_div_mul_comm, ← signFactor_bne_eq_div, zpow_sub_one₀ two_ne_zero,
      zpow_sub₀ two_ne_zero, zpow_sub₀ two_ne_zero, zpow_natCast, Nat.cast_mul, Nat.cast_pow, Nat.cast_ofNat]
    field_simp
  rw [fdiv_of_finite ha hb hmant, hquot]
  exact round64_roundsTo (divSignificand_standsFor hmant) _ _

end Sys2Proof.Machine
end

section
/-! A poll of STATUS. -/

namespace Sys2Proof.Machine

/-- STATUS is the register at offset 0x014, busy or not (10_state.md R23, 20_memory.md R52). -/
theorem State.target_status (s : State) : s.target .word 0x014 = .ok (.reg .status) := rfl

/-- The host's oldest operation, a poll, is taken off its list and done. -/
theorem hostStep_poll {s : State} {addr : Offset} {mask value : Word} {rest : List HostOp}
    (h : s.host = .poll addr mask value :: rest) :
    hostStep s = hostPoll addr mask value { s with host := rest } := by
  unfold hostStep
  rw [h]

/-- A poll that gets OKAY answers the value, and is put back unless it matches. -/
theorem hostPoll_of_target {addr : Offset} {s : State} {g : Target} (h : s.target .word addr = .ok g)
    (mask value : Word) :
    hostPoll addr mask value s =
      if s.readTarget .word g &&& mask = value then .next (s.respond (.data (s.readTarget .word g)))
      else .next { s.respond (.data (s.readTarget .word g)) with host := .poll addr mask value :: s.host } := by
  unfold hostPoll
  rw [h]
  rfl

end Sys2Proof.Machine
end

section
/-! The obligations of 00_scope.md. -/

namespace Sys2Proof.Proofs

open Sys2Proof.Machine

/-- Settles O46: the sum is an integer number of the lower of the two last places, and `round64` rounds it once. -/
theorem additionRoundsToNearestEven : Obligations.AdditionRoundsToNearestEven := fun _ _ ha hb => fadd_roundsTo ha hb

/-- Settles O47: the product of the significands is an integer, and `round64` rounds it once. -/
theorem multiplicationRoundsToNearestEven : Obligations.MultiplicationRoundsToNearestEven :=
  fun _ _ ha hb => fmul_roundsTo ha hb

/-- Settles O48: the quotient's bits with a sticky bit stand for the exact quotient, and `round64` rounds them once. -/
theorem divisionRoundsToNearestEven : Obligations.DivisionRoundsToNearestEven :=
  fun _ _ ha hb hb0 => fdiv_roundsTo ha hb hb0

/-- Settles O43: the poll gets OKAY, and goes back on the host's list just where the masked value does not match. -/
theorem pollRepeatsUntilTheValueMatches : Obligations.PollRepeatsUntilTheValueMatches := by
  intro s mask value rest h
  have hpoll := hostPoll_of_target (State.target_status { s with host := rest }) mask value
  rw [hostStep_poll h, hpoll]
  refine ⟨fun hmatch => if_pos hmatch, fun hother => (if_neg hother).trans ?_⟩
  rw [← h]
  rfl

end Sys2Proof.Proofs
end

section
/-! A legal word is the encoding of its command. -/

namespace Sys2Proof

/-- The fields of a word, by its number (30_encoding.md R70). -/
theorem fieldOp_toNat (w : Word) : (fieldOp w).toNat = w.toNat % 16 := by simp [fieldOp]

theorem fieldRsv_toNat (w : Word) : (fieldRsv w).toNat = w.toNat / 16 % 256 := by
  simp [fieldRsv, Nat.shiftRight_eq_div_pow]

theorem fieldBrow_eq (w : Word) : fieldBrow w = w.toNat / 4096 % 1024 := by
  simp [fieldBrow, Nat.shiftRight_eq_div_pow]

theorem fieldBcol_eq (w : Word) : fieldBcol w = w.toNat / 4194304 := by
  have := w.isLt
  simp [fieldBcol, Nat.shiftRight_eq_div_pow]
  omega

/-- A B-format encoding as a number: its fields do not overlap (30_encoding.md R76). -/
theorem encodeB_toNat {op p q : Nat} (hop : op < 4096) (hp : p < 1024) (hq : q < 1024) :
    (encodeB op p q).toNat = q * 4194304 + (p * 4096 + op) := by
  have hlow : p <<< 12 ||| op = p * 4096 + op := by
    rw [← Nat.shiftLeft_add_eq_or_of_lt hop, Nat.shiftLeft_eq]
  have hhigh : q <<< 22 ||| (p * 4096 + op) = q * 4194304 + (p * 4096 + op) := by
    rw [← Nat.shiftLeft_add_eq_or_of_lt (by omega), Nat.shiftLeft_eq]
  simp only [encodeB, BitVec.toNat_or, BitVec.toNat_shiftLeft, BitVec.toNat_ofNat]
  rw [Nat.mod_eq_of_lt (a := q) (by omega), Nat.mod_eq_of_lt (a := p) (by omega), Nat.mod_eq_of_lt (a := op) (by omega),
    Nat.mod_eq_of_lt (by rw [Nat.shiftLeft_eq]; omega), Nat.mod_eq_of_lt (by rw [Nat.shiftLeft_eq]; omega),
    Nat.or_assoc, hlow, hhigh]

/-- A legal Z-format word has nothing above RSV (30_encoding.md R71). -/
theorem decodeZ_ok {i j : Instr} {w : Word} (h : decodeZ i w = .ok j) : j = i ∧ w.toNat / 4096 = 0 := by
  unfold decodeZ at h
  split at h
  next hz =>
    have hz := congrArg BitVec.toNat hz
    have := w.isLt
    simp [Nat.shiftRight_eq_div_pow] at hz
    cases h
    exact ⟨rfl, by omega⟩
  next => cases h

/-- A legal word is the encoding of the command it decodes to (30_encoding.md R72 to R76). -/
theorem encode_of_decode {w : Word} {i : Instr} (h : decode w = .ok i) : encode i = w := by
  unfold decode at h
  split at h
  · cases h
  split at h
  · cases h
  next hop hrsv =>
    have hrsv : w.toNat / 16 % 256 = 0 := by
      rw [← fieldRsv_toNat, not_not.mp hrsv]; rfl
    rw [fieldOp_toNat] at hop h
    apply BitVec.eq_of_toNat_eq
    have blockWord : ∀ op < 16, w.toNat % 16 = op →
        (encodeB op (fieldBrow w) (fieldBcol w)).toNat = w.toNat := fun op hlt hop => by
      rw [fieldBrow_eq, fieldBcol_eq, encodeB_toNat] <;> omega
    generalize hcode : w.toNat % 16 = op at hop h
    obtain hz | rfl | rfl : op ≤ 5 ∨ op = 6 ∨ op = 7 := by omega
    · interval_cases op
      all_goals
        obtain ⟨rfl, hhigh⟩ := decodeZ_ok h
        simp only [encode, BitVec.reduceToNat]
        omega
    · cases h; exact blockWord 6 (by norm_num) hcode
    · cases h; exact blockWord 7 (by norm_num) hcode

end Sys2Proof
end

section
/-! The register window: offsets, the values that reads return and the bits that writes store. -/

namespace Sys2Proof.Machine

/-! ## Masks -/

/-- A mask of `n` bits from bit `k` on, as a number. -/
theorem nat_and_fieldMask (x k n : Nat) : x &&& (2 ^ n - 1) * 2 ^ k = x / 2 ^ k % 2 ^ n * 2 ^ k := by
  have hdiv : (x &&& (2 ^ n - 1) * 2 ^ k) / 2 ^ k = x / 2 ^ k % 2 ^ n := by
    rw [Nat.and_div_two_pow, Nat.mul_div_cancel _ (by positivity), Nat.and_two_pow_sub_one_eq_mod]
  have hmod : (x &&& (2 ^ n - 1) * 2 ^ k) % 2 ^ k = 0 := by
    rw [Nat.and_mod_two_pow, Nat.mul_mod_left, Nat.and_zero]
  rw [← hdiv, Nat.div_mul_cancel (Nat.dvd_of_mod_eq_zero hmod)]

/-- A word under a mask of `n` bits from bit `k` on. -/
theorem toNat_and_fieldMask (v m : Word) {k n : Nat} (hm : m.toNat = (2 ^ n - 1) * 2 ^ k) :
    (v &&& m).toNat = v.toNat / 2 ^ k % 2 ^ n * 2 ^ k := by
  rw [BitVec.toNat_and, hm, nat_and_fieldMask]

/-- A word under a mask of its low `n` bits. -/
theorem and_lowMask (v m : Word) {n : Nat} (hm : m.toNat = 2 ^ n - 1) :
    v &&& m = BitVec.ofNat 32 (v.toNat % 2 ^ n) := by
  have hnum := toNat_and_fieldMask v m (k := 0) (n := n) (by simpa using hm)
  rw [pow_zero, Nat.div_one, mul_one] at hnum
  rw [← hnum, BitVec.ofNat_toNat, BitVec.setWidth_eq]

theorem dimField_eq (w : Word) : dimField w = w.toNat % 65536 := by simp [dimField]

/-- What a write leaves in CTRL, as a number (10_state.md R27). -/
theorem ctrlAfterWrite_toNat (old v : Word) :
    (ctrlAfterWrite old v).toNat =
      v.toNat / 4 % 16 * 4 + (if v.toNat % 4 ≤ 1 then v.toNat % 4 else old.toNat % 4) := by
  have hmode : (v &&& 0x3C).toNat = v.toNat / 4 % 16 * 4 := toNat_and_fieldMask v 0x3C (k := 2) (n := 4) rfl
  have hlow : ∀ w : Word, (w &&& 0x3).toNat = w.toNat % 4 := fun w => by
    simpa using toNat_and_fieldMask w 0x3 (k := 0) (n := 2) rfl
  have hlegal : v &&& 0x2 = 0 ↔ v.toNat % 4 ≤ 1 := by
    rw [← BitVec.toNat_inj, toNat_and_fieldMask v 0x2 (k := 1) (n := 1) rfl]
    simp
    omega
  have hor : ∀ a b, b < 4 → a * 4 ||| b = a * 4 + b := fun a b hb => by
    simpa [Nat.shiftLeft_eq] using (Nat.shiftLeft_add_eq_or_of_lt (i := 2) hb a).symm
  rw [ctrlAfterWrite, BitVec.toNat_or, hmode]
  simp only [hlegal]
  split <;> rw [hlow, hor _ _ (Nat.mod_lt _ (by norm_num))]

/-- What a write leaves in CTRL (10_state.md R27). -/
theorem ctrlAfterWrite_eq (old v : Word) :
    ctrlAfterWrite old v = BitVec.ofNat 32 (v.toNat / 4 % 16 * 4 +
      (if v.toNat % 4 ≤ 1 then v.toNat % 4 else old.toNat % 4)) := by
  rw [← ctrlAfterWrite_toNat, BitVec.ofNat_toNat, BitVec.setWidth_eq]

/-- STATUS as a number: BUSY and twice PVALID (10_state.md R29). -/
theorem State.statusWord_eq (s : State) :
    s.statusWord = BitVec.ofNat 32 ((if s.phase = .busy then 1 else 0) + (if s.pvalid then 2 else 0)) := by
  unfold State.statusWord State.isBusy
  cases s.phase <;> cases s.pvalid <;> rfl

/-- BLK_CNT counts the blocks of the canvas (10_state.md R39). -/
theorem State.readReg_blkCnt (s : State) :
    s.readReg .blkCnt = BitVec.ofNat 32 (s.padW.toNat % 65536 / 8 * (s.padH.toNat % 65536 / 8)) := by
  rw [State.readReg, State.pw, State.ph, dimField_eq, dimField_eq]

/-- QTAB's registers hold the step table, row by row (10_state.md R40). -/
theorem State.readReg_qtab (s : State) {x y : Nat} (hx : x < 8) (hy : y < 8) :
    s.readReg (.qtab ⟨8 * x + y, by omega⟩) = BitVec.ofNat 32 (s.qtable x y) := by
  simp only [State.readReg, State.qtable, Nat.mod_eq_of_lt hx, Nat.mod_eq_of_lt hy]
  exact (BitVec.ofNat_toNat 32 _).symm

/-! ## Offsets -/

/-- A register's offset lies in the register window and is aligned (10_state.md R23). -/
theorem Reg.ofOffset_some {a : Nat} {r : Reg} (h : Reg.ofOffset a = some r) : a < 0x1000 ∧ a % 4 = 0 := by
  unfold Reg.ofOffset at h
  split at h
  case h_17 =>
    split at h
    next hwin =>
      split at h
      next halign => exact ⟨by omega, halign⟩
      next => cases h
    next => cases h
  all_goals decide

/-- The offset of a QTAB register (10_state.md R40). -/
theorem Reg.ofOffset_qtab {k : Nat} (hk : k < 64) : Reg.ofOffset (0x800 + 4 * k) = some (.qtab ⟨k, hk⟩) := by
  have hdiv : (0x800 + 4 * k - 0x800) / 4 = k := by omega
  unfold Reg.ofOffset
  split
  case h_17 =>
    rw [dif_pos (by omega), if_pos (by omega)]
    simp only [hdiv]
  all_goals omega

/-- A 4-byte access at a register's offset goes to the register, busy or not (20_memory.md R52). -/
theorem State.target_reg {addr : Offset} {r : Reg} (h : Reg.ofOffset addr.toNat = some r) (s : State) :
    s.target .word addr = .ok (.reg r) := by
  obtain ⟨hwin, halign⟩ := Reg.ofOffset_some h
  simp [State.target, accessTarget, registerTarget, Size.bytes, hwin, halign, h]

/-! ## Accesses -/

/-- A 4-byte read at a register's offset answers the register's value (20_memory.md R52, R59). -/
theorem hostStep_readReg {s : State} {addr : Offset} {rest : List HostOp} {r : Reg}
    (hop : s.host = .read .word addr :: rest) (hr : Reg.ofOffset addr.toNat = some r) :
    hostStep s = .next { s with host := rest, response := some (.data (s.readReg r)) } := by
  simp only [hostStep, hop, hostRead, State.target_reg hr]
  cases r <;> rfl

/-- A 4-byte write at the offset of a register other than CMD answers OKAY and does what the register's rule says
(20_memory.md R52). -/
theorem hostStep_writeReg {s : State} {addr : Offset} {v : Word} {rest : List HostOp} {r : Reg}
    (hop : s.host = .write .word addr v :: rest) (hr : Reg.ofOffset addr.toNat = some r) (hcmd : r ≠ .cmd) :
    hostStep s = .next (State.writeReg { s with host := rest, response := some .okay } v r) := by
  simp only [hostStep, hop, hostWrite, State.target_reg hr]
  cases r
  case cmd => exact absurd rfl hcmd
  all_goals rfl

/-- While idle a write to a locked register goes through (10_state.md R46). -/
theorem State.busyLocked_idle {s : State} (h : s.phase = .idle) (t : State) : s.busyLocked t = t := by
  simp [State.busyLocked, State.isBusy, h]

/-- While idle a 4-byte write to a locked register answers OKAY and stores. -/
theorem hostStep_writeReg_locked {s t : State} {addr : Offset} {v : Word} {rest : List HostOp} {r : Reg}
    (hidle : s.phase = .idle) (hop : s.host = .write .word addr v :: rest) (hr : Reg.ofOffset addr.toNat = some r)
    (hcmd : r ≠ .cmd)
    (hlocked : State.writeReg { s with host := rest, response := some .okay } v r =
      State.busyLocked { s with host := rest, response := some .okay } t) :
    hostStep s = .next t := by
  rw [hostStep_writeReg hop hr hcmd, hlocked,
    State.busyLocked_idle (s := { s with host := rest, response := some .okay }) hidle]

/-- The registers that a write does not change (10_state.md R48), CMD apart. -/
def Reg.readOnly : Reg → Bool
  | .id | .version | .cap | .status | .errCode | .errCmd | .padW | .padH | .blkCnt | .qtab _ => true
  | .ctrl | .cmd | .irqStatus | .irqEnable | .inW | .inH | .clampCnt => false

theorem State.writeReg_readOnly {r : Reg} (h : r.readOnly = true) (s : State) (v : Word) : s.writeReg v r = s := by
  cases r
  case ctrl | cmd | irqStatus | irqEnable | inW | inH | clampCnt => cases h
  all_goals rfl

/-- A 4-byte write to a read-only register answers OKAY and changes nothing (10_state.md R48). -/
theorem hostStep_writeReg_readOnly {s : State} {addr : Offset} {v : Word} {rest : List HostOp} {r : Reg}
    (hop : s.host = .write .word addr v :: rest) (hr : Reg.ofOffset addr.toNat = some r) (hro : r.readOnly = true) :
    hostStep s = .next { s with host := rest, response := some .okay } := by
  have hcmd : r ≠ .cmd := fun h => by rw [h] at hro; cases hro
  rw [hostStep_writeReg hop hr hcmd, State.writeReg_readOnly hro]

/-! ## The interrupt line -/

/-- IRQ is 1 where one of the bits 0 to 2 is set and enabled (10_state.md R47). -/
theorem State.irqLine_iff (s : State) :
    s.irqLine = true ↔ ∃ n, n ≤ 2 ∧ s.irqStatus.getLsbD n = true ∧ s.irqEnable.getLsbD n = true := by
  simp only [State.irqLine, Bool.or_eq_true, Bool.and_eq_true]
  constructor
  · rintro ((h | h) | h)
    · exact ⟨0, by norm_num, h⟩
    · exact ⟨1, by norm_num, h⟩
    · exact ⟨2, by norm_num, h⟩
  · rintro ⟨n, hn, h⟩
    interval_cases n
    · exact .inl (.inl h)
    · exact .inl (.inr h)
    · exact .inr h

end Sys2Proof.Machine
end

section
/-! What the Host's step and a presented command can do, said once. -/

namespace Sys2Proof.Machine

/-- Everything a CMD write can do: a rejection, or the acceptance of a legal command whose checks pass
(43_scheduler.md R120). -/
theorem present_cases {w : Word} {s t : State} (h : present w s = .next t) :
    (∃ e, t = s.raise e w) ∨
      ∃ i, s.phase = .idle ∧ decode w = .ok i ∧ commandCheck i s = none ∧ t = s.accept w := by
  cases hs : s.phase with
  | busy =>
    rw [present_busy hs] at h
    exact .inl ⟨.busy, (Host.Outcome.next.inj h).symm⟩
  | idle =>
    cases hd : decode w with
    | error e =>
      rw [present_illegal hs hd] at h
      exact .inl ⟨.illegalCommand, (Host.Outcome.next.inj h).symm⟩
    | ok i =>
      rw [present_legal hs hd] at h
      cases hc : commandCheck i s with
      | some e =>
        rw [exec_rejected hs hc, encode_of_decode hd] at h
        exact .inl ⟨e, (Host.Outcome.next.inj h).symm⟩
      | none =>
        rw [exec_accepted hs hc, encode_of_decode hd] at h
        exact .inr ⟨i, rfl, rfl, hc, (Host.Outcome.next.inj h).symm⟩

/-- Everything the Host's step can do: nothing in the block, a CMD write, or another write where its target is. -/
theorem hostStep_next {s t : State} (h : hostStep s = .next t) :
    (∃ ops r, t = { s with host := ops, response := r }) ∨
      (∃ w ops r, present w { s with host := ops, response := r } = .next t) ∨
      ∃ size addr v g ops r, s.target size addr = .ok g ∧
        t = State.writeTarget { s with host := ops, response := r } size v g := by
  unfold hostStep at h
  split at h
  next => cases h; exact .inl ⟨s.host, s.response, rfl⟩
  next =>
    obtain ⟨g, -, rfl⟩ := hostRead_next h
    exact .inl ⟨_, _, rfl⟩
  next =>
    rcases hostWrite_next h with ⟨-, hw⟩ | ⟨g, -, hg, rfl⟩
    · exact .inr (.inl ⟨_, _, _, hw⟩)
    · exact .inr (.inr ⟨_, _, _, g, _, _, hg, rfl⟩)
  next =>
    obtain ⟨g, -, rfl⟩ := hostPoll_next h
    exact .inl ⟨_, _, rfl⟩

/-- A rejection changes the error capture only (60_exceptions.md R148). -/
theorem State.raise_frame (s : State) (e : CmdError) (w : Word) :
    s.raise e w = { s with errCode := (s.raise e w).errCode, errCmd := (s.raise e w).errCmd,
                           irqStatus := (s.raise e w).irqStatus } := by
  unfold State.raise
  split <;> rfl

end Sys2Proof.Machine
end

section
/-! The invariant of the machine: what each operation keeps of it. -/

namespace Sys2Proof.Machine

/-! ## The part that does not speak of the running command -/

/-- The invariant without its two clauses about a running command: that of the same state at rest. While a command
completes, this part alone is kept from block to block. -/
abbrev State.InvAtRest (s : State) : Prop := State.Inv { s with phase := .idle }

/-- What the invariant says of a running command (10_state.md R46, 43_scheduler.md R123). -/
structure State.RunningInv (s : State) : Prop where
  snapshot : s.engSnap = ⟨s.ctrl, s.inW, s.inH, s.clampCnt⟩
  command : ∃ i, decode s.engCmd = .ok i ∧ commandCheck i s = none

theorem State.Inv.atRest {s : State} (h : s.Inv) : s.InvAtRest :=
  { h with busy_snapshot := nofun, busy_command := nofun }

theorem State.Inv.running {s : State} (h : s.Inv) (hb : s.phase = .busy) : s.RunningInv :=
  ⟨h.busy_snapshot hb, h.busy_command hb⟩

theorem State.InvAtRest.inv {s : State} (h : s.InvAtRest) (hrun : s.phase = .busy → s.RunningInv) : s.Inv :=
  { h with busy_snapshot := fun hb => (hrun hb).snapshot, busy_command := fun hb => (hrun hb).command }

/-- The error capture, IRQ_STATUS, IRQ_ENABLE, the host and the turns are nothing that a running command reads. -/
theorem State.RunningInv.frame {s : State} (h : s.RunningInv) (irqStatus irqEnable errCode errCmd : Word)
    (host : List HostOp) (turns : List Turn) (response : Option Response) :
    State.RunningInv { s with irqStatus, irqEnable, errCode, errCmd, host, turns, response } where
  snapshot := h.snapshot
  command := by
    obtain ⟨i, hd, hc⟩ := h.command
    exact ⟨i, hd, by cases i <;> exact hc⟩

/-! ## Masks -/

theorem or_and_eq_zero {a b m : Word} (ha : a &&& m = 0) (hb : b &&& m = 0) : (a ||| b) &&& m = 0 := by
  rw [BitVec.and_or_distrib_right, ha, hb]; rfl

theorem and_and_eq_zero (a : Word) {b m : Word} (h : b &&& m = 0) : a &&& b &&& m = 0 := by
  rw [BitVec.and_assoc, h]; simp

theorem and_and_eq_zero_of_left {a m : Word} (h : a &&& m = 0) (b : Word) : a &&& b &&& m = 0 := by
  rw [BitVec.and_assoc, BitVec.and_comm b, ← BitVec.and_assoc, h]; simp

/-- CTRL stays legal under a write (10_state.md R27). -/
theorem ctrlAfterWrite_reserved (old v : Word) : ctrlAfterWrite old v &&& 0xFFFFFFC0 = 0 := by
  refine or_and_eq_zero (and_and_eq_zero v (by decide)) ?_
  split <;> exact and_and_eq_zero _ (by decide)

theorem ctrlAfterWrite_padMode {old : Word} (h : old &&& 0x2 = 0) (v : Word) : ctrlAfterWrite old v &&& 0x2 = 0 := by
  refine or_and_eq_zero (and_and_eq_zero v (by decide)) ?_
  split
  next hv => exact and_and_eq_zero_of_left hv 0x3
  next => exact and_and_eq_zero_of_left h 0x3

/-! ## The Host's accesses -/

theorem CmdError.code_le (e : CmdError) : e.code.toNat ≤ 7 := by cases e <;> decide

/-- A rejection keeps the invariant at rest (60_exceptions.md R146, R148). -/
theorem State.InvAtRest.raise {s : State} (h : s.InvAtRest) (e : CmdError) (w : Word) : (s.raise e w).InvAtRest := by
  unfold State.raise
  split
  · exact { h with busy_snapshot := nofun, busy_command := nofun,
                   irqStatus_reserved := or_and_eq_zero h.irqStatus_reserved (by decide), errCode_legal := e.code_le }
  · exact { h with busy_snapshot := nofun, busy_command := nofun,
                   irqStatus_reserved := or_and_eq_zero h.irqStatus_reserved (by decide) }

theorem State.Inv.raise {s : State} (h : s.Inv) (e : CmdError) (w : Word) : (s.raise e w).Inv := by
  refine (h.atRest.raise e w).inv fun hb => ?_
  rw [State.raise_frame]
  rw [State.raise_phase] at hb
  exact (h.running hb).frame ..

/-- A locked write keeps what the write itself keeps. -/
theorem State.InvAtRest.busyLocked {s t : State} (hs : s.InvAtRest) (ht : t.InvAtRest) :
    (s.busyLocked t).InvAtRest := by
  unfold State.busyLocked
  split
  · exact hs
  · exact ht

theorem State.InvAtRest.writeReg {s : State} (h : s.InvAtRest) (v : Word) (r : Reg) : (s.writeReg v r).InvAtRest := by
  cases r
  case ctrl =>
    exact h.busyLocked { h with busy_snapshot := nofun, busy_command := nofun,
                                ctrl_reserved := ctrlAfterWrite_reserved _ _,
                                ctrl_padMode := ctrlAfterWrite_padMode h.ctrl_padMode v }
  case irqStatus =>
    exact { h with busy_snapshot := nofun, busy_command := nofun,
                   irqStatus_reserved := and_and_eq_zero_of_left h.irqStatus_reserved _ }
  case irqEnable =>
    exact { h with busy_snapshot := nofun, busy_command := nofun,
                   irqEnable_reserved := and_and_eq_zero v (by decide) }
  case inW =>
    exact h.busyLocked { h with busy_snapshot := nofun, busy_command := nofun,
                                inW_reserved := and_and_eq_zero v (by decide) }
  case inH =>
    exact h.busyLocked { h with busy_snapshot := nofun, busy_command := nofun,
                                inH_reserved := and_and_eq_zero v (by decide) }
  case clampCnt => exact h.busyLocked { h with busy_snapshot := nofun, busy_command := nofun }
  all_goals exact h

theorem State.InvAtRest.store {s : State} (h : s.InvAtRest) (cells : List Host.Cell) : (s.store cells).InvAtRest :=
  { h with busy_snapshot := nofun, busy_command := nofun, mem_wf := Memory.store_wf h.mem_wf cells }

theorem State.InvAtRest.writeTarget {s : State} (h : s.InvAtRest) (size : Size) (v : Word) (g : Target) :
    (s.writeTarget size v g).InvAtRest := by
  cases g with
  | reg r => exact h.writeReg v r
  | sample b a =>
    cases b
    case input => exact h.store _
    all_goals exact h
  | coef a => exact h

/-- A write that gets OKAY keeps the invariant: a running command is out of its reach (10_state.md R46). -/
theorem State.Inv.writeTarget {s : State} (h : s.Inv) {size : Size} {addr : Offset} {g : Target}
    (hg : s.target size addr = .ok g) (v : Word) : (s.writeTarget size v g).Inv := by
  refine (h.atRest.writeTarget size v g).inv fun hb => ?_
  have hb : s.phase = .busy := by rwa [State.writeTarget_frame] at hb
  rw [State.writeTarget_busy hb hg]
  exact (h.running hb).frame ..

/-- The host's and the model's own fields are nothing that the invariant speaks of. -/
theorem State.Inv.ownFields {s : State} (h : s.Inv) (host : List HostOp) (turns : List Turn)
    (response : Option Response) : State.Inv { s with host, turns, response } :=
  State.InvAtRest.inv { h.atRest with busy_snapshot := nofun, busy_command := nofun } fun hb => (h.running hb).frame ..

/-- Acceptance keeps the invariant: the snapshot is fresh, and the checks have just passed (43_scheduler.md R120). -/
theorem State.Inv.accept {s : State} (h : s.Inv) {w : Word} {i : Instr} (hd : decode w = .ok i)
    (hc : commandCheck i s = none) : (s.accept w).Inv :=
  State.InvAtRest.inv { h.atRest with busy_snapshot := nofun, busy_command := nofun } fun _ =>
    ⟨rfl, i, hd, by cases i <;> exact hc⟩

theorem present_keeps_inv {w : Word} {s t : State} (hs : s.Inv) (h : present w s = .next t) : t.Inv := by
  rcases present_cases h with ⟨e, rfl⟩ | ⟨i, -, hd, hc, rfl⟩
  · exact hs.raise e w
  · exact hs.accept hd hc

theorem hostStep_keeps_inv {s t : State} (hs : s.Inv) (h : hostStep s = .next t) : t.Inv := by
  rcases hostStep_next h with ⟨ops, r, rfl⟩ | ⟨w, ops, r, hw⟩ | ⟨size, addr, v, g, ops, r, hg, rfl⟩
  · exact hs.ownFields ops s.turns r
  · exact present_keeps_inv (hs.ownFields ops s.turns r) hw
  · exact (hs.ownFields ops s.turns r).writeTarget (addr := addr) hg v

end Sys2Proof.Machine
end

section
/-! The invariant of the machine: what the completion of a command and a reset keep of it. -/

namespace Sys2Proof.Machine

/-! ## The canvas -/

theorem State.InvAtRest.pw_le {s : State} (h : s.InvAtRest) : s.pw ≤ 1024 := by
  have hcanvas := h.canvas
  rw [State.pw, dimField_eq]
  split at hcanvas
  next => exact (Nat.mod_le _ _).trans hcanvas.1.2.2
  next => simp [show s.padW = 0 from hcanvas.1]

/-- A padded dimension that passes the checks of PAD is a dimension of a canvas (40_padder.md R80, R81). -/
theorem canvasDim_padDim {n : Nat} (h0 : n ≠ 0) (hmax : padDim n ≤ 1024) :
    CanvasDim (BitVec.ofNat 32 (padDim n)).toNat := by
  rw [BitVec.toNat_ofNat, Nat.mod_eq_of_lt (by omega)]
  unfold padDim at *
  exact ⟨Nat.dvd_mul_left 8 _, by omega, hmax⟩

/-- The dimensions of an input that passes the checks of PAD (40_padder.md R81). -/
theorem dimensionCheck_none {s : State} (h : dimensionCheck s = none) :
    dimField s.inW ≠ 0 ∧ dimField s.inH ≠ 0 ∧ padDim (dimField s.inW) ≤ 1024 ∧ padDim (dimField s.inH) ≤ 1024 := by
  unfold dimensionCheck at h
  split at h
  next => cases h
  next hzero =>
    split at h
    next => cases h
    next hmax =>
      obtain ⟨hw0, hh0⟩ := not_or.mp hzero
      obtain ⟨hw, hh⟩ := not_or.mp hmax
      exact ⟨hw0, hh0, not_lt.mp hw, not_lt.mp hh⟩

/-- A block that passes the checks of FWDB lies in the grid (41_forward_quantize.md R94). -/
theorem blockCheck_none {p q : Nat} {s : State} (h : blockCheck p q s = none) : s.inGrid p q = true := by
  unfold blockCheck at h
  split at h
  next =>
    split at h
    next hgrid => exact hgrid
    next => cases h
  next => cases h

theorem invbCheck_none {p q : Nat} {s : State} (h : invbCheck p q s = none) : s.inGrid p q = true := by
  unfold invbCheck at h
  split at h
  next => cases h
  next hblock => exact blockCheck_none hblock

/-! ## One block -/

/-- A store and the tag of a grid block keep the invariant at rest. -/
theorem State.InvAtRest.store_setTag {s : State} (h : s.InvAtRest) {p q : Nat} (hgrid : s.inGrid p q = true)
    (cells : List Host.Cell) (g : Tag) : ((s.store cells).setTag p q g).InvAtRest := by
  have hq : q < 1024 := by
    have hpw := h.pw_le
    have hq := (State.inGrid_iff.mp hgrid).2
    omega
  have htag : ∀ p' q', q' < 1024 → ((s.store cells).setTag p q g).tag p' q' ≠ .empty → s.inGrid p' q' = true := by
    intro p' q' hq' hne
    rw [State.tag_setTag (s := s.store cells) h.tags_wf p q g hq hq'] at hne
    split at hne
    next hb => rw [hb.1, hb.2]; exact hgrid
    next => exact h.tags_in_grid p' q' hq' hne
  exact { h with busy_snapshot := nofun, busy_command := nofun, mem_wf := Memory.store_wf h.mem_wf cells,
                 tags_wf := State.setTag_wf (s := s) h.tags_wf p q g, tags_in_grid := htag }

theorem forwardBlock_keeps_invAtRest {p q : Nat} {s : State} (h : s.InvAtRest) (hgrid : s.inGrid p q = true) :
    (forwardBlock p q s).InvAtRest := h.store_setTag hgrid _ _

theorem inverseBlock_keeps_invAtRest {p q : Nat} {s : State} (h : s.InvAtRest) (hgrid : s.inGrid p q = true) :
    (inverseBlock p q s).InvAtRest := h.store_setTag hgrid _ _

@[simp] theorem forwardBlock_pw (p q : Nat) (s : State) : (forwardBlock p q s).pw = s.pw := by
  rw [forwardBlock, State.setTag_pw, State.store_pw]
@[simp] theorem forwardBlock_ph (p q : Nat) (s : State) : (forwardBlock p q s).ph = s.ph := by
  rw [forwardBlock, State.setTag_ph, State.store_ph]
@[simp] theorem inverseBlock_pw (p q : Nat) (s : State) : (inverseBlock p q s).pw = s.pw := by
  rw [inverseBlock, State.setTag_pw, State.store_pw]
@[simp] theorem inverseBlock_ph (p q : Nat) (s : State) : (inverseBlock p q s).ph = s.ph := by
  rw [inverseBlock, State.setTag_ph, State.store_ph]

/-! ## A pass over the grid -/

/-- The invariant at rest over a canvas of `ph` rows and `pw` columns: what a pass over the grid keeps. -/
def State.InvOnCanvas (ph pw : Nat) (s : State) : Prop := s.InvAtRest ∧ s.ph = ph ∧ s.pw = pw

/-- A pass of functions that keep the canvas, and that keep the invariant at rest on grid blocks, keeps it. -/
theorem foldl_grid_keeps_invAtRest {f : Nat × Nat → State → State}
    (hpw : ∀ b s, (f b s).pw = s.pw) (hph : ∀ b s, (f b s).ph = s.ph)
    (hf : ∀ b s, s.InvAtRest → s.inGrid b.1 b.2 = true → (f b s).InvAtRest) {s : State} (h : s.InvAtRest) :
    (s.grid.foldl (fun t b => f b t) s).InvAtRest := by
  have hpass := foldl_blocks_keeps (f := f) (P := State.InvOnCanvas s.ph s.pw) s.grid (fun b hb t ht => ?_) s
    ⟨h, rfl, rfl⟩
  · exact hpass.1
  · obtain ⟨ht, htph, htpw⟩ := ht
    obtain ⟨hp, hq⟩ := State.mem_grid.mp hb
    have hgrid : t.inGrid b.1 b.2 = true := State.inGrid_iff.mpr (by omega)
    exact ⟨hf b t ht hgrid, (hph b t).trans htph, (hpw b t).trans htpw⟩

theorem fwdEffect_keeps_invAtRest {s : State} (h : s.InvAtRest) : (fwdEffect s).InvAtRest :=
  foldl_grid_keeps_invAtRest (f := fun b t => forwardBlock b.1 b.2 t)
    (fun b t => forwardBlock_pw b.1 b.2 t) (fun b t => forwardBlock_ph b.1 b.2 t)
    (fun _ _ => forwardBlock_keeps_invAtRest) h

theorem invEffect_keeps_invAtRest {s : State} (h : s.InvAtRest) : (invEffect s).InvAtRest :=
  foldl_grid_keeps_invAtRest (f := fun b t => inverseBlock b.1 b.2 t)
    (fun b t => inverseBlock_pw b.1 b.2 t) (fun b t => inverseBlock_ph b.1 b.2 t)
    (fun _ _ => inverseBlock_keeps_invAtRest) h

theorem interleavedPass_keeps_invAtRest {s : State} (h : s.InvAtRest) : (interleavedPass s).InvAtRest :=
  foldl_grid_keeps_invAtRest (f := fun b t => inverseBlock b.1 b.2 (forwardBlock b.1 b.2 t))
    (fun b t => by rw [inverseBlock_pw, forwardBlock_pw]) (fun b t => by rw [inverseBlock_ph, forwardBlock_ph])
    (fun b t ht hgrid => inverseBlock_keeps_invAtRest (forwardBlock_keeps_invAtRest ht hgrid)
      (by rw [State.inGrid, forwardBlock_pw, forwardBlock_ph]; exact hgrid)) h

/-! ## The commands -/

/-- PAD keeps the invariant at rest where the snapshot's dimensions pass its checks (40_padder.md R81, R83). -/
theorem padEffect_keeps_invAtRest {s : State} (h : s.InvAtRest) (hrun : s.RunningInv)
    (hc : dimensionCheck s = none) : (padEffect s).InvAtRest := by
  obtain ⟨hw0, hh0, hw, hh⟩ := dimensionCheck_none hc
  have hsnapW : s.engSnap.inW = s.inW := by rw [hrun.snapshot]
  have hsnapH : s.engSnap.inH = s.inH := by rw [hrun.snapshot]
  rw [padEffect_frame, hsnapW, hsnapH]
  exact { h with busy_snapshot := nofun, busy_command := nofun, mem_wf := Memory.store_wf h.mem_wf _, tags_wf := rfl,
                 canvas := ⟨canvasDim_padDim hw0 hw, canvasDim_padDim hh0 hh⟩,
                 tags_in_grid := fun _ _ _ hne => absurd rfl hne }

theorem reasmEffect_keeps_invAtRest {s : State} (h : s.InvAtRest) : (reasmEffect s).InvAtRest := by
  have hirq : (reasmEffect s).irqStatus &&& 0xFFFFFFF0 = 0 := by
    rw [reasmEffect_frame]
    simp only
    split
    · exact or_and_eq_zero h.irqStatus_reserved (by decide)
    · exact h.irqStatus_reserved
  exact { h with busy_snapshot := nofun, busy_command := nofun, mem_wf := Memory.store_wf h.mem_wf _,
                 irqStatus_reserved := hirq }

theorem runEffect_keeps_invAtRest {s : State} (h : s.InvAtRest) (hrun : s.RunningInv)
    (hc : dimensionCheck s = none) : (runEffect s).InvAtRest := by
  have hpad := padEffect_keeps_invAtRest h hrun hc
  refine reasmEffect_keeps_invAtRest ?_
  split
  · exact invEffect_keeps_invAtRest (fwdEffect_keeps_invAtRest hpad)
  · exact interleavedPass_keeps_invAtRest hpad

/-- The effect of a command whose checks still pass keeps the invariant at rest. -/
theorem commandEffect_keeps_invAtRest {i : Instr} {s : State} (h : s.InvAtRest) (hrun : s.RunningInv)
    (hc : commandCheck i s = none) : (commandEffect i s).InvAtRest := by
  cases i with
  | nop => exact h
  | pad => exact padEffect_keeps_invAtRest h hrun hc
  | fwd => exact fwdEffect_keeps_invAtRest h
  | inv => exact invEffect_keeps_invAtRest h
  | reasm => exact reasmEffect_keeps_invAtRest h
  | run => exact runEffect_keeps_invAtRest h hrun hc
  | fwdb p q => exact forwardBlock_keeps_invAtRest h (blockCheck_none hc)
  | invb p q => exact inverseBlock_keeps_invAtRest h (invbCheck_none hc)

/-! ## The agents -/

/-- R122's end leaves the Engine at rest. -/
theorem State.InvAtRest.finish {s : State} (h : s.InvAtRest) : s.finish.Inv :=
  { h with busy_snapshot := nofun, busy_command := nofun,
           irqStatus_reserved := or_and_eq_zero h.irqStatus_reserved (by decide) }

theorem engineStep_keeps_inv {s t : State} (hs : s.Inv) (h : engineStep s = .next t) : t.Inv := by
  cases hb : s.phase with
  | idle =>
    rw [engineStep_idle hb] at h
    cases h
    exact hs
  | busy =>
    obtain ⟨i, hd, hc⟩ := (hs.running hb).command
    rw [engineStep_completes hb hd] at h
    cases h
    exact (commandEffect_keeps_invAtRest hs.atRest (hs.running hb) hc).finish

/-- A reset step meets the invariant, whatever it interrupts: of the state before it, only QTAB is kept
(70_reset_and_hazards.md R165). -/
theorem resetStep_inv (image : List Host.Cell) {s : State} (hqtab : ∀ k : Fin 64, s.qtab[k.val]'k.isLt ≠ 0) :
    (resetStep image s).Inv where
  mem_wf := Memory.ofImage_wf image
  tags_wf := rfl
  ctrl_reserved := BitVec.zero_and
  ctrl_padMode := BitVec.zero_and
  irqStatus_reserved := BitVec.zero_and
  irqEnable_reserved := BitVec.zero_and
  errCode_legal := Nat.zero_le 7
  inW_reserved := BitVec.zero_and
  inH_reserved := BitVec.zero_and
  canvas := ⟨rfl, rfl⟩
  qtab_positive := hqtab
  tags_in_grid := fun _ _ _ hne => absurd rfl hne
  busy_snapshot := nofun
  busy_command := nofun

theorem step_keeps_inv {s t : State} (hs : s.Inv) (h : step s = .next t) : t.Inv := by
  obtain ⟨u, ⟨ts, rfl⟩, hmove⟩ := step_next h
  have hu := hs.ownFields s.host ts s.response
  rcases hmove with hhost | hengine | ⟨image, rfl⟩
  · exact hostStep_keeps_inv hu hhost
  · exact engineStep_keeps_inv hu hengine
  · exact resetStep_inv image hu.qtab_positive

/-! ## Power-on -/

/-- Every entry of the parameter QTABLE is at least 1 (00_scope.md R6). -/
theorem qtableParameter_positive (k : Fin 64) : qtableParameter[k.val]'k.isLt ≠ 0 := by
  have hlt := (Config.qtableLessOne k).isLt
  intro h0
  have h0 := congrArg BitVec.toNat h0
  simp [qtableParameter] at h0
  omega

/-- Power-on is a reset step that leaves empty buffers. -/
theorem State.reset_eq_resetStep : State.reset = resetStep [] State.reset := rfl

theorem State.reset_inv : State.reset.Inv := by
  rw [State.reset_eq_resetStep]
  exact resetStep_inv [] qtableParameter_positive

/-- Where every tag is EMPTY, no coefficient needs a bound. -/
theorem State.reset_coefBounded : State.reset.CoefBounded := fun _ _ _ _ _ _ _ _ => ⟨nofun, nofun⟩

end Sys2Proof.Machine
end

section
/-! The obligations of 10_state.md. -/

namespace Sys2Proof.Proofs

open Sys2Proof.Machine

/-- Settles O24: the part of the invariant that speaks of the state at rest is kept by each write, block and pass, and
the part that speaks of a running command by what the Host can change while BUSY. -/
theorem everyStepKeepsTheInvariant : Obligations.EveryStepKeepsTheInvariant := fun _ _ => step_keeps_inv

/-- Settles O30: a CMD write is rejected with BUSY, and any other write reaches the two interrupt registers at most. -/
theorem hostAccessesLeaveARunningCommandAlone : Obligations.HostAccessesLeaveARunningCommandAlone := by
  intro s t hb h
  rcases hostStep_next h with ⟨ops, r, rfl⟩ | ⟨w, ops, r, hw⟩ | ⟨size, addr, v, g, ops, r, hg, rfl⟩
  · rfl
  · rw [present_busy (s := { s with host := ops, response := r }) hb] at hw
    cases hw
    rw [State.raise_frame]
  · rw [State.writeTarget_busy (s := { s with host := ops, response := r }) (addr := addr) hb hg]

/-- Settles O32: the offset names one register, and a read of it answers what the register's rule gives. -/
theorem registersReadTheirFields : Obligations.RegistersReadTheirFields := by
  intro s addr rest hop reads
  have reads_reg : ∀ {a : Nat} {r : Reg} {v : Word}, Reg.ofOffset a = some r → s.readReg r = v → reads a v :=
    fun hr hv ha => by rw [← hv]; exact hostStep_readReg hop (ha ▸ hr)
  exact ⟨reads_reg (r := .id) rfl rfl, reads_reg (r := .version) rfl rfl, reads_reg (r := .cap) rfl rfl,
    reads_reg (r := .ctrl) rfl rfl, reads_reg (r := .cmd) rfl rfl, reads_reg (r := .status) rfl s.statusWord_eq,
    reads_reg (r := .irqStatus) rfl rfl, reads_reg (r := .irqEnable) rfl rfl, reads_reg (r := .errCode) rfl rfl,
    reads_reg (r := .errCmd) rfl rfl, reads_reg (r := .inW) rfl rfl, reads_reg (r := .inH) rfl rfl,
    reads_reg (r := .padW) rfl rfl, reads_reg (r := .padH) rfl rfl, reads_reg (r := .clampCnt) rfl rfl,
    reads_reg (r := .blkCnt) rfl s.readReg_blkCnt,
    fun x y hx hy => reads_reg (Reg.ofOffset_qtab (k := 8 * x + y) (by omega)) (s.readReg_qtab hx hy)⟩

/-- Settles O33: while idle the write is not locked out, and the masks of its rule are the fields of a number. -/
theorem ctrlWritesAreLegalised : Obligations.CtrlWritesAreLegalised := by
  intro s v rest hidle hop
  rw [← ctrlAfterWrite_eq]
  exact hostStep_writeReg_locked (r := .ctrl) hidle hop rfl (by decide) rfl

/-- Settles O34: each write stores what its register's rule says, a locked register's while idle. -/
theorem registerWritesStoreTheirFields : Obligations.RegisterWritesStoreTheirFields := by
  intro s v rest
  have henable : BitVec.ofNat 32 (v.toNat % 8) = v &&& 0x7 := (and_lowMask v 0x7 (n := 3) rfl).symm
  have hdim : BitVec.ofNat 32 (v.toNat % 65536) = v &&& 0xFFFF := (and_lowMask v 0xFFFF (n := 16) rfl).symm
  rw [henable, hdim]
  exact ⟨fun hop => hostStep_writeReg (r := .irqStatus) hop rfl (by decide),
    fun hop => hostStep_writeReg (r := .irqEnable) hop rfl (by decide),
    fun hidle hop => hostStep_writeReg_locked (r := .inW) hidle hop rfl (by decide) rfl,
    fun hidle hop => hostStep_writeReg_locked (r := .inH) hidle hop rfl (by decide) rfl,
    fun hidle hop => hostStep_writeReg_locked (r := .clampCnt) hidle hop rfl (by decide) rfl⟩

/-- Settles O25: power-on is a reset step, and it leaves every tag EMPTY. -/
theorem resetMeetsTheInvariant : Obligations.ResetMeetsTheInvariant := ⟨State.reset_inv, State.reset_coefBounded⟩

/-- Settles O36: each offset names a register whose write rule leaves the state as it was (10_state.md R48). -/
theorem readOnlyRegisterWritesChangeNothing : Obligations.ReadOnlyRegisterWritesChangeNothing := by
  intro s addr v rest hop haddr
  have hreg : ∃ r, Reg.ofOffset addr.toNat = some r ∧ r.readOnly = true := by
    rcases haddr with hlist | ⟨k, hk, haddr⟩
    · have named : ∀ a ∈ [0x000, 0x004, 0x008, 0x014, 0x020, 0x024, 0x030, 0x034, 0x03C],
          ((Reg.ofOffset a).map Reg.readOnly) = some true := by decide
      exact Option.map_eq_some_iff.mp (named _ hlist)
    · exact ⟨_, haddr ▸ Reg.ofOffset_qtab hk, rfl⟩
  obtain ⟨r, hr, hro⟩ := hreg
  exact hostStep_writeReg_readOnly hop hr hro

/-- Settles O37: the line is the disjunction of the three enabled bits, and bit 3 is none of them. -/
theorem irqLineFollowsTheEnabledBits : Obligations.IrqLineFollowsTheEnabledBits := by
  refine ⟨State.irqLine_iff, fun s b => ?_, rfl⟩
  have hbits : ∀ n ≤ 2, ((s.irqStatus &&& ~~~0x8) ||| (if b then 0x8 else 0)).getLsbD n = s.irqStatus.getLsbD n := by
    intro n hn
    interval_cases n <;> cases b <;> simp
  rw [Bool.eq_iff_iff, State.irqLine_iff, State.irqLine_iff]
  exact exists_congr fun n => and_congr_right fun hn => by rw [hbits n hn]

end Sys2Proof.Proofs
end

section
/-! The aperture: where an access goes and which accesses get BUSERR, and what an access that gets OKAY moves. -/

namespace Sys2Proof.Machine

/-! ## Bytes of the buffer memory -/

theorem Memory.readLe_lt (m : Memory) : ∀ a n : Nat, m.readLe a n < 256 ^ n
  | _, 0 => by simp [Memory.readLe]
  | a, n + 1 => by
    have hbyte := (m.readByte a).isLt
    have htail := Memory.readLe_lt m (a + 1) n
    rw [Memory.readLe, pow_succ]
    omega

/-- A number read from memory is its low bytes and its high bytes (20_memory.md R57). -/
theorem Memory.readLe_add (m : Memory) (n : Nat) :
    ∀ a j : Nat, m.readLe a (j + n) = m.readLe a j + 256 ^ j * m.readLe (a + j) n
  | a, 0 => by simp [Memory.readLe]
  | a, j + 1 => by
    rw [Nat.add_right_comm, Memory.readLe, Memory.readLe, Memory.readLe_add m n (a + 1) j, Nat.add_right_comm a 1 j,
      pow_succ, Nat.add_assoc a j 1]
    ring

/-- The bytes of a number read from memory are the bytes there: `n` of them from the `j`-th on (20_memory.md R57). -/
theorem Memory.readLe_slice (m : Memory) (a : Nat) {j n l : Nat} (h : j + n ≤ l) :
    m.readLe a l / 256 ^ j % 256 ^ n = m.readLe (a + j) n := by
  obtain ⟨k, rfl⟩ := Nat.exists_eq_add_of_le h
  rw [Nat.add_assoc j n k, Memory.readLe_add m (n + k) a j, Nat.add_mul_div_left _ _ (by positivity),
    Nat.div_eq_of_lt (m.readLe_lt a j), Nat.zero_add, Memory.readLe_add m k (a + j) n, Nat.add_mul_mod_self_left,
    Nat.mod_eq_of_lt (m.readLe_lt _ _)]

/-- The `k`-th byte of a number read from memory is the byte there (20_memory.md R57). -/
theorem Memory.readLe_byte (m : Memory) (a : Nat) {k l : Nat} (h : k < l) :
    m.readLe a l / 256 ^ k % 256 = (m.readByte (a + k)).toNat := by
  simpa [Memory.readLe] using Memory.readLe_slice m a (j := k) (n := 1) h

/-- The halves of a coefficient are its low and its high four bytes (20_memory.md R55). -/
theorem Memory.coef_half (m : Memory) (r c : Nat) {j : Nat} (hj : j + 4 ≤ 8) :
    (m.coef r c).extractLsb' (8 * j) 32 = BitVec.ofNat 32 (m.readLe (coefAddr r c + j) 4) := by
  have hcoef : m.readLe (coefAddr r c) 8 < 2 ^ 64 := m.readLe_lt _ 8
  apply BitVec.eq_of_toNat_eq
  rw [BitVec.extractLsb'_toNat, Memory.coef, BitVec.toNat_ofNat, BitVec.toNat_ofNat, Nat.mod_eq_of_lt hcoef,
    Nat.shiftRight_eq_div_pow, ← Memory.readLe_slice m _ hj, pow_mul]
  exact (Nat.mod_mod _ _).symm

/-- The bytes of a number stored whole are the number's. -/
theorem Memory.readByte_store_leCells {m : Memory} (h : m.wf = true) (a v : Nat) {n k : Nat} (hk : k < n) :
    (m.store (leCells a n v)).readByte (a + k) = BitVec.ofNat 8 (v / 256 ^ k) := by
  have hnd : ((leCells a n v).map Prod.fst).Nodup := by rw [leCells_keys]; exact List.nodup_range'
  exact Memory.readByte_store_mem h hnd (mem_leCells.mpr ⟨k, hk, rfl⟩)

/-- Every byte outside a number stored whole reads as before. -/
theorem Memory.readByte_store_leCells_frame {m : Memory} (h : m.wf = true) {a n b : Nat} (v : Nat)
    (hb : b < a ∨ a + n ≤ b) : (m.store (leCells a n v)).readByte b = m.readByte b :=
  Memory.readByte_store_frame h fun e he heq => by
    obtain ⟨k, hk, rfl⟩ := mem_leCells.mp he
    simp only at heq
    omega

/-! ## Where an access goes -/

theorem Size.bytes_eq_four {size : Size} : size.bytes = 4 ↔ size = .word := by cases size <;> decide

theorem State.isBusy_iff (s : State) : s.isBusy = true ↔ s.phase = .busy := by simp [State.isBusy]

/-- The aligned offsets at which a register stands (10_state.md R23). -/
theorem Reg.ofOffset_isSome_iff {a : Nat} (halign : a % 4 = 0) :
    (Reg.ofOffset a).isSome = true ↔ a < 0x40 ∨ (0x800 ≤ a ∧ a < 0x900) := by
  constructor
  · unfold Reg.ofOffset
    split
    case h_17 =>
      split
      next hwin => exact fun _ => .inr hwin
      next => nofun
    all_goals exact fun _ => by decide
  · obtain ⟨k, rfl⟩ := Nat.dvd_of_mod_eq_zero halign
    rintro (hlow | hqtab)
    · have named : ∀ k < 16, (Reg.ofOffset (4 * k)).isSome = true := by decide
      exact named k (by omega)
    · have hk : 4 * k = 0x800 + 4 * (k - 0x200) := by omega
      rw [hk, Reg.ofOffset_qtab (by omega)]
      rfl

/-- The bus errors of the register window (20_memory.md R52). -/
theorem registerTarget_error_iff (n a : Nat) :
    (∃ f, registerTarget n a = .error f) ↔ n ≠ 4 ∨ a % 4 ≠ 0 ∨ ¬(a < 0x40 ∨ (0x800 ≤ a ∧ a < 0x900)) := by
  unfold registerTarget
  split_ifs with hsize halign
  · exact iff_of_true ⟨_, rfl⟩ (.inl hsize)
  · exact iff_of_true ⟨_, rfl⟩ (.inr (.inl halign))
  · rw [← Reg.ofOffset_isSome_iff (not_not.mp halign)]
    cases Reg.ofOffset a <;> simp [hsize, halign]

/-- Every offset of a window names an element, since the windows are exactly as large as the buffers
(20_memory.md R53, R55). -/
theorem elementExists_of_lt {o : Nat} (h : o < 0x100000) :
    elementExists (o / Config.stride) (o % Config.stride) = true := by
  simp only [elementExists, Bool.and_eq_true, decide_eq_true_eq]
  exact ⟨Nat.div_lt_of_lt_mul h, Nat.mod_lt _ (by norm_num)⟩

/-- In a sample window BUSY and the alignment alone stop an access (20_memory.md R54, R56). -/
theorem accessTarget_sample {b : SampleBuf} {a : Nat} (busy : Bool) (n : Nat) (hlo : b.base ≤ a)
    (hhi : a < b.base + 0x100000) :
    accessTarget busy n a =
      if busy then .error .busBufferBusy
      else if a % n ≠ 0 then .error .busSampleMisaligned
      else .ok (.sample b a) := by
  have hwindow : accessTarget busy n a = sampleTarget busy b n a := by
    unfold accessTarget
    cases b <;> simp only [SampleBuf.base] at hlo hhi
    · rw [if_neg (by omega), if_neg (by omega), if_pos (by omega)]
    · rw [if_neg (by omega), if_neg (by omega), if_neg (by omega), if_pos (by omega)]
    · rw [if_neg (by omega), if_neg (by omega), if_neg (by omega), if_neg (by omega), if_pos (by omega)]
  have hexists := elementExists_of_lt (o := a - b.base) (by omega)
  rw [hwindow, sampleTarget, if_pos hexists]

/-- In the coefficient window BUSY, the size and the alignment alone stop an access (20_memory.md R55, R56). -/
theorem accessTarget_coef {a : Nat} (busy : Bool) (n : Nat) (hlo : 0x800000 ≤ a) (hhi : a < 0x1000000) :
    accessTarget busy n a =
      if busy then .error .busBufferBusy
      else if n ≠ 4 then .error .busCoefSize
      else if a % 4 ≠ 0 then .error .busCoefMisaligned
      else .ok (.coef a) := by
  have hwindow : accessTarget busy n a = coefTarget busy n a := by
    unfold accessTarget
    rw [if_neg (by omega), if_neg (by omega), if_neg (by omega), if_neg (by omega), if_neg (by omega),
      if_neg (by omega)]
  have hexists := elementExists_of_lt (o := (a - coefBase) / 8) (by unfold coefBase; omega)
  rw [hwindow, coefTarget, if_pos hexists]

/-- The sample windows lie side by side (20_memory.md R51). -/
theorem exists_sampleWindow {a : Nat} (hlo : 0x100000 ≤ a) (hhi : a < 0x400000) :
    ∃ b : SampleBuf, b.base ≤ a ∧ a < b.base + 0x100000 := by
  obtain h | h | h : a < 0x200000 ∨ (0x200000 ≤ a ∧ a < 0x300000) ∨ 0x300000 ≤ a := by omega
  · exact ⟨.input, hlo, h⟩
  · exact ⟨.psrc, h⟩
  · exact ⟨.out, h, hhi⟩

/-- An access goes nowhere in exactly the listed cases (60_exceptions.md R150). -/
theorem accessTarget_error_iff (busy : Bool) (n : Nat) {a : Nat} (ha : a < 0x1000000) :
    (∃ f, accessTarget busy n a = .error f) ↔ BusErrorCase (busy = true) n a := by
  unfold BusErrorCase
  obtain h | ⟨hlo, hhi⟩ | ⟨hlo, hhi⟩ | ⟨hlo, hhi⟩ | h : a < 0x1000 ∨ (0x1000 ≤ a ∧ a < 0x100000) ∨
      (0x100000 ≤ a ∧ a < 0x400000) ∨ (0x400000 ≤ a ∧ a < 0x800000) ∨ 0x800000 ≤ a := by omega
  · rw [accessTarget, if_pos h, registerTarget_error_iff]
    grind
  · rw [accessTarget, if_neg (by omega), if_pos hhi]
    exact iff_of_true ⟨_, rfl⟩ (.inl ⟨hlo, hhi⟩)
  · obtain ⟨b, hb⟩ := exists_sampleWindow hlo hhi
    have herror : (∃ f, accessTarget busy n a = .error f) ↔ busy = true ∨ a % n ≠ 0 := by
      rw [accessTarget_sample busy n hb.1 hb.2]
      split_ifs <;> simp [*]
    grind
  · rw [accessTarget, if_neg (by omega), if_neg (by omega), if_neg (by omega), if_neg (by omega), if_neg (by omega),
      if_pos hhi]
    exact iff_of_true ⟨_, rfl⟩ (.inr (.inl ⟨hlo, hhi⟩))
  · have herror : (∃ f, accessTarget busy n a = .error f) ↔ busy = true ∨ n ≠ 4 ∨ a % 4 ≠ 0 := by
      rw [accessTarget_coef busy n h ha]
      split_ifs <;> simp [*]
    grind

/-- In the register window no bus error depends on BUSY (20_memory.md R56). -/
theorem busErrorCase_register {n a : Nat} (h : a < 0x1000) {busy busy' : Prop} :
    BusErrorCase busy n a ↔ BusErrorCase busy' n a := by
  have hsample : ¬0x100000 ≤ a := by omega
  have hcoef : ¬0x800000 ≤ a := by omega
  simp only [BusErrorCase, hsample, hcoef, false_and]

/-- The rows of a sample buffer keep the alignment of the columns (20_memory.md R53). -/
theorem sample_offset_mod (b : SampleBuf) (size : Size) (r c : Nat) :
    (b.base + r * 1024 + c) % size.bytes = c % size.bytes := by
  have hbase : b.base % 4 = 0 := by cases b <;> rfl
  cases size <;> simp only [Size.bytes] <;> omega

/-- While idle the alignment alone stops an access of a sample window (20_memory.md R54). -/
theorem State.target_sample_idle {s : State} {b : SampleBuf} {addr : Offset} (hidle : s.phase = .idle) (size : Size)
    (hlo : b.base ≤ addr.toNat) (hhi : addr.toNat < b.base + 0x100000) :
    s.target size addr =
      if addr.toNat % size.bytes ≠ 0 then .error .busSampleMisaligned else .ok (.sample b addr.toNat) := by
  rw [State.target, accessTarget_sample _ _ hlo hhi, State.isBusy, hidle]
  rfl

/-- While idle an aligned word of the coefficient window is accessed (20_memory.md R55). -/
theorem State.target_coef_idle {s : State} {addr : Offset} (hidle : s.phase = .idle) (hlo : 0x800000 ≤ addr.toNat)
    (halign : addr.toNat % 4 = 0) : s.target .word addr = .ok (.coef addr.toNat) := by
  rw [State.target, accessTarget_coef _ _ hlo addr.isLt, State.isBusy, hidle]
  simp [Size.bytes, halign]

/-- A host access goes nowhere in exactly the listed cases (60_exceptions.md R150). -/
theorem State.target_error_iff (s : State) (size : Size) (addr : Offset) :
    (∃ f, s.target size addr = .error f) ↔ BusErrorCase (s.phase = .busy) size.bytes addr.toNat := by
  rw [← State.isBusy_iff]
  exact accessTarget_error_iff s.isBusy size.bytes addr.isLt

/-! ## What the Host's step answers -/

/-- The bytes a host operation moves at a time. -/
def HostOp.size : HostOp → Size
  | .read size _ => size
  | .write size _ _ => size
  | .poll _ _ _ => .word

/-- The offset a host operation names. -/
def HostOp.addr : HostOp → Offset
  | .read _ addr => addr
  | .write _ addr _ => addr
  | .poll addr _ _ => addr

theorem hostRead_fault_iff {size : Size} {addr : Offset} {s : State} {f : Fault} :
    hostRead size addr s = .fault f ↔ s.target size addr = .error f := by
  unfold hostRead
  cases s.target size addr <;> simp

/-- A CMD write is no fault, whatever becomes of the command. -/
theorem hostWrite_fault_iff {size : Size} {addr : Offset} {v : Word} {s : State} {f : Fault} :
    hostWrite size addr v s = .fault f ↔ s.target size addr = .error f := by
  unfold hostWrite
  split
  next => simp_all
  next hcmd =>
    obtain ⟨t, ht⟩ := present_next v (s.respond .okay)
    simp [hcmd, ht]
  next => simp_all

theorem hostPoll_fault_iff {addr : Offset} {mask value : Word} {s : State} {f : Fault} :
    hostPoll addr mask value s = .fault f ↔ s.target .word addr = .error f := by
  unfold hostPoll
  cases s.target .word addr with
  | error e => simp
  | ok g => simp only [reduceCtorEq, iff_false]; split <;> nofun

/-- The Host's step is a fault where its access goes nowhere, and only there (60_exceptions.md R150). -/
theorem hostStep_fault_iff {s : State} {op : HostOp} {rest : List HostOp} (hop : s.host = op :: rest) {f : Fault} :
    hostStep s = .fault f ↔ s.target op.size op.addr = .error f := by
  unfold hostStep
  rw [hop]
  cases op with
  | read size addr => exact hostRead_fault_iff
  | write size addr v => exact hostWrite_fault_iff
  | poll addr mask value => exact hostPoll_fault_iff

/-- A host access gets BUSERR in exactly the listed cases (60_exceptions.md R150). -/
theorem exists_hostStep_fault_iff {s : State} {op : HostOp} {rest : List HostOp} (hop : s.host = op :: rest) :
    (∃ f, hostStep s = .fault f) ↔ BusErrorCase (s.phase = .busy) op.size.bytes op.addr.toNat :=
  (exists_congr fun _ => hostStep_fault_iff hop).trans (s.target_error_iff op.size op.addr)

/-- A read that gets OKAY answers the value and changes nothing of the block (20_memory.md R59). -/
theorem hostStep_read {s : State} {size : Size} {addr : Offset} {rest : List HostOp} {g : Target}
    (hop : s.host = .read size addr :: rest) (hg : s.target size addr = .ok g) :
    hostStep s = .next { s with host := rest, response := some (.data (s.readTarget size g)) } := by
  have htarget : State.target { s with host := rest } size addr = .ok g := hg
  have hvalue : State.readTarget { s with host := rest } size g = s.readTarget size g := by
    cases g with
    | reg r => cases r <;> rfl
    | sample b a => rfl
    | coef a => rfl
  simp only [hostStep, hop, hostRead, htarget, hvalue]
  rfl

/-- A read of samples answers the number of their bytes, zero-extended (20_memory.md R54). -/
theorem State.readTarget_sample_toNat (s : State) (size : Size) (b : SampleBuf) (a : Nat) :
    (s.readTarget size (.sample b a)).toNat = s.mem.readLe a size.bytes := by
  have hfits : 256 ^ size.bytes ≤ 2 ^ 32 := by cases size <;> decide
  rw [State.readTarget, BitVec.toNat_ofNat, Nat.mod_eq_of_lt ((s.mem.readLe_lt a size.bytes).trans_le hfits)]

/-- A write that gets OKAY, not to CMD, does what its target says (20_memory.md R59). -/
theorem hostStep_write {s : State} {size : Size} {addr : Offset} {v : Word} {rest : List HostOp} {g : Target}
    (hop : s.host = .write size addr v :: rest) (hg : s.target size addr = .ok g) (hcmd : g ≠ .reg .cmd) :
    hostStep s = .next (State.writeTarget { s with host := rest, response := some .okay } size v g) := by
  have htarget : State.target { s with host := rest } size addr = .ok g := hg
  simp only [hostStep, hop, hostWrite, htarget]
  rfl

end Sys2Proof.Machine
end

section
/-! The obligations of 20_memory.md. -/

namespace Sys2Proof.Proofs

open Sys2Proof.Machine

/-- Settles O39: BUSY stops every access of the sample and the coefficient windows, and no case of the register window
speaks of it. -/
theorem bufferWindowsFaultWhileBusy : Obligations.BufferWindowsFaultWhileBusy := by
  intro s size addr v mask rest hbusy hop
  obtain ⟨op, haddr, hop⟩ : ∃ op : HostOp, op.addr = addr ∧ s.host = op :: rest := by
    rcases hop with hop | hop | hop <;> exact ⟨_, rfl, hop⟩
  have hidle : State.host { s with phase := .idle } = op :: rest := hop
  rw [exists_hostStep_fault_iff hop, exists_hostStep_fault_iff hidle, haddr]
  refine ⟨fun hbuf => ?_, fun hreg => ?_⟩
  · obtain ⟨hlo, hhi⟩ | ⟨hlo, -⟩ : (0x100000 ≤ addr.toNat ∧ addr.toNat < 0x400000) ∨
        (0x800000 ≤ addr.toNat ∧ addr.toNat < 0x1000000) := by simpa [inBuffers] using hbuf
    · exact .inr (.inr (.inr (.inl ⟨hlo, hhi, .inl hbusy⟩)))
    · exact .inr (.inr (.inr (.inr ⟨hlo, .inl hbusy⟩)))
  · exact busErrorCase_register hreg

/-- Settles O40: a sample access moves the bytes at its own offset, and an element is one byte. -/
theorem sampleWindowAccessesMoveElements : Obligations.SampleWindowAccessesMoveElements := by
  intro s b size addr v rest r c hidle hwf hr hc haddr
  have htarget : s.target size addr =
      if c % size.bytes ≠ 0 then .error .busSampleMisaligned else .ok (.sample b addr.toNat) := by
    rw [State.target_sample_idle (b := b) hidle size (by omega) (by omega), haddr, sample_offset_mod]
  have hsample : ∀ (m : Memory) (k : Nat), m.sample b r (c + k) = m.readByte (addr.toNat + k) := fun m k => by
    rw [haddr, Memory.sample, sampleAddr, Nat.add_assoc (b.base + r * 1024) c k]
  refine ⟨fun halign => ?_, fun hmis hop => ?_⟩
  · rw [if_neg (not_not.mpr halign)] at htarget
    refine ⟨fun hop => ⟨_, hostStep_read hop htarget, ?_⟩, ?_, ?_⟩
    · rw [State.readTarget_sample_toNat]
      exact ⟨fun k hk => by rw [hsample, Memory.readLe_byte s.mem addr.toNat hk], Memory.readLe_lt _ _ _⟩
    · rintro hop rfl
      refine ⟨_, hostStep_write hop htarget nofun, rfl, fun k hk => ?_, fun a ha => ?_⟩
      · rw [hsample]
        exact congrArg BitVec.toNat (Memory.readByte_store_leCells hwf addr.toNat v.toNat hk)
      · exact Memory.readByte_store_leCells_frame hwf v.toNat ha
    · intro hop hb
      rw [hostStep_write hop htarget nofun]
      cases b
      case input => exact absurd rfl hb
      all_goals rfl
  · rw [if_pos hmis] at htarget
    rcases hop with hop | hop <;> exact (hostStep_fault_iff hop).mpr htarget

/-- Settles O41: the word at a coefficient's offset is its low half and the word after it the high one; the bus errors of
the window are those of size and alignment. -/
theorem coefficientWindowReadsTheTwoHalves : Obligations.CoefficientWindowReadsTheTwoHalves := by
  intro s addr rest r c hidle hr hc
  have htarget : 0x800000 ≤ addr.toNat → addr.toNat % 4 = 0 → s.target .word addr = .ok (.coef addr.toNat) :=
    State.target_coef_idle hidle
  have hread : ∀ j, j + 4 ≤ 8 → j % 4 = 0 → addr.toNat = 0x800000 + 8 * (r * 1024 + c) + j →
      s.host = .read .word addr :: rest → hostStep s =
        .next { s with host := rest, response := some (.data ((s.mem.coef r c).extractLsb' (8 * j) 32)) } := by
    intro j hj halign haddr hop
    have hvalue : s.readTarget .word (.coef addr.toNat) = (s.mem.coef r c).extractLsb' (8 * j) 32 := by
      rw [Memory.coef_half s.mem r c hj, haddr]
      rfl
    rw [hostStep_read hop (htarget (by omega) (by omega)), hvalue]
  refine ⟨hread 0 (by norm_num) rfl, hread 4 (by norm_num) rfl, fun v hlo halign hop => ?_,
    fun size v hlo hbad hop => ?_⟩
  · rw [hostStep_write hop (htarget hlo halign) nofun]
    rfl
  · have hcase : BusErrorCase (s.phase = .busy) size.bytes addr.toNat :=
      .inr (.inr (.inr (.inr ⟨hlo, .inr (hbad.imp_left (mt Size.bytes_eq_four.mp))⟩)))
    rcases hop with hop | hop <;> exact (exists_hostStep_fault_iff hop).mpr hcase

/-- Settles O42: an access outside the bus errors' cases goes somewhere, and a read there answers only. -/
theorem readsHaveNoSideEffect : Obligations.ReadsHaveNoSideEffect := by
  intro s size addr rest hop hokay
  cases htarget : s.target size addr with
  | error f => exact absurd ((s.target_error_iff size addr).mp ⟨f, htarget⟩) hokay
  | ok g => exact ⟨_, hostStep_read hop htarget⟩

end Sys2Proof.Proofs
end

section
/-! What the decoder answers to a word, by the word's number, and what it makes of an encoding. -/

namespace Sys2Proof

/-- A Z-format word is illegal exactly if it has something above RSV (30_encoding.md R71, R74). -/
theorem decodeZ_error_iff (i : Instr) (w : Word) : (∃ e, decodeZ i w = .error e) ↔ w.toNat / 4096 ≠ 0 := by
  have hhigh : w.extractLsb' 12 20 = 0 ↔ w.toNat / 4096 = 0 := by
    have := w.isLt
    simp [← BitVec.toNat_inj, Nat.shiftRight_eq_div_pow]
    omega
  rw [Ne, ← hhigh, decodeZ]
  split
  next hz => simp [hz]
  next hz => exact iff_of_true ⟨_, rfl⟩ hz

theorem fieldBrow_lt (w : Word) : fieldBrow w < 1024 := (w.extractLsb' 12 10).isLt

theorem fieldBcol_lt (w : Word) : fieldBcol w < 1024 := (w.extractLsb' 22 10).isLt

theorem wellFormed_fwdb_iff (p q : Nat) : (Instr.fwdb p q).WellFormed ↔ p < 1024 ∧ q < 1024 := by
  simp [Instr.WellFormed, Instr.wellFormed]

theorem wellFormed_invb_iff (p q : Nat) : (Instr.invb p q).WellFormed ↔ p < 1024 ∧ q < 1024 := by
  simp [Instr.WellFormed, Instr.wellFormed]

/-- A word with one of the codes 0 to 5 and RSV 0 is legal as a Z-format word only (30_encoding.md R71, R72). -/
theorem decode_zFormat {w : Word} (hop : (fieldOp w).toNat ≤ 5) (hrsv : fieldRsv w = 0) :
    ∃ i : Instr, i.WellFormed ∧ decode w = decodeZ i w := by
  have hlegal : ¬ 8 ≤ (fieldOp w).toNat := by omega
  simp only [decode, if_neg hlegal, hrsv]
  generalize (fieldOp w).toNat = op at hop
  interval_cases op
  all_goals exact ⟨_, rfl, rfl⟩

theorem decode_fwdb {w : Word} (hop : (fieldOp w).toNat = 6) (hrsv : fieldRsv w = 0) :
    decode w = .ok (.fwdb (fieldBrow w) (fieldBcol w)) := by simp [decode, hop, hrsv]

theorem decode_invb {w : Word} (hop : (fieldOp w).toNat = 7) (hrsv : fieldRsv w = 0) :
    decode w = .ok (.invb (fieldBrow w) (fieldBcol w)) := by simp [decode, hop, hrsv]

/-- What the decoder does with a word, by OP and RSV: it refuses the word, reads it as a Z-format word, or finds a
well-formed command in it (30_encoding.md R71 to R74). -/
theorem decode_cases (w : Word) :
    ((8 ≤ w.toNat % 16 ∨ w.toNat / 16 % 256 ≠ 0) ∧ ∃ e, decode w = .error e) ∨
    (w.toNat % 16 ≤ 5 ∧ w.toNat / 16 % 256 = 0 ∧ ∃ i : Instr, i.WellFormed ∧ decode w = decodeZ i w) ∨
    ((w.toNat % 16 = 6 ∨ w.toNat % 16 = 7) ∧ w.toNat / 16 % 256 = 0 ∧
      ∃ i : Instr, i.WellFormed ∧ decode w = .ok i) := by
  have hrsv : fieldRsv w = 0 ↔ w.toNat / 16 % 256 = 0 := by rw [← BitVec.toNat_inj, fieldRsv_toNat]; rfl
  rw [← fieldOp_toNat, Ne, ← hrsv]
  have hfit : fieldBrow w < 1024 ∧ fieldBcol w < 1024 := ⟨fieldBrow_lt w, fieldBcol_lt w⟩
  by_cases hop : 8 ≤ (fieldOp w).toNat
  · exact .inl ⟨.inl hop, _, if_pos hop⟩
  by_cases h0 : fieldRsv w = 0
  · obtain hz | h6 | h7 : (fieldOp w).toNat ≤ 5 ∨ (fieldOp w).toNat = 6 ∨ (fieldOp w).toNat = 7 := by omega
    · exact .inr (.inl ⟨hz, h0, decode_zFormat hz h0⟩)
    · exact .inr (.inr ⟨.inl h6, h0, _, (wellFormed_fwdb_iff _ _).mpr hfit, decode_fwdb h6 h0⟩)
    · exact .inr (.inr ⟨.inr h7, h0, _, (wellFormed_invb_iff _ _).mpr hfit, decode_invb h7 h0⟩)
  · exact .inl ⟨.inr h0, _, by rw [decode, if_neg hop, if_pos h0]⟩

/-- The decoder finds well-formed commands only (30_encoding.md R73). -/
theorem wellFormed_of_decode {w : Word} {i : Instr} (h : decode w = .ok i) : i.WellFormed := by
  obtain ⟨-, e, he⟩ | ⟨-, -, j, hj, hd⟩ | ⟨-, -, j, hj, hd⟩ := decode_cases w
  · cases he.symm.trans h
  · obtain ⟨rfl, -⟩ := decodeZ_ok (hd.symm.trans h)
    exact hj
  · cases hd.symm.trans h
    exact hj

/-- Exactly the words of 30_encoding.md R74's three cases are illegal. -/
theorem decode_error_iff (w : Word) :
    (∃ e, decode w = .error e) ↔
      (8 ≤ w.toNat % 16 ∨ w.toNat / 16 % 256 ≠ 0 ∨ (w.toNat % 16 ≤ 5 ∧ w.toNat / 4096 ≠ 0)) := by
  obtain ⟨hcase, he⟩ | ⟨hop, hrsv, j, -, hd⟩ | ⟨hop, hrsv, j, -, hd⟩ := decode_cases w
  · exact iff_of_true he (hcase.imp_right .inl)
  · rw [hd, decodeZ_error_iff]
    omega
  · exact iff_of_false (by simp [hd]) (by omega)

/-- The block-row field of a B-format encoding (30_encoding.md R73, R76). -/
theorem fieldBrow_encodeB {op p q : Nat} (hop : op < 4096) (hp : p < 1024) (hq : q < 1024) :
    fieldBrow (encodeB op p q) = p := by
  rw [fieldBrow_eq, encodeB_toNat hop hp hq]
  omega

/-- The block-column field of a B-format encoding (30_encoding.md R73, R76). -/
theorem fieldBcol_encodeB {op p q : Nat} (hop : op < 4096) (hp : p < 1024) (hq : q < 1024) :
    fieldBcol (encodeB op p q) = q := by
  rw [fieldBcol_eq, encodeB_toNat hop hp hq]
  omega

end Sys2Proof
end

section
/-! The obligations about the encoding. -/

namespace Sys2Proof.Proofs

open Sys2Proof.Machine

/-- Settles O2: a B-format encoding's OP, RSV and block fields read back; the six Z-format words are constants. -/
theorem decodeOfEncodeIsTheCommand : Obligations.DecodeOfEncodeIsTheCommand := by
  intro i hwf
  cases i with
  | nop | pad | fwd | inv | reasm | run => rfl
  | fwdb p q =>
    obtain ⟨hp, hq⟩ := (wellFormed_fwdb_iff p q).mp hwf
    obtain ⟨hop, hrsv⟩ := Laws.OpcodeField.fwdb p q
    rw [decode_fwdb hop hrsv, encode, fieldBrow_encodeB (by norm_num) hp hq, fieldBcol_encodeB (by norm_num) hp hq]
  | invb p q =>
    obtain ⟨hp, hq⟩ := (wellFormed_invb_iff p q).mp hwf
    obtain ⟨hop, hrsv⟩ := Laws.OpcodeField.invb p q
    rw [decode_invb hop hrsv, encode, fieldBrow_encodeB (by norm_num) hp hq, fieldBcol_encodeB (by norm_num) hp hq]

/-- Settles O3: a legal word is the encoding of a well-formed command, and O2 is the converse. -/
theorem decodedWordsAreEncodings : Obligations.DecodedWordsAreEncodings := by
  refine fun w i => ⟨fun h => ⟨wellFormed_of_decode h, encode_of_decode h⟩, ?_⟩
  rintro ⟨hwf, rfl⟩
  exact decodeOfEncodeIsTheCommand i hwf

/-- Settles O4: the decoder refuses exactly R74's three cases, and an idle core captures the error. -/
theorem illegalWordsAreRejected : Obligations.IllegalWordsAreRejected :=
  fun w => ⟨decode_error_iff w, fun _ hidle ⟨_, he⟩ => present_illegal hidle he⟩

/-- Settles O1: the decoder runs on the printed Z-format words, B-format words and illegal words. -/
theorem printedWordsDecodeAsPrinted : Obligations.PrintedWordsDecodeAsPrinted :=
  ⟨by decide, by decide, by decide⟩

end Sys2Proof.Proofs
end

section
/-! What a completion writes: the registers of each command, and the bytes it may store to. -/

namespace Sys2Proof.Machine

/-! ## padDim (40_padder.md R80) -/

/-- A multiple of 8 is its own padded dimension (40_padder.md R84). -/
theorem padDim_of_dvd {n : Nat} (h : 8 ∣ n) : padDim n = n := by
  unfold padDim
  omega

/-- padDim(n) is the least multiple of 8 that is at least n (40_padder.md R80). -/
theorem padDim_le_iff {n m : Nat} (h : 8 ∣ m) : padDim n ≤ m ↔ n ≤ m := by
  unfold padDim
  omega

/-! ## The canvas PAD describes -/

/-- The canvas registers read as the dimensions PAD writes, cut to their 16-bit fields (10_state.md R36, R37). -/
theorem dimField_ofNat (n : Nat) : dimField (BitVec.ofNat 32 n) = n % 65536 := by
  rw [dimField_eq, BitVec.toNat_ofNat]
  omega

theorem padEffect_pw (s : State) : (padEffect s).pw = padDim (s.engSnap.inW.toNat % 65536) % 65536 := by
  rw [padEffect, State.pw, State.setCanvas_padW, dimField_ofNat, dimField_eq]

theorem padEffect_ph (s : State) : (padEffect s).ph = padDim (s.engSnap.inH.toNat % 65536) % 65536 := by
  rw [padEffect, State.ph, State.setCanvas_padH, dimField_ofNat, dimField_eq]

/-- PAD_MODE selects REPLICATE where CTRL's two low bits are 1 (10_state.md R27). -/
theorem ctrlPadMode_eq_one_iff (c : Word) : ctrlPadMode c = 1 ↔ c.toNat % 4 = 1 := by
  simp [ctrlPadMode, ← BitVec.toNat_inj]

/-! ## The bytes -/

/-- `m'` is a canonical memory that reads as `m` does outside the bytes `R`. -/
def Memory.AgreesOutside (R : Nat → Prop) (m m' : Memory) : Prop :=
  m'.wf = true ∧ ∀ a, ¬ R a → m'.readByte a = m.readByte a

namespace Memory.AgreesOutside

variable {R R' : Nat → Prop} {m m' m'' : Memory}

theorem refl (h : m.wf = true) : AgreesOutside R m m := ⟨h, fun _ _ => rfl⟩

theorem trans (h : AgreesOutside R m m') (h' : AgreesOutside R m' m'') : AgreesOutside R m m'' :=
  ⟨h'.1, fun a ha => (h'.2 a ha).trans (h.2 a ha)⟩

theorem mono (h : AgreesOutside R m m') (hR : ∀ a, R a → R' a) : AgreesOutside R' m m' :=
  ⟨h.1, fun a ha => h.2 a (mt (hR a) ha)⟩

end Memory.AgreesOutside

open Memory (AgreesOutside)

/-- A stored region of a sample buffer. -/
theorem Memory.store_sampleRegion_agreesOutside {m : Memory} (hm : m.wf = true) (b : SampleBuf) (h w : Nat)
    (f : Nat → Nat → Byte) : AgreesOutside (InSampleRegion b h w) m (m.store (sampleRegion b h w f)) :=
  ⟨Memory.store_wf hm _, fun _ ha => Memory.readByte_store_region_frame hm fun r hr c hc heq =>
    ha ⟨r, c, hr, hc, heq⟩⟩

/-- A stored block of coefficients. -/
theorem Memory.store_coefBlock_agreesOutside {m : Memory} (hm : m.wf = true) (p q : Nat) (f : Nat → Nat → F64) :
    AgreesOutside (InCoefBlock p q) m (m.store (coefBlockCells p q f)) :=
  ⟨Memory.store_wf hm _, fun _ ha => Memory.readByte_store_block_frame hm fun x hx y hy k hk heq =>
    ha ⟨x, y, k, hx, hy, hk, heq⟩⟩

theorem forwardBlock_agreesOutside (p q : Nat) {s : State} (h : s.mem.wf = true) :
    AgreesOutside (InCoefBlock p q) s.mem (forwardBlock p q s).mem := by
  rw [forwardBlock_mem]
  exact Memory.store_coefBlock_agreesOutside h p q _

theorem inverseBlock_agreesOutside (p q : Nat) {s : State} (h : s.mem.wf = true) :
    AgreesOutside (InCoefBlock p q) s.mem (inverseBlock p q s).mem := by
  rw [inverseBlock_mem]
  exact Memory.store_coefBlock_agreesOutside h p q _

/-- A pass over the grid whose block functions each store to their own block stores to the grid's blocks. -/
theorem foldl_grid_agreesOutside {f : Nat × Nat → State → State}
    (hf : ∀ b t, t.mem.wf = true → AgreesOutside (InCoefBlock b.1 b.2) t.mem (f b t).mem) {s : State}
    (h : s.mem.wf = true) :
    AgreesOutside (InCoefGrid s.ph s.pw) s.mem (s.grid.foldl (fun t b => f b t) s).mem := by
  refine foldl_blocks_keeps (P := fun t => AgreesOutside (InCoefGrid s.ph s.pw) s.mem t.mem) s.grid
    (fun b hb t ht => ht.trans ?_) s (.refl h)
  obtain ⟨hp, hq⟩ := State.mem_grid.mp hb
  exact (hf b t ht.1).mono fun a ha => ⟨b.1, b.2, hp, hq, ha⟩

theorem fwdEffect_agreesOutside {s : State} (h : s.mem.wf = true) :
    AgreesOutside (InCoefGrid s.ph s.pw) s.mem (fwdEffect s).mem :=
  foldl_grid_agreesOutside (f := fun b t => forwardBlock b.1 b.2 t)
    (fun b _ ht => forwardBlock_agreesOutside b.1 b.2 ht) h

theorem invEffect_agreesOutside {s : State} (h : s.mem.wf = true) :
    AgreesOutside (InCoefGrid s.ph s.pw) s.mem (invEffect s).mem :=
  foldl_grid_agreesOutside (f := fun b t => inverseBlock b.1 b.2 t)
    (fun b _ ht => inverseBlock_agreesOutside b.1 b.2 ht) h

theorem interleavedPass_agreesOutside {s : State} (h : s.mem.wf = true) :
    AgreesOutside (InCoefGrid s.ph s.pw) s.mem (interleavedPass s).mem :=
  foldl_grid_agreesOutside (f := fun b t => inverseBlock b.1 b.2 (forwardBlock b.1 b.2 t)) (fun b _ ht =>
    have hfwd := forwardBlock_agreesOutside b.1 b.2 ht
    hfwd.trans (inverseBlock_agreesOutside b.1 b.2 hfwd.1)) h

theorem fwdEffect_pw (s : State) : (fwdEffect s).pw = s.pw := by rw [fwdEffect_frame]; rfl
theorem fwdEffect_ph (s : State) : (fwdEffect s).ph = s.ph := by rw [fwdEffect_frame]; rfl

theorem twoPass_agreesOutside {s : State} (h : s.mem.wf = true) :
    AgreesOutside (InCoefGrid s.ph s.pw) s.mem (twoPass s).mem := by
  have hfwd := fwdEffect_agreesOutside h
  have hinv := invEffect_agreesOutside hfwd.1
  rw [fwdEffect_ph, fwdEffect_pw] at hinv
  exact hfwd.trans hinv

/-- PAD stores to the canvas of PSRC (40_padder.md R83). -/
theorem padEffect_agreesOutside {s : State} (h : s.mem.wf = true) :
    AgreesOutside (InSampleRegion .psrc (padDim (s.engSnap.inH.toNat % 65536)) (padDim (s.engSnap.inW.toNat % 65536)))
      s.mem (padEffect s).mem := by
  rw [← dimField_eq, ← dimField_eq]
  exact Memory.store_sampleRegion_agreesOutside h _ _ _ _

/-- REASM stores to the canvas of OUT (44_reassembler.md R137). -/
theorem reasmEffect_agreesOutside {s : State} (h : s.mem.wf = true) :
    AgreesOutside (InSampleRegion .out s.ph s.pw) s.mem (reasmEffect s).mem :=
  Memory.store_sampleRegion_agreesOutside h _ _ _ _

theorem twoPass_frame (s : State) : twoPass s = { s with mem := (twoPass s).mem, tags := (twoPass s).tags } := by
  rw [twoPass, invEffect_frame, fwdEffect_frame]

/-- RUN is PAD, then a change of buffers and tags that stores to the grid's coefficients, then REASM
(43_scheduler.md R127). -/
theorem runEffect_eq_reasmEffect (s : State) :
    ∃ mem tags, runEffect s = reasmEffect { padEffect s with mem := mem, tags := tags } ∧
      ((padEffect s).mem.wf = true →
        AgreesOutside (InCoefGrid (padEffect s).ph (padEffect s).pw) (padEffect s).mem mem) := by
  unfold runEffect
  dsimp only
  split
  next => exact ⟨_, _, congrArg reasmEffect (twoPass_frame _), twoPass_agreesOutside⟩
  next => exact ⟨_, _, congrArg reasmEffect (interleavedPass_frame _), interleavedPass_agreesOutside⟩

theorem InSampleRegion.mono {b : SampleBuf} {h w h' w' a : Nat} (hh : h ≤ h') (hw : w ≤ w')
    (ha : InSampleRegion b h w a) : InSampleRegion b h' w' a := by
  obtain ⟨r, c, hr, hc, rfl⟩ := ha
  exact ⟨r, c, hr.trans_le hh, hc.trans_le hw, rfl⟩

theorem InCoefGrid.mono {h w h' w' a : Nat} (hh : h ≤ h') (hw : w ≤ w') (ha : InCoefGrid h w a) :
    InCoefGrid h' w' a := by
  obtain ⟨p, q, hp, hq, ha⟩ := ha
  exact ⟨p, q, hp.trans_le (Nat.div_le_div_right hh), hq.trans_le (Nat.div_le_div_right hw), ha⟩

/-- RUN stores to its three canvases. A padded dimension of 65536, which no accepted RUN has, reads back as 0, and the
canvas RUN goes over is then the smaller (40_padder.md R80, 10_state.md R36). -/
theorem runEffect_agreesOutside {s : State} (h : s.mem.wf = true) :
    AgreesOutside (StoresTo s .run) s.mem (runEffect s).mem := by
  obtain ⟨mem, tags, hrun, hpass⟩ := runEffect_eq_reasmEffect s
  have hph : (padEffect s).ph ≤ padDim (s.engSnap.inH.toNat % 65536) := padEffect_ph s ▸ Nat.mod_le _ _
  have hpw : (padEffect s).pw ≤ padDim (s.engSnap.inW.toNat % 65536) := padEffect_pw s ▸ Nat.mod_le _ _
  have hpad := padEffect_agreesOutside h
  have hgrid := hpass hpad.1
  have hreasm := reasmEffect_agreesOutside (s := { padEffect s with mem := mem, tags := tags }) hgrid.1
  rw [hrun]
  exact ((hpad.mono fun _ => .inl).trans (hgrid.mono fun _ ha => .inr (.inl (ha.mono hph hpw)))).trans
    (hreasm.mono fun _ ha => .inr (.inr (ha.mono hph hpw)))

/-- Every command's effect stores to the command's own region. -/
theorem commandEffect_agreesOutside (i : Instr) {s : State} (h : s.mem.wf = true) :
    AgreesOutside (StoresTo s i) s.mem (commandEffect i s).mem := by
  cases i with
  | nop => exact .refl h
  | pad => exact padEffect_agreesOutside h
  | fwd => exact fwdEffect_agreesOutside h
  | inv => exact invEffect_agreesOutside h
  | reasm => exact reasmEffect_agreesOutside h
  | run => exact runEffect_agreesOutside h
  | fwdb p q => exact forwardBlock_agreesOutside p q h
  | invb p q => exact inverseBlock_agreesOutside p q h

/-! ## The registers -/

/-- The commands that only transform blocks of COEF: those that write no register (41_forward_quantize.md R94 and R95,
42_inverse_dequantize.md R108 and R109). -/
def onlyTransforms : Instr → Bool
  | .fwd | .inv | .fwdb _ _ | .invb _ _ => true
  | _ => false

/-- What a command's effect writes besides memory: PAD and RUN describe the canvas, REASM and RUN report clamps, NOP and
REASM keep the tags ("Status bits written" of 40_padder.md R83, 41_forward_quantize.md R94 and R95,
42_inverse_dequantize.md R108 and R109, 43_scheduler.md R126 and R127, 44_reassembler.md R137). -/
inductive EffectWrites (s : State) : Instr → State → Prop where
  | nop : EffectWrites s .nop s
  | blocks {i : Instr} (hi : onlyTransforms i = true) (mem : Memory) (tags : TagMap) :
      EffectWrites s i { s with mem := mem, tags := tags }
  | pad (mem : Memory) (tags : TagMap) (pw ph : Nat) :
      EffectWrites s .pad (State.setCanvas { s with mem := mem, tags := tags } pw ph)
  | reasm (mem : Memory) (k : Nat) : EffectWrites s .reasm (State.reportClamps { s with mem := mem } k)
  | run (mem : Memory) (tags : TagMap) (pw ph k : Nat) :
      EffectWrites s .run ((State.setCanvas { s with mem := mem, tags := tags } pw ph).reportClamps k)

theorem commandEffect_writes (i : Instr) (s : State) : EffectWrites s i (commandEffect i s) := by
  cases i with
  | nop => exact .nop
  | pad => exact .pad _ _ _ _
  | fwd => rw [commandEffect, fwdEffect_frame]; exact .blocks rfl _ _
  | inv => rw [commandEffect, invEffect_frame]; exact .blocks rfl _ _
  | reasm => exact .reasm _ _
  | run =>
    obtain ⟨mem, tags, hrun, -⟩ := runEffect_eq_reasmEffect s
    rw [commandEffect, hrun]
    exact .run _ _ _ _ _
  | fwdb p q => rw [commandEffect, forwardBlock_frame]; exact .blocks rfl _ _
  | invb p q => rw [commandEffect, inverseBlock_frame]; exact .blocks rfl _ _

theorem irqDone_getLsbD (n : Nat) : irqDone.getLsbD n = decide (n = 0) := by
  rw [irqDone, show (0x1 : Word) = BitVec.twoPow 32 0 by decide, BitVec.getLsbD_twoPow]
  simp [eq_comm]

theorem irqClamp_getLsbD (n : Nat) : irqClamp.getLsbD n = decide (n = 2) := by
  rw [irqClamp, show (0x4 : Word) = BitVec.twoPow 32 2 by decide, BitVec.getLsbD_twoPow]
  simp [eq_comm]

namespace EffectWrites

variable {i : Instr} {s t : State} (h : EffectWrites s i t)

include h

theorem frame :
    t = { s with irqStatus := t.irqStatus, clampCnt := t.clampCnt, pvalid := t.pvalid, padW := t.padW,
                 padH := t.padH, mem := t.mem, tags := t.tags } := by cases h <;> rfl

/-- Of IRQ_STATUS, CLAMP alone may be set (44_reassembler.md R136). -/
theorem irqStatus_eq : t.irqStatus = s.irqStatus ∨ t.irqStatus = s.irqStatus ||| irqClamp := by
  cases h with
  | nop | blocks | pad => exact .inl rfl
  | reasm | run => exact (ite_eq_or_eq _ _ _).symm

theorem irqBit {n : Nat} (hn : n ≠ 2) : t.irqStatus.getLsbD n = s.irqStatus.getLsbD n := by
  rcases h.irqStatus_eq with heq | heq
  · rw [heq]
  · rw [heq, BitVec.getLsbD_or, irqClamp_getLsbD, decide_eq_false hn, Bool.or_false]

theorem irqBit_kept {n : Nat} (hs : s.irqStatus.getLsbD n = true) : t.irqStatus.getLsbD n = true := by
  rcases h.irqStatus_eq with heq | heq
  · rw [heq, hs]
  · rw [heq, BitVec.getLsbD_or, hs, Bool.true_or]

/-- Only REASM and RUN report clamps. -/
theorem clampReport (hreasm : i ≠ .reasm) (hrun : i ≠ .run) :
    t.irqStatus = s.irqStatus ∧ t.clampCnt = s.clampCnt := by
  cases h with
  | nop | blocks | pad => exact ⟨rfl, rfl⟩
  | reasm => exact absurd rfl hreasm
  | run => exact absurd rfl hrun

/-- Only PAD and RUN describe the canvas. -/
theorem canvas (hpad : i ≠ .pad) (hrun : i ≠ .run) :
    t.pvalid = s.pvalid ∧ t.padW = s.padW ∧ t.padH = s.padH := by
  cases h with
  | nop | blocks | reasm => exact ⟨rfl, rfl, rfl⟩
  | pad => exact absurd rfl hpad
  | run => exact absurd rfl hrun

theorem tags_eq (hi : i = .nop ∨ i = .reasm) : t.tags = s.tags := by
  rcases hi with rfl | rfl
  · cases h with
    | nop => rfl
    | blocks hi => cases hi
  · cases h with
    | reasm => rfl
    | blocks hi => cases hi

end EffectWrites

/-- R122's end sets DONE, bit 0, and no other bit of IRQ_STATUS. -/
theorem State.finish_irqBit (s : State) (n : Nat) :
    s.finish.irqStatus.getLsbD n = (s.irqStatus.getLsbD n || decide (n = 0)) := by
  rw [State.finish_irqStatus, BitVec.getLsbD_or, irqDone_getLsbD]

end Sys2Proof.Machine
end

section
/-! The obligations about the Padder and about what each completion may write. -/

namespace Sys2Proof.Proofs

open Sys2Proof.Machine

/-- Settles O12: PAD's elements read back from the stored canvas, and its registers are those of `State.setCanvas`. -/
theorem padFillsTheCanvas : Obligations.PadFillsTheCanvas := by
  intro s hbusy hwf w h hw hh
  refine ⟨_, exec_completes hbusy, fun r c hr hc => ?_, ?_, ?_, rfl, fun _ _ => rfl, rfl, rfl⟩
  · have hread := padEffect_sample hwf (r := r) (c := c) (by rwa [dimField_eq]) (by rwa [dimField_eq])
      (by rwa [dimField_eq])
    simp only [padElement, padFill, dimField_eq, ctrlPadMode_eq_one_iff] at hread
    exact hread
  · exact (padEffect_pw s).trans (Nat.mod_eq_of_lt (hw.trans_lt (by norm_num)))
  · exact (padEffect_ph s).trans (Nat.mod_eq_of_lt (hh.trans_lt (by norm_num)))

/-- Settles O13: the canvas of whole blocks is the input's own region, where O12 reads the input. -/
theorem padOfWholeBlocksCopiesTheInput : Obligations.PadOfWholeBlocksCopiesTheInput := by
  intro s hbusy hwf w h hw8 hh8 hw hh
  have hpw : padDim w = w := padDim_of_dvd hw8
  have hph : padDim h = h := padDim_of_dvd hh8
  obtain ⟨t, hexec, hread, htw, hth, -⟩ := padFillsTheCanvas s hbusy hwf (hpw.trans_le hw) (hph.trans_le hh)
  refine ⟨t, hexec, htw.trans hpw, hth.trans hph, fun r c hr hc => ?_⟩
  rw [hread r c (hph.symm ▸ hr) (hpw.symm ▸ hc), if_pos ⟨hr, hc⟩]

/-- Settles O22: the effect writes the registers of `EffectWrites`, and R122's end adds DONE and the phase. -/
theorem completionsWriteOnlyTheirRegisters : Obligations.CompletionsWriteOnlyTheirRegisters := by
  intro i s hbusy
  have hw := commandEffect_writes i s
  generalize hu : commandEffect i s = u at hw
  refine ⟨u.finish, by rw [exec_completes hbusy, hu], ?_, ?_, ?_, ?_, ?_, hw.canvas, hw.tags_eq⟩
  · rw [hw.frame]; rfl
  · rw [State.finish_irqBit, decide_eq_true rfl, Bool.or_true]
  · intro n h0 h2
    rw [State.finish_irqBit, decide_eq_false h0, Bool.or_false, hw.irqBit h2]
  · intro hs
    rw [State.finish_irqBit, hw.irqBit_kept hs, Bool.true_or]
  · intro hreasm hrun
    obtain ⟨hirq, hclamp⟩ := hw.clampReport hreasm hrun
    exact ⟨by rw [State.finish_irqBit, hirq, decide_eq_false (by norm_num), Bool.or_false], hclamp⟩

/-- Settles O23: each effect stores to its command's region, and R122's end stores nothing. -/
theorem completionsStoreOnlyToTheirRegions : Obligations.CompletionsStoreOnlyToTheirRegions :=
  fun i _ hbusy hwf => ⟨_, exec_completes hbusy, (commandEffect_agreesOutside i hwf).2⟩

/-- Settles O44: by the division by 8 of `padDim`. -/
theorem paddedDimensionIsTheLeastMultipleOfEight : Obligations.PaddedDimensionIsTheLeastMultipleOfEight := by
  intro n _
  have hdvd : 8 ∣ padDim n := Nat.dvd_mul_left 8 _
  exact ⟨hdvd, (padDim_le_iff hdvd).mp le_rfl, fun m hm => (padDim_le_iff hm).mpr,
    fun hn => (padDim_le_iff (by norm_num)).mpr (by omega)⟩

end Sys2Proof.Proofs
end

section
/-! The forward transform of one block, and passes of a block function over the grid. -/

namespace Sys2Proof.Machine

/-! ## One block -/

/-- FWDB's completion: FDCT of its block, its tag, and R122's end (41_forward_quantize.md R94). -/
theorem exec_fwdb_completes {s : State} (h : s.phase = .busy) (p q : Nat) :
    exec (.fwdb p q) s = .next (forwardBlock p q s).finish := exec_completes h

/-- R93's right side is the model's element of the block (41_forward_quantize.md R92, R93). -/
theorem forwardFormula_eq_fdctElement (s : State) (p q x y : Nat) :
    forwardFormula s p q x y = fdctElement (s.blockSample p q) s.step64 x y := rfl

theorem forwardBlock_coef_eq_formula {s : State} (h : s.mem.wf = true) (p q : Nat) {x y : Nat} (hx : x < 8)
    (hy : y < 8) : (forwardBlock p q s).mem.coef (8 * p + x) (8 * q + y) = forwardFormula s p q x y := by
  rw [forwardBlock_coef h p q hx hy, forwardFormula_eq_fdctElement]

theorem forwardBlock_tag {s : State} (h : TagMap.wf s.tags = true) (p : Nat) {q p' q' : Nat} (hq : q < 1024)
    (hq' : q' < 1024) : (forwardBlock p q s).tag p' q' = if p' = p ∧ q' = q then .qcoef else s.tag p' q' := by
  rw [State.tag, forwardBlock_tags]
  exact State.tag_setTag h p q .qcoef hq hq'

theorem forwardBlock_engSnap (p q : Nat) (s : State) : (forwardBlock p q s).engSnap = s.engSnap := by
  rw [forwardBlock_frame]

theorem forwardBlock_qtab (p q : Nat) (s : State) : (forwardBlock p q s).qtab = s.qtab := by rw [forwardBlock_frame]

/-- The formula of a block reads the samples of the block, the latched CTRL and the table
(41_forward_quantize.md R93). -/
theorem forwardFormula_congr {s t : State} (hsnap : t.engSnap = s.engSnap) (hqtab : t.qtab = s.qtab) {p q : Nat}
    (hsample : ∀ u < 8, ∀ v < 8,
      t.mem.sample .psrc (8 * p + u) (8 * q + v) = s.mem.sample .psrc (8 * p + u) (8 * q + v)) (x y : Nat) :
    forwardFormula t p q x y = forwardFormula s p q x y := by
  simp only [forwardFormula, stepFormula, State.qtable, hsnap, hqtab]
  rw [sum64_congr fun u hu v hv => by rw [hsample u hu v hv]]

/-! ## Passes over blocks -/

/-- A block of the COEF window: 128 × 128 of them fill its 1024 × 1024 elements (20_memory.md R55). -/
def InWindow (b : Nat × Nat) : Prop := b.1 < 128 ∧ b.2 < 128

/-- The two sparse maps are in canonical form. -/
def State.Canonical (s : State) : Prop := s.mem.wf = true ∧ TagMap.wf s.tags = true

/-- A function of one block: it leaves the values `val t b` and the tag `g` in its block `b`, and touches neither the
coefficients and the tag of another block of the window nor what that block's values are computed from ("no coefficient
is read or written outside its owning block", 41_forward_quantize.md R93). -/
structure BlockFunction (f : Nat × Nat → State → State) (val : State → Nat × Nat → Nat → Nat → F64) (g : Tag) :
    Prop where
  canonical : ∀ {b t}, t.Canonical → (f b t).Canonical
  coef_own : ∀ {b t}, t.Canonical → ∀ x < 8, ∀ y < 8, (f b t).blockCoef b.1 b.2 x y = val t b x y
  coef_other : ∀ {b b' t}, t.Canonical → InWindow b → InWindow b' → b' ≠ b → ∀ x < 8, ∀ y < 8,
    (f b t).blockCoef b'.1 b'.2 x y = t.blockCoef b'.1 b'.2 x y
  val_other : ∀ {b b' t}, t.Canonical → InWindow b → InWindow b' → b' ≠ b → val (f b t) b' = val t b'
  tag : ∀ {b t}, t.Canonical → InWindow b → ∀ p q, q < 1024 → (f b t).tag p q = if (p, q) = b then g else t.tag p q

namespace BlockFunction

variable {f : Nat × Nat → State → State} {val : State → Nat × Nat → Nat → Nat → F64} {g : Tag}

/-- A pass leaves the coefficients of a block it does not visit. -/
theorem foldl_coef_other (hf : BlockFunction f val g) {bs : List (Nat × Nat)} (hbs : ∀ b ∈ bs, InWindow b)
    {b' : Nat × Nat} (hb' : InWindow b') (hnot : b' ∉ bs) {x y : Nat} (hx : x < 8) (hy : y < 8) {s : State}
    (hs : s.Canonical) :
    (bs.foldl (fun t b => f b t) s).blockCoef b'.1 b'.2 x y = s.blockCoef b'.1 b'.2 x y := by
  refine (foldl_blocks_keeps (P := fun t => t.Canonical ∧ t.blockCoef b'.1 b'.2 x y = s.blockCoef b'.1 b'.2 x y) bs
    (fun b hb t ⟨ht, heq⟩ => ⟨hf.canonical ht, ?_⟩) s ⟨hs, rfl⟩).2
  rw [hf.coef_other ht (hbs b hb) hb' (fun h => hnot (h ▸ hb)) x hx y hy, heq]

/-- A pass that visits each of its blocks once leaves in each the block's values in the state before the pass: no visit
changes what a later one computes. -/
theorem foldl_coef (hf : BlockFunction f val g) {x y : Nat} (hx : x < 8) (hy : y < 8) {bs : List (Nat × Nat)}
    (hbs : ∀ b ∈ bs, InWindow b) (hnodup : bs.Nodup) {s : State} (hs : s.Canonical) {b' : Nat × Nat} (hb' : b' ∈ bs) :
    (bs.foldl (fun t b => f b t) s).blockCoef b'.1 b'.2 x y = val s b' x y := by
  induction bs generalizing s with
  | nil => cases hb'
  | cons b bs ih =>
    obtain ⟨hnot, hrest⟩ := List.nodup_cons.mp hnodup
    obtain ⟨hb, hbs'⟩ := List.forall_mem_cons.mp hbs
    rw [List.foldl_cons]
    rcases List.mem_cons.mp hb' with rfl | hmem
    · rw [hf.foldl_coef_other hbs' hb hnot hx hy (hf.canonical hs), hf.coef_own hs x hx y hy]
    · rw [ih hbs' hrest (hf.canonical hs) hmem, hf.val_other hs hb (hbs' b' hmem) fun h => hnot (h ▸ hmem)]

/-- A pass gives the tag to exactly the blocks it visits. -/
theorem foldl_tag (hf : BlockFunction f val g) {bs : List (Nat × Nat)} (hbs : ∀ b ∈ bs, InWindow b) {s : State}
    (hs : s.Canonical) (p : Nat) {q : Nat} (hq : q < 1024) :
    (bs.foldl (fun t b => f b t) s).tag p q = if (p, q) ∈ bs then g else s.tag p q := by
  induction bs generalizing s with
  | nil => simp
  | cons b bs ih =>
    obtain ⟨hb, hbs⟩ := List.forall_mem_cons.mp hbs
    rw [List.foldl_cons, ih hbs (hf.canonical hs), hf.tag hs hb p q hq]
    by_cases hmem : (p, q) ∈ bs <;> simp [hmem]

end BlockFunction

/-- The blocks of a grid that fits the buffers. -/
theorem State.inWindow_of_mem_grid {s : State} (hph : s.ph ≤ 1024) (hpw : s.pw ≤ 1024) {b : Nat × Nat}
    (hb : b ∈ s.grid) : InWindow b := by
  obtain ⟨hp, hq⟩ := State.mem_grid.mp hb
  exact ⟨by omega, by omega⟩

/-- FDCT is a function of one block: it reads PSRC only, which no block of COEF overlaps. -/
theorem forwardBlock_blockFunction :
    BlockFunction (fun b t => forwardBlock b.1 b.2 t) (fun t b => forwardFormula t b.1 b.2) .qcoef where
  canonical ht := forwardBlock_wf ht.1 ht.2 _ _
  coef_own ht _ hx _ hy := forwardBlock_coef_eq_formula ht.1 _ _ hx hy
  coef_other {b b' t} ht hb hb' hne x hx y hy := by
    have hne : b'.1 ≠ b.1 ∨ b'.2 ≠ b.2 := by rwa [ne_eq, Prod.ext_iff, not_and_or] at hne
    have hq := hb.2
    have hq' := hb'.2
    simp only [State.blockCoef, forwardBlock_mem, Config.blk]
    exact Memory.coef_store_block_other ht.1 (by omega) (by omega) (by omega)
  val_other {b b' t} ht _ hb' _ := by
    obtain ⟨hp', hq'⟩ := hb'
    funext x y
    refine forwardFormula_congr (forwardBlock_engSnap _ _ t) (forwardBlock_qtab _ _ t) (fun u hu v hv => ?_) x y
    rw [forwardBlock_mem]
    exact Memory.sample_store_block ht.1 (by omega) (by omega)
  tag {b t} ht hb p q hq := by
    rw [forwardBlock_tag ht.2 b.1 (hb.2.trans (by norm_num)) hq]
    simp [Prod.ext_iff]

end Sys2Proof.Machine
end

section
/-! Bounds of binary64 results: a result is never beyond a representable bound of its exact value. -/

namespace Sys2Proof.Machine

/-! ## Negation -/

theorem f64Neg_low_lt (a : F64) : a.toNat % 2 ^ 63 < 2 ^ 63 := Nat.mod_lt _ (by norm_num)

@[simp] theorem f64Value_neg (a : F64) : f64Value (f64Neg a) = -f64Value a := by
  rw [f64Neg, f64Value_pack (f64Neg_low_lt a), signFactor_not, f64Value_eq_magnitude, neg_mul]

@[simp] theorem f64Exp_neg (a : F64) : f64Exp (f64Neg a) = f64Exp a := by
  rw [f64Neg, f64Exp_pack (f64Neg_low_lt a)]; unfold f64Exp; omega

@[simp] theorem f64IsFinite_neg (a : F64) : f64IsFinite (f64Neg a) = f64IsFinite a := by
  rw [f64IsFinite, f64IsFinite, f64Exp_neg]

@[simp] theorem f64Lsb_neg (a : F64) : f64Lsb (f64Neg a) = f64Lsb a := by rw [f64Lsb, f64Lsb, f64Exp_neg]

/-! ## Bounds -/

/-- `q` is the value of a finite binary64 number. -/
def IsF64Value (q : ℚ) : Prop := ∃ c : F64, f64IsFinite c = true ∧ f64Value c = q

/-- A finite number of magnitude at most `b`. -/
def AbsLe (a : F64) (b : ℚ) : Prop := f64IsFinite a = true ∧ |f64Value a| ≤ b

/-- A magnitude is bounded by comparing the 63 low bits. -/
theorem absLe_magnitude {a : F64} {low : ℕ} (h : a.toNat % 2 ^ 63 ≤ low) (hlow : low < f64InfLow) :
    AbsLe a (magnitude low) := by
  constructor
  · rw [f64IsFinite_iff]; unfold f64InfLow at hlow; unfold f64Exp; omega
  · rw [f64Value_eq_magnitude, abs_mul, abs_signFactor, one_mul, abs_of_nonneg (magnitude_nonneg _)]
    exact magnitude_strictMono.monotone h

theorem absLe_zero : AbsLe f64Zero 0 := magnitude_zero ▸ absLe_magnitude (by decide) (by decide)

theorem abs_f64Value_lt_of_finite {c : F64} (hc : f64IsFinite c = true) : |f64Value c| < 2 ^ 1024 - 2 ^ 970 := by
  have hlow : c.toNat % 2 ^ 63 ≤ f64InfLow - 1 := by
    rw [f64IsFinite_iff] at hc; have := f64Exp_lt c; unfold f64Exp at *; unfold f64InfLow; omega
  have hle := (absLe_magnitude hlow (by decide)).2
  rw [magnitude_infLow_pred] at hle
  exact hle.trans_lt (sub_lt_sub_left (lt_two_mul_self (by positivity)) _)

/-- Rounding keeps a representable value. -/
theorem RoundsTo.value_eq {r : F64} {neg : Bool} {x : ℚ} (h : RoundsTo r neg x) (hx : IsF64Value x) :
    f64IsFinite r = true ∧ f64Value r = x := by
  obtain ⟨-, hnear, hfin, -⟩ := h
  obtain ⟨c, hc, rfl⟩ := hx
  have hr := hfin.mpr (abs_f64Value_lt_of_finite hc)
  have hdist := (hnear hr c hc).1
  rw [sub_self, abs_zero] at hdist
  exact ⟨hr, sub_eq_zero.mp (abs_nonpos_iff.mp hdist)⟩

/-- Rounding does not pass a representable bound of the exact value: the bound itself would be nearer. -/
theorem RoundsTo.absLe {r : F64} {neg : Bool} {x b : ℚ} (h : RoundsTo r neg x) (hb : IsF64Value b) (hx : |x| ≤ b) :
    AbsLe r b := by
  obtain ⟨-, hnear, hfin, -⟩ := h
  obtain ⟨c, hc, rfl⟩ := hb
  have hr : f64IsFinite r = true := hfin.mpr (hx.trans_lt ((le_abs_self _).trans_lt (abs_f64Value_lt_of_finite hc)))
  have hupper := (hnear hr c hc).1
  have hlower := (hnear hr (f64Neg c) (by rwa [f64IsFinite_neg])).1
  rw [f64Value_neg] at hlower
  obtain ⟨hx0, hx1⟩ := abs_le.mp hx
  rw [abs_of_nonneg (a := f64Value c - x) (by linarith)] at hupper
  rw [abs_of_nonpos (a := -f64Value c - x) (by linarith)] at hlower
  have h1 := (abs_le.mp hupper).2
  have h2 := (abs_le.mp hlower).1
  exact ⟨hr, abs_le.mpr ⟨by linarith, by linarith⟩⟩

theorem AbsLe.fadd {a b : F64} {A B C : ℚ} (ha : AbsLe a A) (hb : AbsLe b B) (hC : IsF64Value C) (h : A + B ≤ C) :
    AbsLe (fadd a b) C :=
  (fadd_roundsTo ha.1 hb.1).absLe hC ((abs_add_le _ _).trans ((add_le_add ha.2 hb.2).trans h))

theorem AbsLe.fmul {a b : F64} {A B C : ℚ} (ha : AbsLe a A) (hb : AbsLe b B) (hC : IsF64Value C) (h : A * B ≤ C) :
    AbsLe (fmul a b) C := by
  refine (fmul_roundsTo ha.1 hb.1).absLe hC (le_trans ?_ h)
  rw [abs_mul]
  exact mul_le_mul ha.2 hb.2 (abs_nonneg _) ((abs_nonneg _).trans ha.2)

/-- Division by at least 1 keeps a representable bound. -/
theorem AbsLe.fdiv {a b : F64} {A : ℚ} (ha : AbsLe a A) (hA : IsF64Value A) (hb : f64IsFinite b = true)
    (h1 : 1 ≤ f64Value b) : AbsLe (fdiv a b) A := by
  have hpos : 0 < f64Value b := zero_lt_one.trans_le h1
  refine (fdiv_roundsTo ha.1 hb hpos.ne').absLe hA (le_trans ?_ ha.2)
  rw [abs_div, abs_of_pos hpos]
  exact div_le_self (abs_nonneg _) h1

/-! ## Integers -/

/-- Every integer below 2^53 is a binary64 value: shifted up to 53 bits, it is a significand (00_scope.md R9). -/
theorem isF64Value_natCast {n : ℕ} (hn : n < 2 ^ 53) : IsF64Value n := by
  rcases eq_or_ne n 0 with rfl | h0
  · exact ⟨f64Zero, absLe_zero.1, by rw [Nat.cast_zero, abs_nonpos_iff.mp absLe_zero.2]⟩
  obtain ⟨hlo, hhi⟩ : 2 ^ Nat.log2 n ≤ n ∧ n < 2 ^ (Nat.log2 n + 1) :=
    ⟨Nat.log2_self_le h0, Nat.lt_log2_self⟩
  have hlog : Nat.log2 n ≤ 52 := by have := (Nat.log2_lt h0).mpr hn; omega
  obtain ⟨j, hj⟩ := Nat.exists_eq_add_of_le hlog
  have hsig : 2 ^ 52 ≤ n * 2 ^ j ∧ n * 2 ^ j < 2 ^ 53 := by
    rw [hj, show 53 = Nat.log2 n + 1 + j by omega, pow_add, pow_add _ _ j]
    exact ⟨Nat.mul_le_mul_right _ hlo, Nat.mul_lt_mul_of_pos_right hhi (by positivity)⟩
  have hlow : (1074 - j) * 2 ^ 52 + n * 2 ^ j < f64InfLow := by unfold f64InfLow; omega
  have h63 : (1074 - j) * 2 ^ 52 + n * 2 ^ j < 2 ^ 63 := hlow.trans (by decide)
  refine ⟨f64Pack false ((1074 - j) * 2 ^ 52 + n * 2 ^ j), (f64IsFinite_pack_iff hlow.le).mpr hlow, ?_⟩
  rw [f64Value_pack h63, magnitude_normalized hsig.2.le (.inr hsig.1),
    show ((1074 - j : ℕ) : ℤ) - 1074 = -(j : ℤ) by omega, zpow_neg, zpow_natCast]
  simp [signFactor]

/-- `f64(n)` is exact below 2^53 (00_scope.md R9). -/
theorem f64OfNat_value {n : ℕ} (hn : n < 2 ^ 53) :
    f64IsFinite (f64OfNat n) = true ∧ f64Sign (f64OfNat n) = false ∧ f64Value (f64OfNat n) = n := by
  have hround : RoundsTo (f64OfNat n) false n := by
    have h := round64_roundsTo (m := n) (z := n) (.inl rfl) false 0
    rwa [zpow_zero, mul_one, show signFactor false = 1 from rfl, one_mul] at h
  obtain ⟨hfin, hvalue⟩ := hround.value_eq (isF64Value_natCast hn)
  exact ⟨hfin, hround.1, hvalue⟩

/-! ## Sums of 64 terms -/

/-- What holds of the start of a fold over 0 .. n - 1, and of each next value, holds of its result. -/
theorem foldl_range_induction {α : Type} {f : α → ℕ → α} {P : ℕ → α → Prop} {n : ℕ} {a : α} (h0 : P 0 a)
    (hstep : ∀ i < n, ∀ acc, P i acc → P (i + 1) (f acc i)) : P n ((List.range n).foldl f a) := by
  induction n with
  | zero => exact h0
  | succ n ih =>
    rw [List.range_succ, List.foldl_append]
    exact hstep n (Nat.lt_succ_self n) _ (ih fun i hi => hstep i (hi.trans (Nat.lt_succ_self n)))

/-- What holds of +0.0 and after each of the 64 sums, counted from 0, holds of `sum64`. -/
theorem sum64_induction {term : ℕ → ℕ → F64} {P : ℕ → F64 → Prop} (h0 : P 0 f64Zero)
    (hstep : ∀ u < 8, ∀ v < 8, ∀ acc, P (8 * u + v) acc → P (8 * u + v + 1) (fadd acc (term u v))) :
    P 64 (sum64 term) :=
  foldl_range_induction (P := fun u acc => P (8 * u) acc) h0 fun u hu _ hacc =>
    foldl_range_induction (P := fun v acc => P (8 * u + v) acc) hacc fun v hv _ => hstep u hu v hv _

/-- A sum of 64 terms of magnitude at most `b`, for integer bounds that stay exact. -/
theorem sum64_absLe {term : ℕ → ℕ → F64} {b : ℕ} (hb : 64 * b < 2 ^ 53) (h : ∀ u < 8, ∀ v < 8, AbsLe (term u v) b) :
    AbsLe (sum64 term) (64 * b : ℕ) := by
  refine sum64_induction (P := fun k acc => AbsLe acc (k * b : ℕ)) ?_ fun u hu v hv acc hacc => ?_
  · simpa using absLe_zero
  refine hacc.fadd (h u hu v hv) (isF64Value_natCast ?_) (by push_cast; linarith)
  exact lt_of_le_of_lt (Nat.mul_le_mul_right b (by omega)) hb

/-- Zeros of either sign sum up to +0.0 (00_scope.md R9). -/
theorem sum64_of_zeros {term : ℕ → ℕ → F64} (h : ∀ u < 8, ∀ v < 8, ∃ neg, term u v = f64Pack neg 0) :
    sum64 term = f64Zero := by
  refine sum64_induction (P := fun _ acc => acc = f64Zero) rfl fun u hu v hv acc hacc => ?_
  obtain ⟨neg, hterm⟩ := h u hu v hv
  rw [hacc, hterm, fadd_zero_signed_zero]

/-! ## Zeros as operands -/

theorem f64Pack_zero_fields (neg : Bool) :
    f64IsFinite (f64Pack neg 0) = true ∧ f64Mant (f64Pack neg 0) = 0 ∧ f64Sign (f64Pack neg 0) = neg := by
  cases neg <;> decide

theorem fmul_zero_left (neg : Bool) {b : F64} (hb : f64IsFinite b = true) :
    fmul (f64Pack neg 0) b = f64Pack (neg != f64Sign b) 0 := by
  obtain ⟨hfin, hmant, hsign⟩ := f64Pack_zero_fields neg
  rw [fmul_zero_of_mant hfin hb (.inl hmant), hsign]

theorem fmul_zero_right {a : F64} (ha : f64IsFinite a = true) (neg : Bool) :
    fmul a (f64Pack neg 0) = f64Pack (f64Sign a != neg) 0 := by
  obtain ⟨hfin, hmant, hsign⟩ := f64Pack_zero_fields neg
  rw [fmul_zero_of_mant ha hfin (.inr hmant), hsign]

theorem fdiv_zero_left (neg : Bool) {b : F64} (hb : f64IsFinite b = true) (hb0 : f64Value b ≠ 0) :
    fdiv (f64Pack neg 0) b = f64Pack (neg != f64Sign b) 0 := by
  obtain ⟨hfin, hmant, hsign⟩ := f64Pack_zero_fields neg
  have hmantb : f64Mant b ≠ 0 := fun h => hb0 (by simp [f64Value_eq_mant, h])
  rw [fdiv_of_finite hfin hb hmantb, hsign, divSignificand, hmant]
  simp

end Sys2Proof.Machine
end

section
/-! What the forward formula reads besides the samples, and its range (41_forward_quantize.md R90 to R92, R98). -/

namespace Sys2Proof.Machine

/-- The magnitude of 2^-k: the least significand at the last place 2^(-k-52). -/
theorem magnitude_two_pow_neg {k : ℕ} (hk : k ≤ 1022) : magnitude ((1022 - k) * 2 ^ 52 + 2 ^ 52) = (2 ^ k)⁻¹ := by
  rw [magnitude_normalized (by norm_num) (.inr le_rfl), show ((1022 - k : ℕ) : ℤ) - 1074 = -(k : ℤ) - 52 by omega,
    zpow_sub₀ two_ne_zero, zpow_neg, zpow_natCast]
  push_cast
  exact mul_div_cancel₀ _ (by norm_num)

/-- No cosine constant is above 1 (41_forward_quantize.md R98). -/
theorem ct_absLe {n k : ℕ} (hn : n < 8) (hk : k < 8) : AbsLe (ct n k) 1 := by
  have hlow : ∀ n < 8, ∀ k < 8, (ct n k).toNat % 2 ^ 63 ≤ (1022 - 0) * 2 ^ 52 + 2 ^ 52 := by decide
  have h := absLe_magnitude (hlow n hn k hk) (by decide)
  rwa [magnitude_two_pow_neg (Nat.zero_le _), pow_zero, inv_one] at h

/-- No scale constant is above 1/2 (41_forward_quantize.md R98). -/
theorem al_absLe (k : ℕ) : AbsLe (al k) (1 / 2) := by
  have hlow : (al k).toNat % 2 ^ 63 ≤ (1022 - 1) * 2 ^ 52 + 2 ^ 52 := by unfold al; split <;> decide
  have h := absLe_magnitude hlow (by decide)
  rwa [magnitude_two_pow_neg (by norm_num), pow_one, ← one_div] at h

theorem al_sign (k : ℕ) : f64Sign (al k) = false := by unfold al; split <;> decide

theorem isF64Value_quarter : IsF64Value (1 / 4) := by
  refine ⟨f64Pack false ((1022 - 2) * 2 ^ 52 + 2 ^ 52), by decide, ?_⟩
  rw [f64Value_pack (by norm_num), magnitude_two_pow_neg (by norm_num)]
  norm_num [signFactor]

theorem scaleProduct_absLe (x y : ℕ) : AbsLe (fmul (al x) (al y)) (1 / 4) :=
  (al_absLe x).fmul (al_absLe y) isF64Value_quarter (by norm_num)

theorem scaleProduct_sign (x y : ℕ) : f64Sign (fmul (al x) (al y)) = false := by
  rw [(fmul_roundsTo (al_absLe x).1 (al_absLe y).1).1, al_sign, al_sign]; rfl

/-- A step is a positive number of at least 1 (41_forward_quantize.md R92, 00_scope.md R6). -/
theorem stepFormula_ge_one {s : State} (h : ∀ k : Fin 64, s.qtab[k.val]'k.isLt ≠ 0) (x y : ℕ) :
    f64IsFinite (stepFormula s x y) = true ∧ f64Sign (stepFormula s x y) = false ∧
      1 ≤ f64Value (stepFormula s x y) := by
  have ofNat : ∀ n : ℕ, n < 2 ^ 53 → n ≠ 0 →
      f64IsFinite (f64OfNat n) = true ∧ f64Sign (f64OfNat n) = false ∧ 1 ≤ f64Value (f64OfNat n) := fun n hn h0 => by
    obtain ⟨hfin, hsign, hvalue⟩ := f64OfNat_value hn
    exact ⟨hfin, hsign, hvalue ▸ by exact_mod_cast Nat.one_le_iff_ne_zero.mpr h0⟩
  unfold stepFormula
  split
  · exact ofNat 1 (by norm_num) one_ne_zero
  · have hlt : s.qtable x y < 2 ^ 16 := BitVec.isLt _
    have h0 : s.qtable x y ≠ 0 := fun h0 =>
      h ⟨8 * (x % 8) + y % 8, by omega⟩ (BitVec.eq_of_toNat_eq h0)
    exact ofNat _ (by omega) h0

theorem sample_absLe (b : Byte) : AbsLe (f64OfNat b.toNat) 255 := by
  obtain ⟨hfin, -, hvalue⟩ := f64OfNat_value (n := b.toNat) (by have := b.isLt; omega)
  refine ⟨hfin, ?_⟩
  rw [hvalue, Nat.abs_cast]
  exact_mod_cast Nat.le_of_lt_succ b.isLt

/-- The range of the forward formula (41_forward_quantize.md R98): 64 terms of at most 255, scaled by at most 1/4. -/
theorem forwardFormula_absLe {s : State} (h : ∀ k : Fin 64, s.qtab[k.val]'k.isLt ≠ 0) (p q : ℕ) {x y : ℕ} (hx : x < 8)
    (hy : y < 8) : AbsLe (forwardFormula s p q x y) 4080 := by
  have h255 : IsF64Value 255 := by exact_mod_cast isF64Value_natCast (n := 255) (by norm_num)
  have h4080 : IsF64Value 4080 := by exact_mod_cast isF64Value_natCast (n := 4080) (by norm_num)
  obtain ⟨hfin, -, hone⟩ := stepFormula_ge_one h x y
  refine AbsLe.fdiv ?_ h4080 hfin hone
  refine (scaleProduct_absLe x y).fmul (sum64_absLe (b := 255) (by norm_num) fun u hu v hv => ?_) h4080 (by norm_num)
  exact ((sample_absLe _).fmul (ct_absLe hu hx) h255 (by norm_num)).fmul (ct_absLe hv hy) h255 (by norm_num)

/-- A block of zeros has coefficients of +0.0: every term is a zero, and so is their sum, scaled and divided
(41_forward_quantize.md R94). -/
theorem forwardFormula_of_zeros {s : State} (h : ∀ k : Fin 64, s.qtab[k.val]'k.isLt ≠ 0) {p q x y : ℕ}
    (hzero : ∀ u v, u < 8 → v < 8 → s.mem.sample .psrc (8 * p + u) (8 * q + v) = 0) (hx : x < 8) (hy : y < 8) :
    forwardFormula s p q x y = f64Zero := by
  obtain ⟨hfin, hsign, hone⟩ := stepFormula_ge_one h x y
  have hzero64 : f64Zero = f64Pack false 0 := rfl
  have hsum := sum64_of_zeros (term := fun u v =>
    fmul (fmul (f64OfNat (s.mem.sample .psrc (8 * p + u) (8 * q + v)).toNat) (ct u x)) (ct v y)) fun u hu v hv => by
      have hsample : f64OfNat (s.mem.sample .psrc (8 * p + u) (8 * q + v)).toNat = f64Pack false 0 := by
        rw [hzero u v hu hv]; rfl
      exact ⟨_, by rw [hsample, fmul_zero_left _ (ct_finite u hu x hx), fmul_zero_left _ (ct_finite v hv y hy)]⟩
  rw [forwardFormula, hsum, hzero64, fmul_zero_right (scaleProduct_absLe x y).1, scaleProduct_sign,
    fdiv_zero_left _ hfin (zero_lt_one.trans_le hone).ne', hsign]
  rfl

end Sys2Proof.Machine
end

section
/-! The cosine and scale constants against the exact real numbers (41_forward_quantize.md R90, R91). -/

namespace Sys2Proof.Machine

open Real

/-! ## The angles of the cosine table -/

/-- The sign and the K in 0..8 with cos(m·π/16) = ±cos(K·π/16). -/
def foldAngle (m : ℕ) : Bool × ℕ :=
  let r := min (m % 32) (32 - m % 32)
  if r ≤ 8 then (false, r) else (true, 16 - r)

/-- Folding an angle keeps its cosine: by the period 2π, the evenness and the reflection at π/2. -/
theorem cos_foldAngle (m : ℕ) :
    cos (m * π / 16) = (signFactor (foldAngle m).1 : ℝ) * cos ((foldAngle m).2 * π / 16) := by
  have hperiod : cos (m * π / 16) = cos ((m % 32 : ℕ) * π / 16) := by
    conv_lhs => rw [← Nat.mod_add_div m 32]
    rw [← cos_add_nat_mul_two_pi ((m % 32 : ℕ) * π / 16) (m / 32)]
    congr 1; push_cast; ring
  have heven : cos ((m % 32 : ℕ) * π / 16) = cos ((min (m % 32) (32 - m % 32) : ℕ) * π / 16) := by
    have hlt := Nat.mod_lt m (by norm_num : 0 < 32)
    rcases min_choice (m % 32) (32 - m % 32) with h | h <;> rw [h]
    rw [← cos_two_pi_sub, Nat.cast_sub hlt.le]
    congr 1; push_cast; ring
  have hrange : min (m % 32) (32 - m % 32) ≤ 16 := by omega
  rw [hperiod, heven, foldAngle]
  split
  · simp [signFactor]
  · rw [← neg_neg (cos _), ← cos_pi_sub, Nat.cast_sub hrange]
    simp only [signFactor, if_true]
    rw [show π - (min (m % 32) (32 - m % 32) : ℕ) * π / 16 =
      (((16 : ℕ) : ℝ) - (min (m % 32) (32 - m % 32) : ℕ)) * π / 16 by push_cast; ring]
    push_cast; ring

/-- The printed table holds at (n, k) the sign and the K of the angle (2n+1)·k·π/16 (41_forward_quantize.md R90). -/
theorem ctRow_eq_foldAngle :
    ∀ n < 8, ∀ k < 8, (ctRow n).getD k (false, 0) = foldAngle ((2 * n + 1) * k) ∧
      (foldAngle ((2 * n + 1) * k)).2 < 8 := by decide

/-! ## Bounds of cosines, by doubling the angle -/

/-- `lo ≤ cos θ ≤ hi`. -/
def CosBetween (lo hi : ℚ) (θ : ℝ) : Prop := (lo : ℝ) ≤ cos θ ∧ cos θ ≤ (hi : ℝ)

/-- Where no bound and no cosine is negative, bounds of the cosine are those of its double angle's cosine,
cos 2θ = 2 cos² θ − 1. -/
theorem CosBetween.of_double {lo hi : ℚ} {θ : ℝ} (h : CosBetween (2 * lo ^ 2 - 1) (2 * hi ^ 2 - 1) (2 * θ))
    (hlo : 0 ≤ lo) (hhi : 0 ≤ hi) (hθ : 0 ≤ cos θ) : CosBetween lo hi θ := by
  obtain ⟨h1, h2⟩ := h
  rw [cos_two_mul] at h1 h2
  push_cast at h1 h2
  exact ⟨(pow_le_pow_iff_left₀ (by exact_mod_cast hlo) hθ two_ne_zero).mp (by linarith),
    (pow_le_pow_iff_left₀ hθ (by exact_mod_cast hhi) two_ne_zero).mp (by linarith)⟩

theorem CosBetween.pi_sub {lo hi : ℚ} {θ : ℝ} (h : CosBetween (-hi) (-lo) θ) : CosBetween lo hi (π - θ) := by
  obtain ⟨h1, h2⟩ := h
  rw [CosBetween, cos_pi_sub]
  push_cast at h1 h2
  exact ⟨by linarith, by linarith⟩

/-- A proof by computation of `lo ≤ cos(K·π/16) ≤ hi`, K in 1..8: after `n` doublings of the angle, each folded back
into 0..8 by a reflection at π/2, the angle is π/2, whose cosine is 0. -/
def CosCertificate : ℕ → ℕ → ℚ → ℚ → Prop
  | 0, K, lo, hi => K = 8 ∧ lo ≤ 0 ∧ 0 ≤ hi
  | n + 1, K, lo, hi => 0 ≤ lo ∧ 0 ≤ hi ∧
    if K ≤ 4 then CosCertificate n (2 * K) (2 * lo ^ 2 - 1) (2 * hi ^ 2 - 1)
    else CosCertificate n (16 - 2 * K) (-(2 * hi ^ 2 - 1)) (-(2 * lo ^ 2 - 1))

theorem CosCertificate.cosBetween {n K : ℕ} (hK : K ≤ 8) {lo hi : ℚ} (h : CosCertificate n K lo hi) :
    CosBetween lo hi (K * π / 16) := by
  induction n generalizing K lo hi with
  | zero =>
    obtain ⟨rfl, hlo, hhi⟩ := h
    rw [CosBetween, show ((8 : ℕ) : ℝ) * π / 16 = π / 2 by push_cast; ring, cos_pi_div_two]
    exact_mod_cast And.intro hlo hhi
  | succ n ih =>
    obtain ⟨hlo, hhi, h⟩ := h
    have hpi := pi_pos
    have hK8 : (K : ℝ) ≤ 8 := by exact_mod_cast hK
    have hcos : 0 ≤ cos (K * π / 16) := cos_nonneg_of_neg_pi_div_two_le_of_le (by nlinarith [K.cast_nonneg (α := ℝ)])
      (by nlinarith)
    refine CosBetween.of_double ?_ hlo hhi hcos
    split at h
    · rw [show 2 * ((K : ℝ) * π / 16) = (2 * K : ℕ) * π / 16 by push_cast; ring]
      exact ih (by omega) h
    · rw [show 2 * ((K : ℝ) * π / 16) = π - (16 - 2 * K : ℕ) * π / 16 by
        rw [Nat.cast_sub (by omega)]; push_cast; ring]
      exact (ih (by omega) h).pi_sub

/-! ## The constants -/

/-- A positive number with significand `m` at the last place `2 ^ e` is within half of it of every real between
`(m ± 1/2) · 2 ^ e`. -/
theorem abs_f64Value_sub_le {a : F64} {m : ℕ} {e : ℤ} {x : ℝ} (hs : f64Sign a = false) (hm : f64Mant a = m)
    (he : f64Lsb a = e) (hlo : (((m - 1 / 2) * 2 ^ e : ℚ) : ℝ) ≤ x) (hhi : x ≤ (((m + 1 / 2) * 2 ^ e : ℚ) : ℝ)) :
    |((f64Value a : ℚ) : ℝ) - x| ≤ (2 : ℝ) ^ (f64Lsb a - 1) := by
  rw [f64Value_eq_mant, hs, hm, he, zpow_sub_one₀ two_ne_zero, abs_le]
  simp only [signFactor, Bool.false_eq_true, if_false]
  push_cast at hlo hhi ⊢
  exact ⟨by linarith, by linarith⟩

/-- A certificate for the bounds half a last place around `cK` proves it nearest. -/
theorem CosCertificate.nearest (n m : ℕ) (e : ℤ) {K : ℕ} (hK : K < 8)
    (hfields : f64Sign (cosMagnitude K) = false ∧ f64Mant (cosMagnitude K) = m ∧ f64Lsb (cosMagnitude K) = e)
    (h : CosCertificate n K ((m - 1 / 2) * 2 ^ e) ((m + 1 / 2) * 2 ^ e)) :
    |((f64Value (cosMagnitude K) : ℚ) : ℝ) - cos (K * π / 16)| ≤ (2 : ℝ) ^ (f64Lsb (cosMagnitude K) - 1) := by
  obtain ⟨hs, hm, he⟩ := hfields
  obtain ⟨hlo, hhi⟩ := h.cosBetween hK.le
  exact abs_f64Value_sub_le hs hm he hlo hhi

/-- `cK` is within half a unit of its last place of cos(K·π/16): c0 is 1 exactly, and each of the others has its
certificate (41_forward_quantize.md R90). -/
theorem cosMagnitude_nearest {K : ℕ} (hK : K < 8) :
    |((f64Value (cosMagnitude K) : ℚ) : ℝ) - cos (K * π / 16)| ≤ (2 : ℝ) ^ (f64Lsb (cosMagnitude K) - 1) := by
  interval_cases K
  · refine abs_f64Value_sub_le (m := 2 ^ 52) (e := -52) (by decide) (by decide) (by decide) ?_ ?_ <;> norm_num
  · exact CosCertificate.nearest 3 0x1F6297CFF75CB0 (-53) hK (by decide) (by norm_num [CosCertificate])
  · exact CosCertificate.nearest 2 0x1D906BCF328D46 (-53) hK (by decide) (by norm_num [CosCertificate])
  · exact CosCertificate.nearest 3 0x1A9B66290EA1A3 (-53) hK (by decide) (by norm_num [CosCertificate])
  · exact CosCertificate.nearest 1 0x16A09E667F3BCD (-53) hK (by decide) (by norm_num [CosCertificate])
  · exact CosCertificate.nearest 3 0x11C73B39AE68C8 (-53) hK (by decide) (by norm_num [CosCertificate])
  · exact CosCertificate.nearest 2 0x187DE2A6AEA963 (-54) hK (by decide) (by norm_num [CosCertificate])
  · exact CosCertificate.nearest 3 0x18F8B83C69A60B (-55) hK (by decide) (by norm_num [CosCertificate])

/-- An entry of CT is the `cK` of its angle, with the sign of the cosine (41_forward_quantize.md R90). -/
theorem ct_eq_cosMagnitude {n k : ℕ} (hn : n < 8) (hk : k < 8) :
    f64Value (ct n k) = signFactor (foldAngle ((2 * n + 1) * k)).1 *
        f64Value (cosMagnitude (foldAngle ((2 * n + 1) * k)).2) ∧
      f64Lsb (ct n k) = f64Lsb (cosMagnitude (foldAngle ((2 * n + 1) * k)).2) := by
  rw [ct, (ctRow_eq_foldAngle n hn k hk).1]
  split
  next h => rw [h]; simp [signFactor]
  next h => simp [signFactor, h]

/-- Each cosine constant is within half a unit of its last place of the exact cosine (41_forward_quantize.md R90). -/
theorem ct_nearest {n k : ℕ} (hn : n < 8) (hk : k < 8) :
    |((f64Value (ct n k) : ℚ) : ℝ) - cos ((2 * n + 1) * k * π / 16)| ≤ (2 : ℝ) ^ (f64Lsb (ct n k) - 1) := by
  have hangle : ((2 * n + 1) * k : ℝ) * π / 16 = ((2 * n + 1) * k : ℕ) * π / 16 := by push_cast; ring
  obtain ⟨hvalue, hlsb⟩ := ct_eq_cosMagnitude hn hk
  have hK := (ctRow_eq_foldAngle n hn k hk).2
  have habs : |((signFactor (foldAngle ((2 * n + 1) * k)).1 : ℚ) : ℝ)| = 1 := by
    exact_mod_cast congrArg (Rat.cast (K := ℝ)) (abs_signFactor _)
  rw [hangle, cos_foldAngle, hvalue, hlsb, Rat.cast_mul, ← mul_sub, abs_mul, habs, one_mul]
  exact cosMagnitude_nearest hK

/-- AL[0] is within half a unit of its last place of sqrt(1/8) (41_forward_quantize.md R91). -/
theorem al_zero_nearest : |((f64Value (al 0) : ℚ) : ℝ) - sqrt (1 / 8)| ≤ (2 : ℝ) ^ (f64Lsb (al 0) - 1) := by
  refine abs_f64Value_sub_le (m := 0x16A09E667F3BCD) (e := -54) (by decide) (by decide) (by decide) ?_ ?_
  · exact le_sqrt_of_sq_le (by norm_num)
  · exact sqrt_le_iff.mpr (by norm_num)

/-- AL[1] to AL[7] are sqrt(2/8) exactly (41_forward_quantize.md R91). -/
theorem al_value_eq_sqrt {k : ℕ} (hk : k ≠ 0) : ((f64Value (al k) : ℚ) : ℝ) = sqrt (2 / 8) := by
  have hhalf : f64Value (al k) = 1 / 2 := by
    rw [al, if_neg hk, f64Value_eq_mant, show f64Sign 0x3FE0000000000000 = false by decide,
      show f64Mant 0x3FE0000000000000 = 2 ^ 52 by decide, show f64Lsb 0x3FE0000000000000 = -53 by decide]
    norm_num [signFactor]
  rw [hhalf, eq_comm, sqrt_eq_iff_mul_self_eq_of_pos (by norm_num)]
  norm_num

end Sys2Proof.Machine
end

section
/-! The obligations about the forward transform and the quantizer. -/

namespace Sys2Proof.Proofs

open Sys2Proof.Machine

/-- Settles O14: the stored block reads back R93's formula, and nothing outside the block and its tag changes. -/
theorem fwdbComputesTheForwardFormula : Obligations.FwdbComputesTheForwardFormula := by
  intro s p q hbusy hwf htags hq
  refine ⟨_, exec_fwdb_completes hbusy p q, fun x y hx hy => ?_, fun a ha => ?_, fun p' q' hq' => ?_⟩
  · rw [State.finish_mem, forwardBlock_coef_eq_formula hwf p q hx hy]
  · rw [State.finish_mem, (forwardBlock_agreesOutside p q hwf).2 a ha]
  · rw [State.finish_tag, forwardBlock_tag htags p hq hq']

/-- Settles O15: FDCT is a function of one block, and FWD is a pass of it that visits each grid block once. -/
theorem fwdTransformsEveryGridBlock : Obligations.FwdTransformsEveryGridBlock := by
  intro s hbusy hwf htags hph hpw
  have hgrid : ∀ b ∈ s.grid, InWindow b := fun b hb => State.inWindow_of_mem_grid hph hpw hb
  refine ⟨_, exec_completes hbusy, fun p q x y hp hq hx hy => ?_, fun p q hq => ?_⟩
  · exact forwardBlock_blockFunction.foldl_coef hx hy hgrid s.grid_nodup ⟨hwf, htags⟩ (b' := (p, q))
      (State.mem_grid.mpr ⟨hp, hq⟩)
  · have htag := forwardBlock_blockFunction.foldl_tag hgrid ⟨hwf, htags⟩ p hq
    simp only [State.mem_grid] at htag
    rw [State.finish_tag]
    exact htag

/-- Settles O49: each entry is the printed `cK` of its folded angle, and `cK` is bounded by doubling the angle up to
π/2. -/
theorem cosineTableIsCorrectlyRounded : Obligations.CosineTableIsCorrectlyRounded :=
  ⟨fun n k hn hk => ⟨ct_finite n hn k hk, ct_nearest hn hk⟩, by decide, by decide, by decide, by decide, by decide,
    by decide, by decide, by decide⟩

/-- Settles O50: the squares of the half-unit bounds enclose 1/8, (1/2)² is 2/8, and `fmul` runs on the encodings. -/
theorem scaleTableIsCorrectlyRounded : Obligations.ScaleTableIsCorrectlyRounded :=
  ⟨al_zero_nearest, rfl, fun k hk _ => ⟨al_value_eq_sqrt (by omega), if_neg (by omega)⟩, by decide⟩

/-- Settles O51: rounding passes no representable bound, so R98's exact bounds hold of the rounded values too. -/
theorem forwardValuesAreBounded : Obligations.ForwardValuesAreBounded :=
  fun _ p q _ _ hqtab hx hy => forwardFormula_absLe hqtab p q hx hy

/-- Settles O52: the stored block reads back R93's formula, which is +0.0 where every sample is 0. -/
theorem zeroBlockHasPositiveZeroCoefficients : Obligations.ZeroBlockHasPositiveZeroCoefficients := by
  intro s p q hbusy hwf hqtab hzero
  refine ⟨_, exec_fwdb_completes hbusy p q, fun x y hx hy => ?_⟩
  rw [State.finish_mem, forwardBlock_coef_eq_formula hwf p q hx hy]
  exact forwardFormula_of_zeros hqtab hzero hx hy

end Sys2Proof.Proofs
end

section
/-! The inverse transform of one block (42_inverse_dequantize.md R105 to R109). -/

namespace Sys2Proof.Machine

/-- R107's right side is the model's element of the block (42_inverse_dequantize.md R105 to R107). -/
theorem inverseFormula_eq_idctElement (s : State) (p q i j : Nat) :
    inverseFormula s p q i j =
      idctElement (invSelect (ctrlStdOrder s.engSnap.ctrl) (s.blockCoef p q)) s.step64 i j := rfl

theorem inverseBlock_coef_eq_formula {s : State} (h : s.mem.wf = true) (p q : Nat) {i j : Nat} (hi : i < 8)
    (hj : j < 8) : (inverseBlock p q s).mem.coef (8 * p + i) (8 * q + j) = inverseFormula s p q i j := by
  rw [inverseBlock_coef h p q hi hj, inverseFormula_eq_idctElement]

theorem inverseBlock_tag {s : State} (h : TagMap.wf s.tags = true) (p : Nat) {q p' q' : Nat} (hq : q < 1024)
    (hq' : q' < 1024) : (inverseBlock p q s).tag p' q' = if p' = p ∧ q' = q then .recon else s.tag p' q' := by
  rw [State.tag, inverseBlock_tags]
  exact State.tag_setTag h p q .recon hq hq'

theorem inverseBlock_engSnap (p q : Nat) (s : State) : (inverseBlock p q s).engSnap = s.engSnap := by
  rw [inverseBlock_frame]

theorem inverseBlock_qtab (p q : Nat) (s : State) : (inverseBlock p q s).qtab = s.qtab := by rw [inverseBlock_frame]

/-- IDCT leaves the coefficients of every other block of the window. -/
theorem inverseBlock_blockCoef_other {b b' : Nat × Nat} {s : State} (h : s.mem.wf = true) (hb : InWindow b)
    (hb' : InWindow b') (hne : b' ≠ b) {x y : Nat} (hx : x < 8) (hy : y < 8) :
    (inverseBlock b.1 b.2 s).blockCoef b'.1 b'.2 x y = s.blockCoef b'.1 b'.2 x y := by
  have hne : b'.1 ≠ b.1 ∨ b'.2 ≠ b.2 := by rwa [ne_eq, Prod.ext_iff, not_and_or] at hne
  have hq := hb.2
  have hq' := hb'.2
  simp only [State.blockCoef, inverseBlock_mem, Config.blk]
  exact Memory.coef_store_block_other h (by omega) (by omega) (by omega)

/-- The formula of a block reads the coefficients of the block, the latched CTRL and the table
(42_inverse_dequantize.md R105 to R107). -/
theorem inverseFormula_congr {s t : State} (hsnap : t.engSnap = s.engSnap) (hqtab : t.qtab = s.qtab) {p q : Nat}
    (hcoef : ∀ a < 8, ∀ b < 8, t.mem.coef (8 * p + a) (8 * q + b) = s.mem.coef (8 * p + a) (8 * q + b)) (i j : Nat) :
    inverseFormula t p q i j = inverseFormula s p q i j := by
  simp only [inverseFormula, stepFormula, State.qtable, hsnap, hqtab]
  rw [sum64_congr fun u hu v hv => by rw [hcoef u hu v hv, hcoef v hv u hu]]

/-- IDCT is a function of one block: it reads the coefficients of its own block only. -/
theorem inverseBlock_blockFunction :
    BlockFunction (fun b t => inverseBlock b.1 b.2 t) (fun t b => inverseFormula t b.1 b.2) .recon where
  canonical ht := inverseBlock_wf ht.1 ht.2 _ _
  coef_own ht _ hx _ hy := inverseBlock_coef_eq_formula ht.1 _ _ hx hy
  coef_other ht hb hb' hne _ hx _ hy := inverseBlock_blockCoef_other ht.1 hb hb' hne hx hy
  val_other {b _ t} ht hb hb' hne := by
    funext x y
    exact inverseFormula_congr (inverseBlock_engSnap _ _ t) (inverseBlock_qtab _ _ t)
      (fun u hu v hv => inverseBlock_blockCoef_other ht.1 hb hb' hne hu hv) x y
  tag {b t} ht hb p q hq := by
    rw [inverseBlock_tag ht.2 b.1 (hb.2.trans (by norm_num)) hq]
    simp [Prod.ext_iff]

end Sys2Proof.Machine
end

section
/-! The range of the inverse formula, and the bound on a coefficient by the tag of its block
(41_forward_quantize.md R98, 42_inverse_dequantize.md R112). -/

namespace Sys2Proof.Machine

/-! ## The range of the formula -/

/-- No step is above 65535, the largest entry of QTABLE (41_forward_quantize.md R92, 00_scope.md R6). -/
theorem stepFormula_absLe (s : State) (x y : ℕ) : AbsLe (stepFormula s x y) 65535 := by
  have ofNat : ∀ n : ℕ, n < 2 ^ 16 → AbsLe (f64OfNat n) 65535 := fun n hn => by
    obtain ⟨hfin, -, hvalue⟩ := f64OfNat_value (n := n) (by omega)
    exact ⟨hfin, by rw [hvalue, Nat.abs_cast]; exact_mod_cast Nat.le_of_lt_succ hn⟩
  unfold stepFormula
  split
  · exact ofNat 1 (by norm_num)
  · exact ofNat _ (BitVec.isLt _)

/-- The range of the inverse formula (42_inverse_dequantize.md R112): 64 terms of at most 4080/4, times a step. -/
theorem inverseFormula_absLe {s : State} {p q : ℕ} (hcoef : ∀ a < 8, ∀ b < 8, AbsLe (s.blockCoef p q a b) 4080)
    {i j : ℕ} (hi : i < 8) (hj : j < 8) : AbsLe (inverseFormula s p q i j) (64 * 1020 * 65535) := by
  have h1020 : IsF64Value (1020 : ℕ) := isF64Value_natCast (by norm_num)
  have hmax : IsF64Value (64 * 1020 * 65535) := by
    exact_mod_cast isF64Value_natCast (n := 64 * 1020 * 65535) (by norm_num)
  have hselect : ∀ u < 8, ∀ v < 8,
      AbsLe (invSelect (ctrlStdOrder s.engSnap.ctrl) (s.blockCoef p q) u v) 4080 := fun u hu v hv => by
    unfold invSelect
    split
    · exact hcoef u hu v hv
    · exact hcoef v hv u hu
  refine (sum64_absLe (b := 1020) (by norm_num) fun u hu v hv => ?_).fmul (stepFormula_absLe s i j) hmax (by norm_num)
  have hscaled := (scaleProduct_absLe u v).fmul (hselect u hu v hv) h1020 (by norm_num)
  exact (hscaled.fmul (ct_absLe hi hu) h1020 (by norm_num)).fmul (ct_absLe hj hv) h1020 (by norm_num)

/-! ## The bound that a tag promises -/

/-- The bound on the coefficients of a block with this tag: R98's of quantized coefficients, R112's of a
reconstruction. -/
def Tag.Bounds : Tag → F64 → Prop
  | .empty, _ => True
  | .qcoef, a => AbsLe a 4080
  | .recon, a => f64IsFinite a = true ∧ |f64Value a| < 4294967296

theorem State.coefBounded_iff {s : State} :
    s.CoefBounded ↔
      ∀ b, InWindow b → ∀ x < 8, ∀ y < 8, (s.tag b.1 b.2).Bounds (s.blockCoef b.1 b.2 x y) := by
  constructor
  · intro h b hb x hx y hy
    obtain ⟨hqcoef, hrecon⟩ := h b.1 b.2 x y hb.1 hb.2 hx hy
    cases htag : s.tag b.1 b.2 with
    | empty => trivial
    | qcoef => exact hqcoef htag
    | recon => exact hrecon htag
  · intro h p q x y hp hq hx hy
    have hbound : (s.tag p q).Bounds (s.blockCoef p q x y) := h (p, q) ⟨hp, hq⟩ x hx y hy
    constructor <;> intro htag <;> rw [htag] at hbound <;> exact hbound

theorem forwardFormula_bounds {s : State} (hqtab : ∀ k : Fin 64, s.qtab[k.val]'k.isLt ≠ 0) (p q : ℕ) {x y : ℕ}
    (hx : x < 8) (hy : y < 8) : Tag.qcoef.Bounds (forwardFormula s p q x y) := forwardFormula_absLe hqtab p q hx hy

/-- The inverse of a bounded QCOEF block is bounded (42_inverse_dequantize.md R112). -/
theorem State.CoefBounded.inverseFormula_bounds {s : State} (h : s.CoefBounded) {b : Nat × Nat} (hb : InWindow b)
    (htag : s.tag b.1 b.2 = .qcoef) {i j : ℕ} (hi : i < 8) (hj : j < 8) :
    Tag.recon.Bounds (inverseFormula s b.1 b.2 i j) := by
  have hcoef : ∀ x < 8, ∀ y < 8, AbsLe (s.blockCoef b.1 b.2 x y) 4080 := fun x hx y hy => by
    have hbound := State.coefBounded_iff.mp h b hb x hx y hy
    rwa [htag] at hbound
  obtain ⟨hfin, hle⟩ := inverseFormula_absLe hcoef hi hj
  exact ⟨hfin, hle.trans_lt (by norm_num)⟩

/-! ## What keeps the bounds -/

/-- The bounds speak of the coefficients and the tags only. -/
theorem State.CoefBounded.congr {s t : State} (h : s.CoefBounded) (htags : t.tags = s.tags)
    (hcoef : ∀ r c, t.mem.coef r c = s.mem.coef r c) : t.CoefBounded := by
  intro p q x y hp hq hx hy
  rw [State.tag, htags, hcoef]
  exact h p q x y hp hq hx hy

/-- Where every tag is EMPTY, no coefficient needs a bound. -/
theorem State.coefBounded_of_tags_nil {s : State} (h : s.tags = []) : s.CoefBounded := by
  intro p q x y _ _ _ _
  rw [State.tag, h]
  exact ⟨nofun, nofun⟩

/-- A pass that leaves bounded values in the blocks it visits keeps the bounds. -/
theorem BlockFunction.foldl_keeps_coefBounded {f : Nat × Nat → State → State}
    {val : State → Nat × Nat → Nat → Nat → F64} {g : Tag} (hf : BlockFunction f val g) {bs : List (Nat × Nat)}
    (hbs : ∀ b ∈ bs, InWindow b) (hnodup : bs.Nodup) {s : State} (hs : s.Canonical) (h : s.CoefBounded)
    (hval : ∀ b ∈ bs, ∀ x < 8, ∀ y < 8, g.Bounds (val s b x y)) :
    (bs.foldl (fun t b => f b t) s).CoefBounded := by
  refine State.coefBounded_iff.mpr fun b hb x hx y hy => ?_
  rw [hf.foldl_tag hbs hs b.1 (hb.2.trans (by norm_num))]
  split
  next hmem =>
    rw [hf.foldl_coef hx hy hbs hnodup hs hmem]
    exact hval b hmem x hx y hy
  next hmem =>
    rw [hf.foldl_coef_other hbs hb hmem hx hy hs]
    exact State.coefBounded_iff.mp h b hb x hx y hy

/-- A store below the COEF window leaves every coefficient (20_memory.md R51). -/
theorem Memory.coef_store_below {m : Memory} (hm : m.wf = true) {cells : List Host.Cell}
    (hcells : ∀ e ∈ cells, e.1 < 0x800000) (r c : Nat) : (m.store cells).coef r c = m.coef r c := by
  rw [Memory.coef, Memory.coef, Memory.readLe_congr]
  intro k _
  refine Memory.readByte_store_frame hm fun e he heq => ?_
  have hbelow := hcells e he
  have hcoef := coefAddr_ge r c
  omega

end Sys2Proof.Machine
end

section
/-! No step makes a coefficient that is not finite or passes its bound: the completions, the Host's accesses and resets
(42_inverse_dequantize.md R112). -/

namespace Sys2Proof.Machine

/-! ## What the invariant at rest gives the transforms -/

theorem State.InvAtRest.ph_le {s : State} (h : s.InvAtRest) : s.ph ≤ 1024 := by
  have hcanvas := h.canvas
  rw [State.ph, dimField_eq]
  split at hcanvas
  next => exact (Nat.mod_le _ _).trans hcanvas.2.2.2
  next => simp [show s.padH = 0 from hcanvas.2]

theorem State.InvAtRest.canonical {s : State} (h : s.InvAtRest) : s.Canonical := ⟨h.mem_wf, h.tags_wf⟩

theorem State.InvAtRest.grid_inWindow {s : State} (h : s.InvAtRest) : ∀ b ∈ s.grid, InWindow b :=
  fun _ hb => State.inWindow_of_mem_grid h.ph_le h.pw_le hb

theorem State.InvAtRest.inWindow {s : State} (h : s.InvAtRest) {p q : Nat} (hgrid : s.inGrid p q = true) :
    InWindow (p, q) := by
  obtain ⟨hp, hq⟩ := State.inGrid_iff.mp hgrid
  have hph := h.ph_le
  have hpw := h.pw_le
  exact ⟨by omega, by omega⟩

/-! ## The checks that look at tags -/

theorem invbCheck_tag {p q : Nat} {s : State} (h : invbCheck p q s = none) : s.tag p q = .qcoef := by
  unfold invbCheck at h
  split at h
  next => cases h
  next =>
    split at h
    next htag => exact htag
    next => cases h

theorem gridTagCheck_none {g : Tag} {s : State} (h : gridTagCheck g s = none) : ∀ b ∈ s.grid, s.tag b.1 b.2 = g := by
  unfold gridTagCheck at h
  split at h
  next =>
    split at h
    next hall => exact fun b hb => beq_iff_eq.mp (List.all_eq_true.mp hall b hb)
    next => cases h
  next => cases h

/-! ## The completions -/

/-- One block is a pass over that block alone. -/
theorem forwardBlock_keeps_coefBounded {p q : Nat} {s : State} (h : s.InvAtRest) (hgrid : s.inGrid p q = true)
    (hcoef : s.CoefBounded) : (forwardBlock p q s).CoefBounded :=
  forwardBlock_blockFunction.foldl_keeps_coefBounded (bs := [(p, q)])
    (List.forall_mem_singleton.mpr (h.inWindow hgrid)) (List.nodup_singleton _) h.canonical hcoef
    fun _ _ _ hx _ hy => forwardFormula_bounds h.qtab_positive _ _ hx hy

theorem inverseBlock_keeps_coefBounded {p q : Nat} {s : State} (h : s.InvAtRest) (hgrid : s.inGrid p q = true)
    (htag : s.tag p q = .qcoef) (hcoef : s.CoefBounded) : (inverseBlock p q s).CoefBounded :=
  inverseBlock_blockFunction.foldl_keeps_coefBounded (bs := [(p, q)])
    (List.forall_mem_singleton.mpr (h.inWindow hgrid)) (List.nodup_singleton _) h.canonical hcoef
    (List.forall_mem_singleton.mpr fun _ hi _ hj => hcoef.inverseFormula_bounds (h.inWindow hgrid) htag hi hj)

theorem fwdEffect_keeps_coefBounded {s : State} (h : s.InvAtRest) (hcoef : s.CoefBounded) :
    (fwdEffect s).CoefBounded :=
  forwardBlock_blockFunction.foldl_keeps_coefBounded h.grid_inWindow s.grid_nodup h.canonical hcoef
    fun _ _ _ hx _ hy => forwardFormula_bounds h.qtab_positive _ _ hx hy

theorem invEffect_keeps_coefBounded {s : State} (h : s.InvAtRest) (htags : ∀ b ∈ s.grid, s.tag b.1 b.2 = .qcoef)
    (hcoef : s.CoefBounded) : (invEffect s).CoefBounded :=
  inverseBlock_blockFunction.foldl_keeps_coefBounded h.grid_inWindow s.grid_nodup h.canonical hcoef
    fun b hb _ hi _ hj => hcoef.inverseFormula_bounds (h.grid_inWindow b hb) (htags b hb) hi hj

/-- FWD makes every block of the grid one that INV may read (41_forward_quantize.md R95). -/
theorem fwdEffect_tag_grid {s : State} (h : s.InvAtRest) :
    ∀ b ∈ (fwdEffect s).grid, (fwdEffect s).tag b.1 b.2 = .qcoef := by
  intro b hb
  have hb : b ∈ s.grid := by rwa [fwdEffect_frame] at hb
  have hq : b.2 < 1024 := (h.grid_inWindow b hb).2.trans (by norm_num)
  exact (forwardBlock_blockFunction.foldl_tag h.grid_inWindow h.canonical b.1 hq).trans (if_pos hb)

theorem twoPass_keeps_coefBounded {s : State} (h : s.InvAtRest) (hcoef : s.CoefBounded) : (twoPass s).CoefBounded :=
  invEffect_keeps_coefBounded (fwdEffect_keeps_invAtRest h) (fwdEffect_tag_grid h) (fwdEffect_keeps_coefBounded h hcoef)

/-- In an interleaved pass each block is QCOEF when its inverse reads it (43_scheduler.md R127). -/
theorem interleavedPass_keeps_coefBounded {s : State} (h : s.InvAtRest) (hcoef : s.CoefBounded) :
    (interleavedPass s).CoefBounded := by
  refine (foldl_blocks_keeps (f := fun b t => inverseBlock b.1 b.2 (forwardBlock b.1 b.2 t))
    (P := fun t => State.InvOnCanvas s.ph s.pw t ∧ t.CoefBounded) s.grid ?_ s ⟨⟨h, rfl, rfl⟩, hcoef⟩).2
  rintro ⟨p, q⟩ hb t ⟨⟨ht, htph, htpw⟩, htcoef⟩
  obtain ⟨hp, hq⟩ := State.mem_grid.mp hb
  have hgrid : t.inGrid p q = true := State.inGrid_iff.mpr (by omega)
  have hgrid' : (forwardBlock p q t).inGrid p q = true := by rwa [State.inGrid, forwardBlock_ph, forwardBlock_pw]
  have hq1024 : q < 1024 := (ht.inWindow hgrid).2.trans (by norm_num)
  have htag : (forwardBlock p q t).tag p q = .qcoef :=
    (forwardBlock_tag ht.tags_wf p hq1024 hq1024).trans (if_pos ⟨rfl, rfl⟩)
  have hfwd := forwardBlock_keeps_invAtRest ht hgrid
  exact ⟨⟨inverseBlock_keeps_invAtRest hfwd hgrid', by simp [htph], by simp [htpw]⟩,
    inverseBlock_keeps_coefBounded hfwd hgrid' htag (forwardBlock_keeps_coefBounded ht hgrid htcoef)⟩

theorem reasmEffect_keeps_coefBounded {s : State} (h : s.InvAtRest) (hcoef : s.CoefBounded) :
    (reasmEffect s).CoefBounded := by
  refine hcoef.congr rfl (Memory.coef_store_below h.mem_wf fun e he => ?_)
  obtain ⟨r, hr, c, hc, rfl⟩ := mem_sampleRegion.mp he
  have hwindow := (sampleAddr_window (b := .out) (hr.trans_le h.ph_le) (hc.trans_le h.pw_le)).2
  exact hwindow.trans (by decide)

/-- RUN starts from a canvas without coefficients (43_scheduler.md R127). -/
theorem runEffect_keeps_coefBounded {s : State} (h : s.InvAtRest) (hrun : s.RunningInv)
    (hc : dimensionCheck s = none) : (runEffect s).CoefBounded := by
  have hpad := padEffect_keeps_invAtRest h hrun hc
  have hpadCoef : (padEffect s).CoefBounded := State.coefBounded_of_tags_nil rfl
  rw [runEffect]
  split
  · exact reasmEffect_keeps_coefBounded (invEffect_keeps_invAtRest (fwdEffect_keeps_invAtRest hpad))
      (twoPass_keeps_coefBounded hpad hpadCoef)
  · exact reasmEffect_keeps_coefBounded (interleavedPass_keeps_invAtRest hpad)
      (interleavedPass_keeps_coefBounded hpad hpadCoef)

/-- The effect of a command whose checks still pass keeps the bounds. -/
theorem commandEffect_keeps_coefBounded {i : Instr} {s : State} (h : s.InvAtRest) (hrun : s.RunningInv)
    (hc : commandCheck i s = none) (hcoef : s.CoefBounded) : (commandEffect i s).CoefBounded := by
  cases i with
  | nop => exact hcoef
  | pad => exact State.coefBounded_of_tags_nil rfl
  | fwd => exact fwdEffect_keeps_coefBounded h hcoef
  | inv => exact invEffect_keeps_coefBounded h (gridTagCheck_none hc) hcoef
  | reasm => exact reasmEffect_keeps_coefBounded h hcoef
  | run => exact runEffect_keeps_coefBounded h hrun hc
  | fwdb p q => exact forwardBlock_keeps_coefBounded h (blockCheck_none hc) hcoef
  | invb p q => exact inverseBlock_keeps_coefBounded h (invbCheck_none hc) (invbCheck_tag hc) hcoef

/-! ## The Host's accesses -/

/-- An access of a sample window starts below the COEF window (20_memory.md R51). -/
theorem accessTarget_sample_lt {busy : Bool} {n a a' : Nat} {b : SampleBuf}
    (h : accessTarget busy n a = .ok (.sample b a')) : a' < 0x400000 := by
  simp only [accessTarget, registerTarget, sampleTarget, coefTarget] at h
  (repeat' split at h) <;> cases h <;> omega

/-- No write to a register reaches the buffers (10_state.md R48). -/
theorem State.writeReg_mem (s : State) (v : Word) (r : Reg) : (s.writeReg v r).mem = s.mem := by
  cases r <;> simp only [State.writeReg, State.busyLocked, State.clearIrq] <;> split <;> rfl

/-- A write that gets OKAY leaves the coefficients: of the buffers it reaches IN only (20_memory.md R54, R55). -/
theorem State.writeTarget_coef {s : State} (hm : s.mem.wf = true) {size : Size} {addr : Offset} {g : Target}
    (hg : s.target size addr = .ok g) (v : Word) (r c : Nat) :
    (s.writeTarget size v g).mem.coef r c = s.mem.coef r c := by
  cases g with
  | reg reg => rw [State.writeTarget, State.writeReg_mem]
  | coef a => rfl
  | sample b a =>
    cases b
    case input =>
      refine Memory.coef_store_below hm (fun e he => ?_) r c
      obtain ⟨k, hk, rfl⟩ := mem_leCells.mp he
      have ha := accessTarget_sample_lt hg
      have hsize : size.bytes ≤ 4 := by cases size <;> decide
      simp only
      omega
    all_goals rfl

theorem State.writeTarget_tags (s : State) (size : Size) (v : Word) (g : Target) :
    (s.writeTarget size v g).tags = s.tags := by rw [State.writeTarget_frame]

/-- The host's and the model's own fields are nothing that the bounds speak of. -/
theorem State.CoefBounded.ownFields {s : State} (h : s.CoefBounded) (host : List HostOp) (turns : List Turn)
    (response : Option Response) : State.CoefBounded { s with host, turns, response } := h.congr rfl fun _ _ => rfl

theorem present_keeps_coefBounded {w : Word} {s t : State} (hs : s.CoefBounded) (h : present w s = .next t) :
    t.CoefBounded := by
  rcases present_cases h with ⟨e, rfl⟩ | ⟨i, -, -, -, rfl⟩
  · exact hs.congr (s.raise_tags e w) fun r c => by rw [State.raise_mem]
  · exact hs.congr rfl fun _ _ => rfl

theorem hostStep_keeps_coefBounded {s t : State} (hm : s.mem.wf = true) (hs : s.CoefBounded)
    (h : hostStep s = .next t) : t.CoefBounded := by
  rcases hostStep_next h with ⟨ops, r, rfl⟩ | ⟨w, ops, r, hw⟩ | ⟨size, addr, v, g, ops, r, hg, rfl⟩
  · exact hs.ownFields ops s.turns r
  · exact present_keeps_coefBounded (hs.ownFields ops s.turns r) hw
  · exact (hs.ownFields ops s.turns r).congr (State.writeTarget_tags _ size v g)
      (State.writeTarget_coef (s := { s with host := ops, response := r }) (addr := addr) hm hg v)

/-! ## Every step -/

theorem engineStep_keeps_coefBounded {s t : State} (hs : s.Inv) (hcoef : s.CoefBounded)
    (h : engineStep s = .next t) : t.CoefBounded := by
  cases hb : s.phase with
  | idle =>
    rw [engineStep_idle hb] at h
    cases h
    exact hcoef
  | busy =>
    obtain ⟨i, hd, hc⟩ := (hs.running hb).command
    rw [engineStep_completes hb hd] at h
    cases h
    exact (commandEffect_keeps_coefBounded hs.atRest (hs.running hb) hc hcoef).congr rfl fun _ _ => rfl

theorem step_keeps_coefBounded {s t : State} (hs : s.Inv) (hcoef : s.CoefBounded) (h : step s = .next t) :
    t.CoefBounded := by
  obtain ⟨u, ⟨ts, rfl⟩, hmove⟩ := step_next h
  have hu := hs.ownFields s.host ts s.response
  have hucoef := hcoef.ownFields s.host ts s.response
  rcases hmove with hhost | hengine | ⟨image, rfl⟩
  · exact hostStep_keeps_coefBounded hu.mem_wf hucoef hhost
  · exact engineStep_keeps_coefBounded hu hucoef hengine
  · exact State.coefBounded_of_tags_nil rfl

end Sys2Proof.Machine
end

section
/-! The runs from power-on: what holds of every state of one, and how its next step ends. -/

namespace Sys2Proof.Machine

/-- The Host's step is a next state or a bus error (60_exceptions.md R145, R150). -/
theorem hostStep_next_or_fault (s : State) : (∃ t, hostStep s = .next t) ∨ ∃ f, hostStep s = .fault f := by
  unfold hostStep
  split
  next => exact .inl ⟨_, rfl⟩
  next =>
    unfold hostRead
    split
    · exact .inr ⟨_, rfl⟩
    · exact .inl ⟨_, rfl⟩
  next =>
    unfold hostWrite
    split
    · exact .inr ⟨_, rfl⟩
    · exact .inl (present_next _ _)
    · exact .inl ⟨_, rfl⟩
  next =>
    unfold hostPoll
    split
    · exact .inr ⟨_, rfl⟩
    · dsimp only
      split <;> exact .inl ⟨_, rfl⟩

/-- Under the invariant a running command is legal, and the Engine's step completes it (43_scheduler.md R122). -/
theorem State.Inv.engineStep_next {s : State} (h : s.Inv) : ∃ t, engineStep s = .next t := by
  cases hb : s.phase with
  | idle => exact ⟨_, engineStep_idle hb⟩
  | busy =>
    obtain ⟨i, hd, -⟩ := h.busy_command hb
    exact ⟨_, engineStep_completes hb hd⟩

theorem State.Inv.turnStep_next_or_fault {s : State} (h : s.Inv) (g : Turn) :
    (∃ t, turnStep g s = .next t) ∨ ∃ f, turnStep g s = .fault f := by
  cases g with
  | host => exact hostStep_next_or_fault s
  | engine => exact .inl h.engineStep_next
  | reset image => exact .inl ⟨_, rfl⟩

/-- Under the invariant no step is refused (log 16). -/
theorem State.Inv.step_next_or_fault {s : State} (h : s.Inv) :
    (∃ t, step s = .next t) ∨ ∃ f, step s = .fault f := by
  cases hts : s.turns with
  | nil =>
    rw [step_default hts]
    exact h.turnStep_next_or_fault _
  | cons g rest =>
    rw [step_of_turn hts]
    exact (h.ownFields s.host rest s.response).turnStep_next_or_fault g

/-- The invariant and the bounds hold at power-on and every step keeps them, so they hold of every state of a run. -/
theorem Reachable.inv_and_coefBounded {s : State} (h : Reachable s) : s.Inv ∧ s.CoefBounded := by
  induction h with
  | boot host turns =>
    exact ⟨State.reset_inv.ownFields host turns none, State.reset_coefBounded.ownFields host turns none⟩
  | step _ hstep ih =>
    obtain ⟨hinv, hcoef⟩ := ih
    exact ⟨step_keeps_inv hinv hstep, step_keeps_coefBounded hinv hcoef hstep⟩

end Sys2Proof.Machine
end

section
/-! The obligations about the inverse transform, the dequantizer and the bounds on coefficients. -/

namespace Sys2Proof.Proofs

open Sys2Proof.Machine

/-- Settles O26: FDCT's values are within R98's bound whatever the samples, the inverse of a QCOEF block within R112's,
a command inverts QCOEF blocks only, and nothing else writes coefficients or gives a tag but EMPTY. -/
theorem everyStepKeepsCoefficientsBounded : Obligations.EveryStepKeepsCoefficientsBounded :=
  fun _ _ => step_keeps_coefBounded

/-- Settles O16: the stored block reads back R107's formula, and nothing outside the block and its tag changes. -/
theorem invbComputesTheInverseFormula : Obligations.InvbComputesTheInverseFormula := by
  intro s p q hbusy hwf htags hq
  have hdone : exec (.invb p q) s = .next (inverseBlock p q s).finish := exec_completes hbusy
  refine ⟨_, hdone, fun i j hi hj => ?_, fun a ha => ?_, fun p' q' hq' => ?_⟩
  · rw [State.finish_mem, inverseBlock_coef_eq_formula hwf p q hi hj]
  · rw [State.finish_mem, (inverseBlock_agreesOutside p q hwf).2 a ha]
  · rw [State.finish_tag, inverseBlock_tag htags p hq hq']

/-- Settles O17: IDCT is a function of one block, and INV is a pass of it that visits each grid block once. -/
theorem invTransformsEveryGridBlock : Obligations.InvTransformsEveryGridBlock := by
  intro s hbusy hwf htags hph hpw
  have hgrid : ∀ b ∈ s.grid, InWindow b := fun b hb => State.inWindow_of_mem_grid hph hpw hb
  refine ⟨_, exec_completes hbusy, fun p q i j hp hq hi hj => ?_, fun p q hq => ?_⟩
  · exact inverseBlock_blockFunction.foldl_coef hi hj hgrid s.grid_nodup ⟨hwf, htags⟩ (b' := (p, q))
      (State.mem_grid.mpr ⟨hp, hq⟩)
  · have htag := inverseBlock_blockFunction.foldl_tag hgrid ⟨hwf, htags⟩ p hq
    simp only [State.mem_grid] at htag
    rw [State.finish_tag]
    exact htag

/-- Settles O28: the invariant and the bounds hold of every state of a run, and under the invariant the Engine never
holds an illegal command. -/
theorem everyRunStaysWithinTheInvariant : Obligations.EveryRunStaysWithinTheInvariant := by
  intro s hs
  obtain ⟨hinv, hcoef⟩ := hs.inv_and_coefBounded
  exact ⟨hinv, hcoef, hinv.step_next_or_fault⟩

end Sys2Proof.Proofs
end

section
/-! The lifecycle of a command (43_scheduler.md R120, R122): its checks are the conditions of its rule, a rejection sets
error bits of IRQ_STATUS only, and what the Host's and the Engine's turns make of it. -/

namespace Sys2Proof.Machine

/-! ## The checks as conditions -/

theorem dimensionCheck_eq_none_iff {s : State} :
    dimensionCheck s = none ↔ s.inW.toNat % 65536 ≠ 0 ∧ s.inH.toNat % 65536 ≠ 0 ∧
      padDim (s.inW.toNat % 65536) ≤ 1024 ∧ padDim (s.inH.toNat % 65536) ≤ 1024 := by
  rw [← dimField_eq, ← dimField_eq]
  refine ⟨dimensionCheck_none, fun ⟨hw0, hh0, hw, hh⟩ => ?_⟩
  rw [dimensionCheck, if_neg (not_or.mpr ⟨hw0, hh0⟩), if_neg (not_or.mpr ⟨not_lt.mpr hw, not_lt.mpr hh⟩)]

theorem paddedCheck_eq_none_iff {s : State} : paddedCheck s = none ↔ s.pvalid = true := by simp [paddedCheck]

theorem blockCheck_eq_none_iff {p q : Nat} {s : State} :
    blockCheck p q s = none ↔ s.pvalid = true ∧ 8 * p < s.ph ∧ 8 * q < s.pw := by
  rw [← State.inGrid_iff, blockCheck]
  cases s.pvalid <;> simp

theorem invbCheck_eq_none_iff {p q : Nat} {s : State} :
    invbCheck p q s = none ↔ blockCheck p q s = none ∧ s.tag p q = .qcoef := by
  rw [invbCheck]
  cases blockCheck p q s <;> simp

theorem gridTagCheck_eq_none_iff {g : Tag} {s : State} :
    gridTagCheck g s = none ↔ s.pvalid = true ∧ ∀ p q, p < s.ph / 8 → q < s.pw / 8 → s.tag p q = g := by
  rw [← State.gridHasTag_iff, gridTagCheck]
  cases s.pvalid <;> simp

/-- The checks of a command pass exactly where its rule accepts it. -/
theorem commandCheck_eq_none_iff (i : Instr) (s : State) : commandCheck i s = none ↔ Acceptable s i := by
  cases i with
  | nop => exact iff_of_true rfl trivial
  | pad | run => exact dimensionCheck_eq_none_iff
  | fwd => exact paddedCheck_eq_none_iff
  | inv | reasm => exact gridTagCheck_eq_none_iff
  | fwdb p q => exact blockCheck_eq_none_iff
  | invb p q =>
    rw [commandCheck, invbCheck_eq_none_iff, blockCheck_eq_none_iff, and_assoc, and_assoc]
    rfl

/-! ## The error bits of IRQ_STATUS (60_exceptions.md R148) -/

theorem irqErr_getLsbD (n : Nat) : irqErr.getLsbD n = decide (n = 1) := by
  rw [irqErr, show (0x2 : Word) = BitVec.twoPow 32 1 by decide, BitVec.getLsbD_twoPow]
  simp [eq_comm]

theorem irqOverrun_getLsbD (n : Nat) : irqOverrun.getLsbD n = decide (n = 3) := by
  rw [irqOverrun, show (0x8 : Word) = BitVec.twoPow 32 3 by decide, BitVec.getLsbD_twoPow]
  simp [eq_comm]

/-- A rejection sets ERR or, where it is set, OVERRUN. -/
theorem State.raise_irqStatus_cases (s : State) (e : CmdError) (w : Word) :
    (s.raise e w).irqStatus = s.irqStatus ||| irqErr ∨
      s.irqStatus.getLsbD 1 = true ∧ (s.raise e w).irqStatus = s.irqStatus ||| irqOverrun := by
  by_cases herr : s.irqStatus &&& irqErr = 0
  · exact .inl (by rw [State.raise_first s e w herr])
  · refine .inr ⟨?_, by rw [State.raise_overrun s e w herr]⟩
    by_contra hbit
    refine herr (BitVec.eq_of_getLsbD_eq fun n _ => ?_)
    rw [BitVec.getLsbD_and, irqErr_getLsbD]
    rcases eq_or_ne n 1 with rfl | hn
    · rw [Bool.eq_false_of_not_eq_true hbit]
      rfl
    · simp [hn]

theorem State.raise_irqBit_err (s : State) (e : CmdError) (w : Word) :
    (s.raise e w).irqStatus.getLsbD 1 = true := by
  rcases s.raise_irqStatus_cases e w with heq | ⟨hbit, heq⟩
  · rw [heq, BitVec.getLsbD_or, irqErr_getLsbD, decide_eq_true rfl, Bool.or_true]
  · rw [heq, BitVec.getLsbD_or, hbit, Bool.true_or]

theorem State.raise_irqBit_other (s : State) (e : CmdError) (w : Word) {n : Nat} (h1 : n ≠ 1) (h3 : n ≠ 3) :
    (s.raise e w).irqStatus.getLsbD n = s.irqStatus.getLsbD n := by
  rcases s.raise_irqStatus_cases e w with heq | ⟨-, heq⟩
  · rw [heq, BitVec.getLsbD_or, irqErr_getLsbD, decide_eq_false h1, Bool.or_false]
  · rw [heq, BitVec.getLsbD_or, irqOverrun_getLsbD, decide_eq_false h3, Bool.or_false]

/-! ## The Host's turn -/

/-- A 4-byte write to CMD presents its word (43_scheduler.md R120). -/
theorem hostStep_cmd {s : State} {w : Word} {rest : List HostOp} (h : s.host = .write .word 0x010 w :: rest) :
    hostStep s = present w { s with host := rest, response := some .okay } := by
  rw [hostStep, h]
  simp only [hostWrite, State.target_cmd]
  rfl

/-- A Host without a pending operation changes nothing. -/
theorem hostStep_nil {s : State} (h : s.host = []) : hostStep s = .next s := by rw [hostStep, h]

/-- A step that is a fault is the Host's, with an operation pending. -/
theorem State.Inv.host_of_step_fault {s : State} (hs : s.Inv) {f : Fault} (h : step s = .fault f) :
    (s.turns.head? = some .host ∨ (s.turns = [] ∧ s.phase = .idle)) ∧ s.host ≠ [] := by
  have host_ne_nil : ∀ {u : State}, hostStep u = .fault f → u.host ≠ [] := fun {u} hu hnil => by
    rw [hostStep_nil hnil] at hu
    cases hu
  have engine_next : ∀ {u : State}, u.Inv → engineStep u ≠ .fault f := fun {u} hu heq => by
    obtain ⟨t, ht⟩ := hu.engineStep_next
    rw [ht] at heq
    cases heq
  cases hts : s.turns with
  | nil =>
    rw [step_default hts] at h
    cases hphase : s.phase with
    | idle =>
      rw [State.defaultTurn_idle hphase] at h
      exact ⟨.inr ⟨rfl, rfl⟩, host_ne_nil h⟩
    | busy =>
      rw [State.defaultTurn_busy hphase] at h
      exact absurd h (engine_next hs)
  | cons g rest =>
    rw [step_of_turn hts] at h
    cases g with
    | host => exact ⟨.inl rfl, host_ne_nil (u := { s with turns := rest }) h⟩
    | engine => exact absurd h (engine_next (hs.ownFields s.host rest s.response))
    | reset image => cases h

/-! ## The Engine's turn -/

theorem engineStep_busy {s : State} {i : Instr} (hb : s.phase = .busy) (hd : decode s.engCmd = .ok i) :
    engineStep s = exec i s := by rw [engineStep_completes hb hd, exec_completes hb]

/-- A completion idles the Engine, sets DONE and leaves the error registers (43_scheduler.md R122). -/
theorem State.Inv.engineStep_done {s : State} (hs : s.Inv) (hb : s.phase = .busy) :
    ∃ t, engineStep s = .next t ∧ t.phase = .idle ∧ t.irqStatus.getLsbD 0 = true ∧ t.errCode = s.errCode ∧
      t.errCmd = s.errCmd ∧ t.irqStatus.getLsbD 1 = s.irqStatus.getLsbD 1 := by
  obtain ⟨i, hd, -⟩ := hs.busy_command hb
  have hw := commandEffect_writes i s
  have hstep := engineStep_completes hb hd
  generalize commandEffect i s = u at hw hstep
  refine ⟨u.finish, hstep, rfl, ?_, ?_, ?_, ?_⟩
  · rw [State.finish_irqBit, decide_eq_true rfl, Bool.or_true]
  · rw [State.finish_errCode, hw.frame]
  · rw [State.finish_errCmd, hw.frame]
  · rw [State.finish_irqBit, decide_eq_false (by norm_num), Bool.or_false, hw.irqBit (by norm_num)]

end Sys2Proof.Machine
end

section
/-! Writes to distinct places commute, and so do the block functions of distinct blocks (43_scheduler.md R125). -/

namespace Sys2Proof.Machine

/-! ## Sparse maps -/

/-- Writes to two keys of a canonical map commute. -/
theorem sparseSet_comm {α : Type} [DecidableEq α] {d : α} {m : List (Nat × α)} (hm : sparseWfFrom d 0 m = true)
    {a b : Nat} (hab : a ≠ b) (v w : α) :
    sparseSet d (sparseSet d m a v) b w = sparseSet d (sparseSet d m b w) a v := by
  have hwf : ∀ {n : List (Nat × α)} (k : Nat) (u : α), sparseWfFrom d 0 n = true →
      sparseWfFrom d 0 (sparseSet d n k u) = true := fun k u hn => sparseSet_wfFrom k u hn (Nat.zero_le k)
  refine sparse_ext (hwf b w (hwf a v hm)) (hwf a v (hwf b w hm)) fun k => ?_
  rw [sparseGet_sparseSet b k w (hwf a v hm), sparseGet_sparseSet a k v hm, sparseGet_sparseSet a k v (hwf b w hm),
    sparseGet_sparseSet b k w hm]
  by_cases hka : k = a
  · rw [if_pos hka, if_neg (hka ▸ hab), if_pos hka]
  · rw [if_neg hka, if_neg hka]

/-- A write to a key that a list of writes does not name commutes with the list. -/
theorem sparseSetAll_sparseSet_comm {α : Type} [DecidableEq α] {d : α} {cs : List (Nat × α)} {a : Nat}
    (ha : ∀ c ∈ cs, a ≠ c.1) (v : α) {m : List (Nat × α)} (hm : sparseWfFrom d 0 m = true) :
    sparseSetAll d (sparseSet d m a v) cs = sparseSet d (sparseSetAll d m cs) a v := by
  induction cs generalizing m with
  | nil => rfl
  | cons c cs ih =>
    obtain ⟨hac, hacs⟩ := List.forall_mem_cons.mp ha
    rw [sparseSetAll_cons, sparseSetAll_cons, sparseSet_comm hm hac, ih hacs (sparseSet_wfFrom _ _ hm (Nat.zero_le _))]

/-- Lists of writes that name no key in common commute. -/
theorem sparseSetAll_comm {α : Type} [DecidableEq α] {d : α} {cs cs' : List (Nat × α)}
    (hne : ∀ c ∈ cs, ∀ c' ∈ cs', c.1 ≠ c'.1) {m : List (Nat × α)} (hm : sparseWfFrom d 0 m = true) :
    sparseSetAll d (sparseSetAll d m cs) cs' = sparseSetAll d (sparseSetAll d m cs') cs := by
  induction cs generalizing m with
  | nil => rfl
  | cons c cs ih =>
    obtain ⟨hc, hcs⟩ := List.forall_mem_cons.mp hne
    rw [sparseSetAll_cons, sparseSetAll_cons, ih hcs (sparseSet_wfFrom _ _ hm (Nat.zero_le _)),
      sparseSetAll_sparseSet_comm hc c.2 hm]

/-! ## One block written -/

/-- The block `b` of COEF holding the coefficients `f`, with the tag `g`: what a block function does. -/
def State.writeBlock (b : Nat × Nat) (f : Nat → Nat → F64) (g : Tag) (s : State) : State :=
  (s.store (coefBlockCells b.1 b.2 f)).setTag b.1 b.2 g

theorem forwardBlock_eq_writeBlock (b : Nat × Nat) (s : State) :
    forwardBlock b.1 b.2 s = s.writeBlock b (s.fdctValue b.1 b.2) .qcoef := rfl

theorem inverseBlock_eq_writeBlock (b : Nat × Nat) (s : State) :
    inverseBlock b.1 b.2 s = s.writeBlock b (s.idctValue b.1 b.2) .recon := rfl

@[simp] theorem State.writeBlock_mem (b : Nat × Nat) (f : Nat → Nat → F64) (g : Tag) (s : State) :
    (s.writeBlock b f g).mem = s.mem.store (coefBlockCells b.1 b.2 f) := by
  rw [State.writeBlock, State.setTag_mem, State.store_mem]
@[simp] theorem State.writeBlock_engSnap (b : Nat × Nat) (f : Nat → Nat → F64) (g : Tag) (s : State) :
    (s.writeBlock b f g).engSnap = s.engSnap := by
  rw [State.writeBlock, State.setTag_engSnap, State.store_engSnap]
@[simp] theorem State.writeBlock_qtab (b : Nat × Nat) (f : Nat → Nat → F64) (g : Tag) (s : State) :
    (s.writeBlock b f g).qtab = s.qtab := by
  rw [State.writeBlock, State.setTag_qtab, State.store_qtab]

section DistinctBlocks

variable {b b' : Nat × Nat} {s : State}

/-- No byte belongs to two blocks of the window (20_memory.md R55). -/
theorem coefBlockCells_keys_ne (hb : InWindow b) (hb' : InWindow b') (hne : b ≠ b') {f f' : Nat → Nat → F64} :
    ∀ c ∈ coefBlockCells b.1 b.2 f, ∀ c' ∈ coefBlockCells b'.1 b'.2 f', c.1 ≠ c'.1 := by
  intro c hc c' hc' heq
  obtain ⟨x, hx, y, hy, k, hk, rfl⟩ := mem_coefBlockCells.mp hc
  obtain ⟨x', hx', y', hy', k', hk', rfl⟩ := mem_coefBlockCells.mp hc'
  have hq := hb.2
  have hq' := hb'.2
  obtain ⟨hrow, hcol, -⟩ := coefAddr_inj (by omega) (by omega) hk hk' heq
  exact hne (Prod.ext (by omega) (by omega))

/-- Writes of distinct blocks commute, whatever they write. -/
theorem State.writeBlock_comm (hs : s.Canonical) (hb : InWindow b) (hb' : InWindow b') (hne : b ≠ b')
    (f f' : Nat → Nat → F64) (g g' : Tag) :
    (s.writeBlock b' f' g').writeBlock b f g = (s.writeBlock b f g).writeBlock b' f' g' := by
  have hkey : tagKey b'.1 b'.2 ≠ tagKey b.1 b.2 := by
    have hq := hb.2
    have hq' := hb'.2
    unfold tagKey
    exact fun heq => hne (Prod.ext (by omega) (by omega))
  have hmem : (s.mem.store (coefBlockCells b'.1 b'.2 f')).store (coefBlockCells b.1 b.2 f) =
      (s.mem.store (coefBlockCells b.1 b.2 f)).store (coefBlockCells b'.1 b'.2 f') :=
    sparseSetAll_comm (coefBlockCells_keys_ne hb' hb hne.symm) hs.1
  simp only [State.writeBlock, State.store_setTag, hmem, sparseSet_comm hs.2 hkey]

/-- FDCT reads PSRC, which no block of COEF overlaps. -/
theorem State.writeBlock_fdctValue (hs : s.Canonical) (hb : InWindow b) (f' : Nat → Nat → F64) (g' : Tag) :
    (s.writeBlock b' f' g').fdctValue b.1 b.2 = s.fdctValue b.1 b.2 := by
  obtain ⟨hp, hq⟩ := hb
  funext x y
  rw [State.fdctValue_eq, State.fdctValue_eq, ← forwardFormula_eq_fdctElement, ← forwardFormula_eq_fdctElement]
  refine forwardFormula_congr (State.writeBlock_engSnap ..) (State.writeBlock_qtab ..) (fun u hu v hv => ?_) x y
  rw [State.writeBlock_mem]
  exact Memory.sample_store_block hs.1 (by omega) (by omega)

/-- IDCT reads the coefficients of its own block. -/
theorem State.writeBlock_idctValue (hs : s.Canonical) (hb : InWindow b) (hb' : InWindow b') (hne : b ≠ b')
    (f' : Nat → Nat → F64) (g' : Tag) : (s.writeBlock b' f' g').idctValue b.1 b.2 = s.idctValue b.1 b.2 := by
  have hne : b.1 ≠ b'.1 ∨ b.2 ≠ b'.2 := by rwa [ne_eq, Prod.ext_iff, not_and_or] at hne
  have hq := hb.2
  have hq' := hb'.2
  funext i j
  rw [State.idctValue_eq, State.idctValue_eq, ← inverseFormula_eq_idctElement, ← inverseFormula_eq_idctElement]
  refine inverseFormula_congr (State.writeBlock_engSnap ..) (State.writeBlock_qtab ..) (fun u hu v hv => ?_) i j
  rw [State.writeBlock_mem]
  exact Memory.coef_store_block_other hs.1 (by omega) (by omega) (by omega)

theorem forwardBlock_forwardBlock_comm (hs : s.Canonical) (hb : InWindow b) (hb' : InWindow b') (hne : b ≠ b') :
    forwardBlock b.1 b.2 (forwardBlock b'.1 b'.2 s) = forwardBlock b'.1 b'.2 (forwardBlock b.1 b.2 s) := by
  simp only [forwardBlock_eq_writeBlock, State.writeBlock_fdctValue hs hb, State.writeBlock_fdctValue hs hb',
    State.writeBlock_comm hs hb hb' hne]

theorem inverseBlock_inverseBlock_comm (hs : s.Canonical) (hb : InWindow b) (hb' : InWindow b') (hne : b ≠ b') :
    inverseBlock b.1 b.2 (inverseBlock b'.1 b'.2 s) = inverseBlock b'.1 b'.2 (inverseBlock b.1 b.2 s) := by
  simp only [inverseBlock_eq_writeBlock, State.writeBlock_idctValue hs hb hb' hne,
    State.writeBlock_idctValue hs hb' hb hne.symm, State.writeBlock_comm hs hb hb' hne]

theorem forwardBlock_inverseBlock_comm (hs : s.Canonical) (hb : InWindow b) (hb' : InWindow b') (hne : b ≠ b') :
    forwardBlock b.1 b.2 (inverseBlock b'.1 b'.2 s) = inverseBlock b'.1 b'.2 (forwardBlock b.1 b.2 s) := by
  simp only [forwardBlock_eq_writeBlock, inverseBlock_eq_writeBlock, State.writeBlock_fdctValue hs hb,
    State.writeBlock_idctValue hs hb' hb hne.symm, State.writeBlock_comm hs hb hb' hne]

end DistinctBlocks

end Sys2Proof.Machine
end

section
/-! RUN over the grid: the two schedules leave the same state (43_scheduler.md R127, R128), and which changes of the
Engine's fields the transforms do not see. -/

namespace Sys2Proof.Machine

/-! ## The two schedules -/

/-- The inverse of a block may go before a forward pass over other blocks or after it. -/
theorem inverseBlock_foldl_forwardBlock_comm {b : Nat × Nat} {bs : List (Nat × Nat)} (hb : InWindow b)
    (hbs : ∀ b' ∈ bs, InWindow b') (hnot : b ∉ bs) {s : State} (hs : s.Canonical) :
    bs.foldl (fun t b' => forwardBlock b'.1 b'.2 t) (inverseBlock b.1 b.2 s) =
      inverseBlock b.1 b.2 (bs.foldl (fun t b' => forwardBlock b'.1 b'.2 t) s) := by
  induction bs generalizing s with
  | nil => rfl
  | cons b' bs ih =>
    obtain ⟨hb', hbs⟩ := List.forall_mem_cons.mp hbs
    obtain ⟨hne, hnot⟩ := List.ne_and_not_mem_of_not_mem_cons hnot
    rw [List.foldl_cons, List.foldl_cons, forwardBlock_inverseBlock_comm hs hb' hb hne.symm,
      ih hbs hnot (forwardBlock_blockFunction.canonical (b := b') hs)]

/-- Forward and inverse block by block, or all forward and then all inverse. -/
theorem foldl_interleaved_eq_foldl_foldl {bs : List (Nat × Nat)} (hbs : ∀ b ∈ bs, InWindow b) (hnodup : bs.Nodup)
    {s : State} (hs : s.Canonical) :
    bs.foldl (fun t b => inverseBlock b.1 b.2 (forwardBlock b.1 b.2 t)) s =
      bs.foldl (fun t b => inverseBlock b.1 b.2 t) (bs.foldl (fun t b => forwardBlock b.1 b.2 t) s) := by
  induction bs generalizing s with
  | nil => simp only [List.foldl_nil]
  | cons b bs ih =>
    obtain ⟨hb, hbs⟩ := List.forall_mem_cons.mp hbs
    obtain ⟨hnot, hnodup⟩ := List.nodup_cons.mp hnodup
    have hfwd := forwardBlock_blockFunction.canonical (b := b) hs
    rw [List.foldl_cons, List.foldl_cons, List.foldl_cons,
      ih hbs hnodup (inverseBlock_blockFunction.canonical (b := b) hfwd),
      inverseBlock_foldl_forwardBlock_comm hb hbs hnot hfwd]

theorem fwdEffect_grid (s : State) : (fwdEffect s).grid = s.grid := by rw [fwdEffect_frame]; rfl

theorem interleavedPass_eq_twoPass {s : State} (hs : s.Canonical) (hph : s.ph ≤ 1024) (hpw : s.pw ≤ 1024) :
    interleavedPass s = twoPass s := by
  rw [interleavedPass, twoPass, invEffect, fwdEffect_grid]
  exact foldl_interleaved_eq_foldl_foldl (fun b hb => State.inWindow_of_mem_grid hph hpw hb) s.grid_nodup hs

/-- PAD leaves the two sparse maps canonical, the tags whatever they were. -/
theorem padEffect_canonical {s : State} (h : s.mem.wf = true) : (padEffect s).Canonical :=
  ⟨Memory.store_wf h _, rfl⟩

/-- The canvas that RUN goes over fits the buffers. -/
def State.SnapFits (s : State) : Prop :=
  padDim (s.engSnap.inW.toNat % 65536) ≤ 1024 ∧ padDim (s.engSnap.inH.toNat % 65536) ≤ 1024

theorem State.SnapFits.padEffect_le {s : State} (h : s.SnapFits) :
    (padEffect s).ph ≤ 1024 ∧ (padEffect s).pw ≤ 1024 := by
  rw [padEffect_ph, padEffect_pw]
  exact ⟨(Nat.mod_le _ _).trans h.2, (Nat.mod_le _ _).trans h.1⟩

/-- RUN's effect in either schedule (43_scheduler.md R128). -/
theorem runEffect_eq_twoPass {s : State} (h : s.mem.wf = true) (hfit : s.SnapFits) :
    runEffect s = reasmEffect (twoPass (padEffect s)) := by
  obtain ⟨hph, hpw⟩ := hfit.padEffect_le
  rw [runEffect]
  split
  next => rfl
  next => rw [interleavedPass_eq_twoPass (padEffect_canonical h) hph hpw]

/-! ## Changes that the transforms do not see -/

/-- `φ` changes nothing that the transforms read or write: the buffers, the tags, the grid, and what the values of a
block are computed from. -/
structure KeepsTransforms (φ : State → State) : Prop where
  writeBlock : ∀ b f g s, φ (s.writeBlock b f g) = (φ s).writeBlock b f g
  grid : ∀ s, (φ s).grid = s.grid
  fdctValue : ∀ s, (φ s).fdctValue = s.fdctValue
  idctValue : ∀ s, (φ s).idctValue = s.idctValue

namespace KeepsTransforms

variable {φ : State → State} (h : KeepsTransforms φ)

include h

theorem forwardBlock_comm (b : Nat × Nat) (s : State) : forwardBlock b.1 b.2 (φ s) = φ (forwardBlock b.1 b.2 s) := by
  rw [forwardBlock_eq_writeBlock, forwardBlock_eq_writeBlock, h.writeBlock, h.fdctValue]

theorem inverseBlock_comm (b : Nat × Nat) (s : State) : inverseBlock b.1 b.2 (φ s) = φ (inverseBlock b.1 b.2 s) := by
  rw [inverseBlock_eq_writeBlock, inverseBlock_eq_writeBlock, h.writeBlock, h.idctValue]

theorem fwdEffect_comm (s : State) : fwdEffect (φ s) = φ (fwdEffect s) := by
  rw [fwdEffect, h.grid]
  exact List.foldl_hom φ fun t b => h.forwardBlock_comm b t

theorem invEffect_comm (s : State) : invEffect (φ s) = φ (invEffect s) := by
  rw [invEffect, h.grid]
  exact List.foldl_hom φ fun t b => h.inverseBlock_comm b t

theorem twoPass_comm (s : State) : twoPass (φ s) = φ (twoPass s) := by
  rw [twoPass, h.fwdEffect_comm, h.invEffect_comm, twoPass]

end KeepsTransforms

/-! ## The latched SCHED -/

/-- The state with SCHED, bit 5 of the latched CTRL, flipped (10_state.md R27). -/
def State.flipSched (s : State) : State :=
  { s with engSnap := { s.engSnap with ctrl := s.engSnap.ctrl ^^^ 0x20 } }

/-- The other bits of CTRL are what they were. -/
theorem getLsbD_flipSched (c : Word) {k : Nat} (hk : k ≠ 5) : (c ^^^ 0x20).getLsbD k = c.getLsbD k := by
  rw [BitVec.getLsbD_xor, show (0x20 : Word) = BitVec.twoPow 32 5 by decide, BitVec.getLsbD_twoPow]
  simp [hk.symm]

theorem ctrlPadMode_flipSched (c : Word) : ctrlPadMode (c ^^^ 0x20) = ctrlPadMode c := by
  rw [ctrlPadMode, BitVec.extractLsb'_xor, show (0x20 : Word).extractLsb' 0 2 = 0 by decide]
  exact BitVec.xor_zero

theorem ctrlTrunc_flipSched (c : Word) : ctrlTrunc (c ^^^ 0x20) = ctrlTrunc c := getLsbD_flipSched c (by decide)

theorem ctrlStdOrder_flipSched (c : Word) : ctrlStdOrder (c ^^^ 0x20) = ctrlStdOrder c :=
  getLsbD_flipSched c (by decide)

theorem ctrlBypass_flipSched (c : Word) : ctrlBypass (c ^^^ 0x20) = ctrlBypass c := getLsbD_flipSched c (by decide)

theorem State.flipSched_step64 (s : State) : s.flipSched.step64 = s.step64 := by
  funext x y
  simp only [State.step64, State.flipSched, ctrlBypass_flipSched, State.qtable]

theorem keepsTransforms_flipSched : KeepsTransforms State.flipSched where
  writeBlock _ _ _ _ := by simp only [State.writeBlock, State.store, State.setTag, State.flipSched]
  grid _ := rfl
  fdctValue s := by
    funext p q
    rw [State.fdctValue, State.flipSched_step64]
    rfl
  idctValue s := by
    funext p q
    rw [State.idctValue, State.flipSched_step64]
    simp only [State.flipSched, ctrlStdOrder_flipSched]
    rfl

theorem padEffect_flipSched (s : State) : padEffect s.flipSched = (padEffect s).flipSched := by
  have hcells : padCells s.flipSched = padCells s := by
    have helement : padElement s.mem (s.engSnap.ctrl ^^^ 0x20) = padElement s.mem s.engSnap.ctrl := by
      funext w h r c
      simp only [padElement, padFill, ctrlPadMode_flipSched]
    simp only [padCells, State.flipSched, helement]
  rw [padEffect, hcells]
  rfl

theorem reasmEffect_flipSched (s : State) : reasmEffect s.flipSched = (reasmEffect s).flipSched := by
  have helement : s.flipSched.reasmElement = s.reasmElement := by
    funext r c
    simp only [State.reasmElement, State.flipSched, ctrlTrunc_flipSched]
  have hcells : reasmCells s.flipSched = reasmCells s := by
    rw [reasmCells, helement]
    rfl
  have hclamps : reasmClamps s.flipSched = reasmClamps s := by
    rw [reasmClamps, helement]
    rfl
  rw [reasmEffect, hcells, hclamps]
  rfl

theorem runEffect_flipSched {s : State} (h : s.mem.wf = true) (hfit : s.SnapFits) :
    runEffect s.flipSched = (runEffect s).flipSched := by
  rw [runEffect_eq_twoPass h hfit, runEffect_eq_twoPass (s := s.flipSched) h hfit, padEffect_flipSched,
    keepsTransforms_flipSched.twoPass_comm, reasmEffect_flipSched]

/-! ## Another command in the Engine -/

/-- The registers that acceptance copies, as they stand (43_scheduler.md R120). -/
def State.snapNow (s : State) : Snap := ⟨s.ctrl, s.inW, s.inH, s.clampCnt⟩

/-- The state with the command word `w` in the Engine, an earlier command having completed. -/
def State.nextInEngine (w : Word) (s : State) : State :=
  { s with phase := .busy, engCmd := w, irqStatus := s.irqStatus ||| irqDone }

/-- A command accepted right after a completion finds its predecessor's snapshot where the registers are still those. -/
theorem State.finish_accept {s : State} (h : s.engSnap = s.snapNow) (w : Word) :
    s.finish.accept w = s.nextInEngine w := by
  have hsnap : (s.finish.accept w).engSnap = s.engSnap := h.symm
  rw [State.nextInEngine, ← hsnap]
  rfl

theorem State.nextInEngine_finish_accept {s : State} (h : s.engSnap = s.snapNow) (w w' : Word) :
    (s.nextInEngine w).finish.accept w' = s.nextInEngine w' := by
  rw [State.finish_accept (s := s.nextInEngine w) h]
  simp only [State.nextInEngine, BitVec.or_assoc, BitVec.or_self]

theorem keepsTransforms_nextInEngine (w : Word) : KeepsTransforms (State.nextInEngine w) where
  writeBlock _ _ _ _ := by simp only [State.writeBlock, State.store, State.setTag, State.nextInEngine]
  grid _ := rfl
  fdctValue _ := rfl
  idctValue _ := rfl

/-- Reporting clamps and an earlier completion's DONE set distinct bits of IRQ_STATUS. -/
theorem State.reportClamps_nextInEngine (w : Word) (s : State) (k : Nat) :
    (s.nextInEngine w).reportClamps k = (s.reportClamps k).nextInEngine w := by
  have hirq : (s.reportClamps k).irqStatus ||| irqDone = ((s.nextInEngine w).reportClamps k).irqStatus := by
    simp only [State.reportClamps_irqStatus, State.nextInEngine]
    split
    · rw [BitVec.or_assoc, BitVec.or_comm irqClamp, BitVec.or_assoc]
    · rfl
  symm
  rw [State.nextInEngine, hirq]
  rfl

theorem reasmEffect_nextInEngine (w : Word) (s : State) :
    reasmEffect (s.nextInEngine w) = (reasmEffect s).nextInEngine w :=
  State.reportClamps_nextInEngine w (s.store (reasmCells s)) (reasmClamps s)

/-- The end of a command leaves the same but for ENG.CMD where an earlier command has completed before it. -/
theorem State.finish_eq_nextInEngine_finish (w : Word) (s : State) :
    s.finish = { (s.nextInEngine w).finish with engCmd := s.engCmd } := by
  simp only [State.finish, State.nextInEngine, BitVec.or_assoc, BitVec.or_self]

/-! ## The stages of RUN, presented one after another (43_scheduler.md R127) -/

/-- A command whose checks pass, presented after a completion: its acceptance and its completion. -/
theorem exec_after_completion {i : Instr} {s : State} (hsnap : s.engSnap = s.snapNow) (hc : commandCheck i s = none)
    (w : Word) :
    exec i (s.nextInEngine w).finish = .next (s.nextInEngine (encode i)) ∧
      exec i (s.nextInEngine (encode i)) = .next (commandEffect i (s.nextInEngine (encode i))).finish := by
  have hc' : commandCheck i (s.nextInEngine w).finish = none := by cases i <;> exact hc
  refine ⟨?_, exec_completes rfl⟩
  rw [exec_accepted rfl hc', State.nextInEngine_finish_accept hsnap]

theorem runEffect_engCmd_engSnap (s : State) :
    (runEffect s).engCmd = s.engCmd ∧ (runEffect s).engSnap = s.engSnap := by
  have hframe : runEffect s = _ := (commandEffect_writes .run s).frame
  rw [hframe]
  exact ⟨rfl, rfl⟩

/-- What RUN's stages find: a padded canvas that fits the buffers, and a snapshot of the registers as they stand. -/
structure State.CanvasReady (s : State) : Prop where
  canonical : s.Canonical
  ph_le : s.ph ≤ 1024
  pw_le : s.pw ≤ 1024
  pvalid : s.pvalid = true
  snapshot : s.engSnap = s.snapNow

namespace State.CanvasReady

variable {s : State} (h : s.CanvasReady)

include h

theorem grid_inWindow : ∀ b ∈ s.grid, InWindow b := fun _ hb => State.inWindow_of_mem_grid h.ph_le h.pw_le hb

/-- A pass of a block function leaves a canvas of blocks with its tag: the tag check of the next stage passes. -/
theorem after_pass {f : Nat × Nat → State → State} {val : State → Nat × Nat → Nat → Nat → F64} {g : Tag}
    (hf : BlockFunction f val g)
    (hframe : ∀ b t, f b t = { t with mem := (f b t).mem, tags := (f b t).tags }) :
    CanvasReady (s.grid.foldl (fun t b => f b t) s) ∧ gridTagCheck g (s.grid.foldl (fun t b => f b t) s) = none := by
  have hcanonical := foldl_blocks_keeps (f := f) (P := State.Canonical) s.grid (fun _ _ _ => hf.canonical) s h.canonical
  have htags : ∀ b ∈ s.grid, (s.grid.foldl (fun t b => f b t) s).tag b.1 b.2 = g := fun b hb =>
    (hf.foldl_tag h.grid_inWindow h.canonical b.1 ((h.grid_inWindow b hb).2.trans (by norm_num))).trans (if_pos hb)
  rw [foldl_blocks_frame hframe] at hcanonical htags ⊢
  exact ⟨{ h with canonical := hcanonical }, gridTagCheck_eq_none_iff.mpr
    ⟨h.pvalid, fun p q hp hq => htags (p, q) (State.mem_grid.mpr ⟨hp, hq⟩)⟩⟩

/-- FWD leaves a canvas whose blocks INV may read (41_forward_quantize.md R95). -/
theorem after_fwd : (fwdEffect s).CanvasReady ∧ gridTagCheck .qcoef (fwdEffect s) = none :=
  h.after_pass forwardBlock_blockFunction fun b t => forwardBlock_frame b.1 b.2 t

/-- INV leaves a canvas whose blocks REASM may read (42_inverse_dequantize.md R109). -/
theorem after_inv : (invEffect s).CanvasReady ∧ gridTagCheck .recon (invEffect s) = none :=
  h.after_pass inverseBlock_blockFunction fun b t => inverseBlock_frame b.1 b.2 t

end State.CanvasReady

/-- PAD leaves a canvas of the snapshot's dimensions (40_padder.md R83). -/
theorem State.SnapFits.padEffect_ready {s : State} (hfit : s.SnapFits) (h : s.mem.wf = true)
    (hsnap : s.engSnap = s.snapNow) : (padEffect s).CanvasReady where
  canonical := padEffect_canonical h
  ph_le := hfit.padEffect_le.1
  pw_le := hfit.padEffect_le.2
  pvalid := rfl
  snapshot := hsnap

end Sys2Proof.Machine
end

section
/-! The obligations of 43_scheduler.md. -/

namespace Sys2Proof.Proofs

open Sys2Proof.Machine

/-- Settles O9: the command's checks pass exactly under its rule's conditions, and acceptance writes three
fields. -/
theorem acceptableCommandsAreAccepted : Obligations.AcceptableCommandsAreAccepted :=
  fun i s hidle hacc => exec_accepted hidle ((commandCheck_eq_none_iff i s).mpr hacc)

/-- Settles O10: a presentation is a rejection, which writes the error capture, or an acceptance by an idle core. -/
theorem presentationTouchesOnlyEngineAndErrors : Obligations.PresentationTouchesOnlyEngineAndErrors := by
  intro w s
  obtain ⟨t, ht⟩ := present_next w s
  refine ⟨t, ht, ?_⟩
  rcases present_cases ht with ⟨e, rfl⟩ | ⟨i, hidle, -, -, rfl⟩
  · refine ⟨?_, fun n h1 h3 => s.raise_irqBit_other e w h1 h3, .inl ⟨s.raise_phase e w, s.raise_engCmd e w,
      s.raise_engSnap e w, s.raise_irqBit_err e w⟩⟩
    rw [s.raise_frame e w]
  · exact ⟨rfl, fun _ _ _ => rfl, .inr ⟨hidle, rfl, rfl, rfl, rfl⟩⟩

/-- Settles O27: under the invariant a step is a next state or a fault, and only the Host's operations fault. -/
theorem onlyHostAccessesStopTheMachine : Obligations.OnlyHostAccessesStopTheMachine := fun _ hs =>
  hs.step_next_or_fault.imp_right fun ⟨f, hf⟩ => ⟨⟨f, hf⟩, hs.host_of_step_fault hf⟩

/-- Settles O29: the invariant holds a legal command in the Engine, and its effect and R122's end leave the errors. -/
theorem runningCommandCompletesOnTheEnginesTurn : Obligations.RunningCommandCompletesOnTheEnginesTurn := by
  rintro s ts hs hbusy (hts | hts)
  · rw [step_of_turn hts]
    exact (hs.ownFields s.host ts s.response).engineStep_done hbusy
  · rw [step_default hts, State.defaultTurn_busy hbusy]
    exact hs.engineStep_done hbusy

/-- Settles O5: the turn names the agent, a CMD write of the Host presents its word, and the Engine completes
ENG.CMD. -/
theorem stepRunsTheDecodedCommand : Obligations.StepRunsTheDecodedCommand := by
  intro s w i hs ts
  have hturn (hhost : s.host = .write .word 0x010 w :: hs) (hts : s.turns = .host :: ts) :
      step s = present w { s with host := hs, turns := ts, response := some .okay } := by
    rw [step_of_turn hts]
    exact hostStep_cmd (s := { s with turns := ts }) hhost
  have hdefault (hhost : s.host = .write .word 0x010 w :: hs) (hts : s.turns = []) (hidle : s.phase = .idle) :
      step s = present w { s with host := hs, response := some .okay } := by
    rw [step_default hts, State.defaultTurn_idle hidle]
    exact hostStep_cmd hhost
  refine ⟨fun hhost => ⟨hostStep_cmd hhost, hturn hhost, hdefault hhost⟩, ?_, ?_, ?_, ?_⟩
  · intro hidle hd hhost hts
    rw [hturn hhost hts]
    exact present_legal hidle hd
  · intro hidle hd hhost hts
    rw [hdefault hhost hts hidle]
    exact present_legal hidle hd
  · intro hbusy hd hts
    rw [step_of_turn hts]
    exact engineStep_busy hbusy hd
  · intro hbusy hd hts
    rw [step_default hts, State.defaultTurn_busy hbusy]
    exact engineStep_busy hbusy hd

/-- Settles O6: the placed word is the command's encoding, which decodes to the command. -/
theorem placedWordRunsNext : Obligations.PlacedWordRunsNext := by
  intro s i hidle hwf
  have hword : BitVec.ofNat 32 ((encode i).toNat % 2 ^ 32) = encode i := by
    rw [Nat.mod_eq_of_lt (encode i).isLt, BitVec.ofNat_toNat, BitVec.setWidth_eq]
  rw [State.withFetchWord, hword, step_presentNext]
  exact present_legal hidle (decodeOfEncodeIsTheCommand i hwf)

/-- Settles O11: NOP has no checks of its own and no effect of its own. -/
theorem nopCompletesWithDoneOnly : Obligations.NopCompletesWithDoneOnly :=
  fun _ => ⟨fun hidle => exec_accepted (i := .nop) hidle rfl, fun hbusy => exec_completes (i := .nop) hbusy⟩

/-- Settles O21: a block function writes its own block, and reads nothing that another block's function writes. -/
theorem distinctBlocksCommute : Obligations.DistinctBlocksCommute := by
  intro s p q p' q' hmem htags hp hq hp' hq' hne
  have hs : s.Canonical := ⟨hmem, htags⟩
  have hb : InWindow (p, q) := ⟨hp, hq⟩
  have hb' : InWindow (p', q') := ⟨hp', hq'⟩
  have hne : (p, q) ≠ (p', q') := by rwa [ne_eq, Prod.mk.injEq, not_and_or]
  exact ⟨forwardBlock_forwardBlock_comm (b := (p, q)) (b' := (p', q')) hs hb hb' hne,
    inverseBlock_inverseBlock_comm (b := (p, q)) (b' := (p', q')) hs hb hb' hne,
    forwardBlock_inverseBlock_comm (b := (p, q)) (b' := (p', q')) hs hb hb' hne⟩

/-- Settles O19: in either schedule RUN's effect is that of the four stages, each stage's checks pass on what the one
before it leaves, and no stage sees which command was in the Engine before it. -/
theorem runIsThePipelineOfItsStages : Obligations.RunIsThePipelineOfItsStages := by
  intro s hbusy hwf hsnap hacc
  obtain ⟨-, -, hw, hh⟩ := hacc
  have hfit : s.SnapFits := by rw [State.SnapFits, hsnap]; exact ⟨hw, hh⟩
  have hpad : exec .pad s = .next ((padEffect s).nextInEngine s.engCmd).finish := by
    rw [exec_completes hbusy, State.finish_eq_nextInEngine_finish s.engCmd]
    rfl
  have hrun : exec .run s = .next (reasmEffect (twoPass (padEffect s))).finish := by
    rw [exec_completes hbusy, commandEffect, runEffect_eq_twoPass hwf hfit]
  obtain ⟨hcmd, hsnap'⟩ := runEffect_engCmd_engSnap s
  rw [runEffect_eq_twoPass hwf hfit] at hcmd hsnap'
  have hready : (padEffect s).CanvasReady := hfit.padEffect_ready hwf hsnap
  obtain ⟨hreadyFwd, hinvCheck⟩ := hready.after_fwd
  obtain ⟨hreadyInv, hreasmCheck⟩ := hreadyFwd.after_inv
  have hfwdCheck : commandCheck .fwd (padEffect s) = none :=
    paddedCheck_eq_none_iff.mpr hready.pvalid
  obtain ⟨hfwd, hfwdDone⟩ := exec_after_completion hready.snapshot hfwdCheck s.engCmd
  obtain ⟨hinv, hinvDone⟩ := exec_after_completion (i := .inv) hreadyFwd.snapshot hinvCheck (encode .fwd)
  obtain ⟨hreasm, hreasmDone⟩ := exec_after_completion (i := .reasm) hreadyInv.snapshot hreasmCheck (encode .inv)
  rw [commandEffect, (keepsTransforms_nextInEngine _).fwdEffect_comm] at hfwdDone
  rw [commandEffect, (keepsTransforms_nextInEngine _).invEffect_comm] at hinvDone
  rw [commandEffect, reasmEffect_nextInEngine] at hreasmDone
  refine ⟨_, _, _, _, _, _, _, _, hrun, hpad, hfwd, rfl, hfwdDone, hinv, rfl, hinvDone, hreasm, rfl, hreasmDone, ?_⟩
  rw [State.finish_eq_nextInEngine_finish (encode .reasm), hcmd, ← hsnap']
  rfl

/-- Settles O20: both schedules leave what the two passes leave, and no transform reads the latched SCHED. -/
theorem scheduleModeIsUnobservable : Obligations.ScheduleModeIsUnobservable := by
  intro s hbusy hwf hw hh flipped
  have hflip : runEffect s.flipSched = (runEffect s).flipSched := runEffect_flipSched hwf ⟨hw, hh⟩
  have hsnap := (runEffect_engCmd_engSnap s).2
  refine ⟨(runEffect s).finish, exec_completes hbusy, ?_⟩
  calc exec .run s.flipSched = .next (runEffect s).flipSched.finish := by
        rw [exec_completes (s := s.flipSched) hbusy, commandEffect, hflip]
    _ = .next { (runEffect s).finish with engSnap := flipped } := by
        rw [State.flipSched, hsnap]
        rfl

end Sys2Proof.Proofs
end

section
/-! The Reassembler (44_reassembler.md): sample conversion on the exact value, and the clamped elements as a set. -/

namespace Sys2Proof.Machine

/-! ## Sample conversion (44_reassembler.md R135) -/

theorem floor_half : ⌊(1 / 2 : ℚ)⌋ = 0 := by norm_num

/-- Above the point the magnitude is an integer, which half a unit does not round up; below it, half a unit is half the
divisor. -/
theorem roundMagnitude_eq_floor (trunc : Bool) (m : ℕ) (e : ℤ) :
    (roundMagnitude trunc m e : ℤ) = if trunc then ⌊(m : ℚ) * 2 ^ e⌋ else ⌊(m : ℚ) * 2 ^ e + 1 / 2⌋ := by
  rcases le_or_gt 0 e with he | he
  · lift e to ℕ using he
    have hint : (m : ℚ) * 2 ^ (e : ℤ) = ((m * 2 ^ e : ℕ) : ℚ) := by push_cast; rfl
    rw [hint, Int.floor_natCast_add, Int.floor_natCast, floor_half, add_zero, ite_self]
    simp [roundMagnitude]
  · obtain ⟨j, rfl⟩ : ∃ j : ℕ, e = -((j + 1 : ℕ) : ℤ) := ⟨(-e - 1).toNat, by omega⟩
    have hquot : (m : ℚ) * 2 ^ (-((j + 1 : ℕ) : ℤ)) = (m : ℚ) / (2 ^ (j + 1) : ℕ) := by
      rw [zpow_neg, zpow_natCast, div_eq_mul_inv]; push_cast; rfl
    have hhalf : (m : ℚ) / (2 ^ (j + 1) : ℕ) + 1 / 2 = ((m + 2 ^ j : ℕ) : ℚ) / (2 ^ (j + 1) : ℕ) := by
      push_cast; field_simp; ring
    have hfloor : ∀ n : ℕ, ⌊(n : ℚ) / (2 ^ (j + 1) : ℕ)⌋ = ((n / 2 ^ (j + 1) : ℕ) : ℤ) := fun n =>
      Rat.floor_natCast_div_natCast n _
    rw [hquot, hhalf, hfloor, hfloor, roundMagnitude, if_neg (by omega), neg_neg, Int.toNat_natCast]
    cases trunc <;> rfl

@[simp] theorem roundMagnitude_zero (trunc : Bool) (e : ℤ) : roundMagnitude trunc 0 e = 0 := by
  rw [← Nat.cast_eq_zero (R := ℤ), roundMagnitude_eq_floor, Nat.cast_zero, zero_mul, zero_add, Int.floor_zero,
    floor_half, ite_self]

theorem abs_f64Value (v : F64) : |f64Value v| = f64Mant v * 2 ^ f64Lsb v := by
  rw [f64Value_eq_mant, abs_mul, abs_signFactor, one_mul, abs_of_nonneg (by positivity)]

/-- A negative zero is not below 0. -/
theorem f64Value_lt_zero_iff (v : F64) : f64Value v < 0 ↔ f64Sign v = true ∧ f64Mant v ≠ 0 := by
  have hplace : (0 : ℚ) < 2 ^ f64Lsb v := by positivity
  rw [f64Value_eq_mant]
  cases f64Sign v with
  | false => simp [signFactor, hplace]
  | true => simp [signFactor, hplace, Nat.pos_iff_ne_zero]

/-- The integer that R135 judges: the rounded magnitude with the value's sign. -/
def roundedValue (trunc : Bool) (v : F64) : ℤ :=
  if f64Sign v then -(roundMagnitude trunc (f64Mant v) (f64Lsb v) : ℤ) else roundMagnitude trunc (f64Mant v) (f64Lsb v)

/-- The sign bit is R135's sign(v) but for a negative zero, which rounds to 0 under either sign. -/
theorem roundedValue_eq (trunc : Bool) (v : F64) :
    roundedValue trunc v = (if f64Value v < 0 then -1 else 1) *
      (if trunc then ⌊|f64Value v|⌋ else ⌊|f64Value v| + 1 / 2⌋) := by
  rw [roundedValue, abs_f64Value, ← roundMagnitude_eq_floor]
  rcases eq_or_ne (f64Mant v) 0 with hzero | hne
  · simp [hzero]
  · cases hs : f64Sign v <;> simp [f64Value_lt_zero_iff, hs, hne]

/-- R135's three cases, on the rounded integer. -/
theorem toSample_eq {v : F64} (hv : f64IsFinite v = true) (trunc : Bool) :
    toSample trunc v =
      if roundedValue trunc v < 0 then (0, true)
      else if 255 < roundedValue trunc v then (255, true)
      else (BitVec.ofNat 8 (roundedValue trunc v).toNat, false) := by
  rw [toSample, if_pos hv, roundedValue]
  generalize roundMagnitude trunc (f64Mant v) (f64Lsb v) = n
  cases f64Sign v with
  | false => simp [Config.sMax]
  | true =>
    rcases Nat.eq_zero_or_pos n with rfl | hn
    · rfl
    · simp [hn, hn.ne']

/-- ROUND_MODE is bit 2 of CTRL (10_state.md R27). -/
theorem ctrlTrunc_eq (c : Word) : ctrlTrunc c = decide (c.toNat / 4 % 2 = 1) := by
  rw [ctrlTrunc, BitVec.getLsbD, Nat.testBit_eq_decide_div_mod_eq]

/-! ## The clamped elements (44_reassembler.md R136) -/

/-- Counting row by row counts the canvas elements that clamp. -/
theorem reasmClamps_eq_card (s : State) :
    reasmClamps s = ((Finset.range s.ph ×ˢ Finset.range s.pw).filter fun e => (s.reasmElement e.1 e.2).2 = true).card :=
  calc reasmClamps s
    _ = ∑ r ∈ Finset.range s.ph, ((Finset.range s.pw).filter fun c => (s.reasmElement r c).2 = true).card := by
        simp only [← Nat.count_eq_card_filter_range]
        simp [reasmClamps, Nat.count, Finset.sum, Multiset.range]
    _ = _ := by simp only [Finset.card_filter, Finset.sum_product]

theorem saturatingCount_toNat (c : Word) (k : Nat) : (saturatingCount c k).toNat = min (c.toNat + k) 0xFFFFFFFF := by
  rw [saturatingCount, BitVec.toNat_ofNat, Nat.mod_eq_of_lt (by omega)]

/-- A clamp sets CLAMP on top of the DONE of every completion. -/
theorem State.reportClamps_finish_irqStatus (s : State) (k : Nat) :
    (s.reportClamps k).finish.irqStatus = s.irqStatus ||| (if 0 < k then 0x5 else 0x1) := by
  rw [State.finish_irqStatus, State.reportClamps_irqStatus]
  split
  · exact BitVec.or_assoc s.irqStatus irqClamp irqDone
  · rfl

end Sys2Proof.Machine
end

section
/-! The obligations of 44_reassembler.md. -/

namespace Sys2Proof.Proofs

open Sys2Proof.Machine

/-- Settles O18: the stored canvas reads back, and the clamp report is on the number of clamped elements. -/
theorem reasmRoundsAndClampsTheCanvas : Obligations.ReasmRoundsAndClampsTheCanvas := by
  intro s hbusy hwf _ hpw conv k
  have hclamps : reasmClamps s = k := reasmClamps_eq_card s
  refine ⟨(reasmEffect s).finish, exec_completes hbusy, fun r c hr hc => reasmEffect_sample hwf hpw hr hc, ?_, ?_,
    rfl, rfl, rfl, rfl⟩
  · rw [← hclamps]
    exact saturatingCount_toNat s.engSnap.clampCnt (reasmClamps s)
  · rw [← hclamps]
    exact State.reportClamps_finish_irqStatus (s.store (reasmCells s)) (reasmClamps s)

/-- Settles O45: the rounded magnitude is R135's floor of the exact value, its sign makes it R135's integer, and the
latched mode is bit 2. -/
theorem sampleConversionIsExact : Obligations.SampleConversionIsExact := by
  constructor
  · intro trunc v hv x n
    have hn : roundedValue trunc v = n := roundedValue_eq trunc v
    rw [← hn]
    exact toSample_eq hv trunc
  · intro s r c
    rw [State.reasmElement, ctrlTrunc_eq]

end Sys2Proof.Proofs
end

section
/-! The rejections of a CMD write (60_exceptions.md R147, R148): which error a command's checks report first, and what
the error capture does with it. -/

namespace Sys2Proof.Machine

/-! ## The first error of each check -/

section Checks

variable {s : State} {p q : Nat} {g : Tag}

/-- An empty input is reported before any padded dimension is looked at (40_padder.md R81). -/
theorem dimensionCheck_invalidDimensions (h : s.inW.toNat % 65536 = 0 ∨ s.inH.toNat % 65536 = 0) :
    dimensionCheck s = some .invalidDimensions := by
  rw [← dimField_eq, ← dimField_eq] at h
  rw [dimensionCheck, if_pos h]

theorem dimensionCheck_allocationFailure (hw : s.inW.toNat % 65536 ≠ 0) (hh : s.inH.toNat % 65536 ≠ 0)
    (hmax : 1024 < padDim (s.inW.toNat % 65536) ∨ 1024 < padDim (s.inH.toNat % 65536)) :
    dimensionCheck s = some .allocationFailure := by
  rw [← dimField_eq] at hw hh
  rw [← dimField_eq, ← dimField_eq] at hmax
  rw [dimensionCheck, if_neg (not_or.mpr ⟨hw, hh⟩), if_pos hmax]

theorem paddedCheck_notPadded (h : s.pvalid = false) : paddedCheck s = some .notPadded := by simp [paddedCheck, h]

theorem blockCheck_notPadded (h : s.pvalid = false) : blockCheck p q s = some .notPadded := by simp [blockCheck, h]

theorem blockCheck_blockRange (hpad : s.pvalid = true) (hout : s.ph ≤ 8 * p ∨ s.pw ≤ 8 * q) :
    blockCheck p q s = some .blockRange := by
  have hgrid : ¬s.inGrid p q = true := by
    rw [State.inGrid_iff]
    omega
  rw [blockCheck, if_pos hpad, if_neg hgrid]

/-- INVB reports what FWDB would report on the same block before it looks at the tag (42_inverse_dequantize.md R108). -/
theorem invbCheck_of_blockCheck {e : CmdError} (h : blockCheck p q s = some e) : invbCheck p q s = some e := by
  simp only [invbCheck, h]

theorem invbCheck_sequence (hblock : blockCheck p q s = none) (htag : s.tag p q ≠ .qcoef) :
    invbCheck p q s = some .sequence := by
  simp only [invbCheck, hblock, if_neg htag]

theorem gridTagCheck_notPadded (h : s.pvalid = false) : gridTagCheck g s = some .notPadded := by
  simp [gridTagCheck, h]

/-- One grid block with another tag rejects the whole pass (42_inverse_dequantize.md R109, 44_reassembler.md R137). -/
theorem gridTagCheck_sequence (hpad : s.pvalid = true) (hp : p < s.ph / 8) (hq : q < s.pw / 8) (htag : s.tag p q ≠ g) :
    gridTagCheck g s = some .sequence := by
  have hgrid : ¬s.gridHasTag g = true := fun h => htag (State.gridHasTag_iff.mp h p q hp hq)
  rw [gridTagCheck, if_pos hpad, if_neg hgrid]

end Checks

/-- What the check of the decoded command reports is captured, with the word as it was written
(43_scheduler.md R120). -/
theorem present_rejected {s : State} {w : Word} {i : Instr} {e : CmdError} (hidle : s.phase = .idle)
    (hd : decode w = .ok i) (hc : commandCheck i s = some e) : present w s = .next (s.raise e w) := by
  rw [present_legal hidle hd, exec_rejected hidle hc, encode_of_decode hd]

/-! ## The error capture -/

/-- ERR is bit 1 of IRQ_STATUS (10_state.md R30). -/
theorem and_irqErr_eq_zero_iff (v : Word) : v &&& irqErr = 0 ↔ v.getLsbD 1 = false := by
  rw [irqErr, show (0x2 : Word) = BitVec.twoPow 32 1 by decide, BitVec.and_twoPow]
  cases v.getLsbD 1 <;> decide

end Sys2Proof.Machine
end

section
/-! The obligations of 60_exceptions.md. -/

namespace Sys2Proof.Proofs

open Sys2Proof.Machine

/-- Settles O7: BUSY and an illegal word come before the command's own check, and each check reports its first error. -/
theorem rejectionsReportTheFirstErrorInOrder : Obligations.RejectionsReportTheFirstErrorInOrder := by
  intro s w
  refine ⟨fun hbusy => present_busy hbusy w, fun hidle ⟨_, he⟩ => present_illegal hidle he, fun hidle hd => ?_,
    fun i hidle hd hi hpad => present_rejected hidle hd ?_, fun p q hidle hd hpad hout => ?_,
    fun p q hidle hd hpad hp hq htag =>
      present_rejected hidle hd (invbCheck_sequence (blockCheck_eq_none_iff.mpr ⟨hpad, hp, hq⟩) htag),
    fun p q hidle hd hpad hp hq htag => present_rejected hidle hd (gridTagCheck_sequence hpad hp hq htag),
    fun p q hidle hd hpad hp hq htag => present_rejected hidle hd (gridTagCheck_sequence hpad hp hq htag)⟩
  · have hreject {e : CmdError} (hc : dimensionCheck s = some e) : present w s = .next (s.raise e w) := by
      rcases hd with hd | hd <;> exact present_rejected hidle hd hc
    exact ⟨fun hzero => hreject (dimensionCheck_invalidDimensions hzero),
      fun hw hh hmax => hreject (dimensionCheck_allocationFailure hw hh hmax)⟩
  · rcases hi with rfl | rfl | rfl | ⟨p, q, rfl | rfl⟩
    · exact paddedCheck_notPadded hpad
    · exact gridTagCheck_notPadded hpad
    · exact gridTagCheck_notPadded hpad
    · exact blockCheck_notPadded hpad
    · exact invbCheck_of_blockCheck (blockCheck_notPadded hpad)
  · have hrange := blockCheck_blockRange hpad hout
    rcases hd with hd | hd
    · exact present_rejected hidle hd hrange
    · exact present_rejected hidle hd (invbCheck_of_blockCheck hrange)

/-- Settles O38: the Host's step faults where its access goes nowhere, and a poll is a 4-byte access. -/
theorem busErrorsAreExactlyTheListedOnes : Obligations.BusErrorsAreExactlyTheListedOnes := fun _ _ _ _ _ _ =>
  ⟨fun hop => exists_hostStep_fault_iff hop, fun hop => exists_hostStep_fault_iff hop,
    fun hop => exists_hostStep_fault_iff hop⟩

/-- Settles O8: the capture branches on ERR, which is bit 1, and the codes are constants. -/
theorem errorCaptureKeepsTheFirstError : Obligations.ErrorCaptureKeepsTheFirstError := by
  refine ⟨fun s e w => ⟨fun hclear => s.raise_first e w ?_, fun hset => s.raise_overrun e w ?_⟩, by decide⟩
  · exact (and_irqErr_eq_zero_iff s.irqStatus).mpr hclear
  · exact (and_irqErr_eq_zero_iff s.irqStatus).not.mpr (ne_false_of_eq_true hset)

end Sys2Proof.Proofs
end

section
/-! What a reset step leaves in the buffers and the registers (70_reset_and_hazards.md R165), and the busy lock of the
configuration registers (R171). -/

namespace Sys2Proof.Machine

/-! ## The image of the buffers -/

/-- A canonical map lists no key below its bound. -/
theorem sparseWfFrom_le_key {α : Type} [DecidableEq α] {d : α} :
    ∀ {m : List (Nat × α)} {lo : Nat}, sparseWfFrom d lo m = true → ∀ c ∈ m, lo ≤ c.1
  | [], _, _ => nofun
  | (k, v) :: rest, lo, h => by
    simp only [sparseWfFrom, Bool.and_eq_true, decide_eq_true_eq] at h
    obtain ⟨⟨hlo, -⟩, hrest⟩ := h
    refine List.forall_mem_cons.mpr ⟨hlo, fun c hc => ?_⟩
    have hkey := sparseWfFrom_le_key hrest c hc
    omega

/-- A write below every listed key puts its entry in front. -/
theorem sparseSet_below {α : Type} [DecidableEq α] {d : α} {m : List (Nat × α)} {a : Nat}
    (h : sparseWfFrom d (a + 1) m = true) {v : α} (hv : v ≠ d) : sparseSet d m a v = (a, v) :: m := by
  cases m with
  | nil => rw [sparseSet, if_neg hv]
  | cons c m =>
    have hkey : a < c.1 := sparseWfFrom_le_key h c List.mem_cons_self
    rw [sparseSet, if_pos hkey, if_neg hv]

/-- A canonical map is what writing its own entries makes of the empty one: the first entry commutes with the others,
whose keys are larger, and so comes to stand in front of them. -/
theorem sparseSetAll_self {α : Type} [DecidableEq α] {d : α} {m : List (Nat × α)} {lo : Nat}
    (h : sparseWfFrom d lo m = true) : sparseSetAll d [] m = m := by
  induction m generalizing lo with
  | nil => rfl
  | cons c m ih =>
    simp only [sparseWfFrom, Bool.and_eq_true, decide_eq_true_eq] at h
    obtain ⟨⟨-, hv⟩, hm⟩ := h
    have hne : ∀ e ∈ m, c.1 ≠ e.1 := fun e he => Nat.ne_of_lt (sparseWfFrom_le_key hm e he)
    rw [sparseSetAll_cons, sparseSetAll_sparseSet_comm hne c.2 rfl, ih hm, sparseSet_below hm hv]

/-- A canonical image that lies in the buffers is the memory a reset leaves (70_reset_and_hazards.md R165). -/
theorem Memory.ofImage_eq_self {image : List Host.Cell} (hwf : Memory.wf image = true)
    (hin : ∀ c ∈ image, inBuffers c.1 = true) : Memory.ofImage image = image := by
  have hfilter : (image.filter fun c => inBuffers c.1) = image := List.filter_eq_self.mpr hin
  rw [Memory.ofImage, hfilter, Memory.store, sparseSetAll_self hwf]

/-! ## The registers -/

/-- After a reset step a register other than QTAB reads as after power-on (10_state.md R49). -/
theorem resetStep_readReg (image : List Host.Cell) (s : State) {r : Reg} (h : ∀ k, r ≠ .qtab k) :
    (resetStep image s).readReg r = State.reset.readReg r := by
  cases r
  case qtab k => exact absurd rfl (h k)
  all_goals rfl

/-- A reset step keeps the step table (10_state.md R40, R49). -/
theorem resetStep_readReg_qtab (image : List Host.Cell) (s : State) (k : Fin 64) :
    (resetStep image s).readReg (.qtab k) = BitVec.ofNat 32 (s.qtab[k.val]'k.isLt).toNat :=
  (BitVec.ofNat_toNat 32 _).symm

/-- With no bit of IRQ_STATUS set, IRQ is 0 (10_state.md R47). -/
theorem State.irqLine_of_irqStatus_zero {s : State} (h : s.irqStatus = 0) : s.irqLine = false := by
  simp [State.irqLine, h]

/-! ## The busy lock -/

/-- While BUSY a write to a busy-locked register is ignored (10_state.md R46). -/
theorem State.busyLocked_busy {s : State} (h : s.phase = .busy) (t : State) : s.busyLocked t = s := by
  simp [State.busyLocked, State.isBusy, h]

/-- The configuration registers are busy-locked (70_reset_and_hazards.md R171). -/
theorem State.writeReg_busy {s : State} (h : s.phase = .busy) (v : Word) {r : Reg}
    (hr : r ∈ [Reg.ctrl, .inW, .inH, .clampCnt]) : s.writeReg v r = s := by
  simp only [List.mem_cons, List.not_mem_nil, or_false] at hr
  rcases hr with rfl | rfl | rfl | rfl <;> exact State.busyLocked_busy h _

end Sys2Proof.Machine
end

section
/-! The obligations of 70_reset_and_hazards.md. -/

namespace Sys2Proof.Proofs

open Sys2Proof.Machine

/-- Settles O31: every register but QTAB reads as after power-on, and storing a canonical image into
empty buffers gives the image. -/
theorem resetStepLeavesTheResetTable : Obligations.ResetStepLeavesTheResetTable := by
  intro s image ts hturn
  refine ⟨resetStep image { s with turns := ts }, step_of_turn hturn, fun r => ?_, fun _ _ => rfl, rfl,
    State.irqLine_of_irqStatus_zero rfl, Memory.ofImage_wf image, Memory.ofImage_eq_self⟩
  cases r
  case qtab k => exact resetStep_readReg_qtab image _ k
  all_goals exact resetStep_readReg image _ nofun

/-- Settles O35: each of the four offsets names a configuration register, and the lock ignores the write. -/
theorem configurationWritesWhileBusyAreLost : Obligations.ConfigurationWritesWhileBusyAreLost := by
  intro s addr v rest hbusy hop haddr
  have named : ∀ a ∈ [0x00C, 0x028, 0x02C, 0x038],
      ∃ r ∈ [Reg.ctrl, .inW, .inH, .clampCnt], Reg.ofOffset a = some r := by decide
  obtain ⟨r, hlocked, hr⟩ := named _ haddr
  have hcmd : r ≠ .cmd := by
    rintro rfl
    exact absurd hlocked (by decide)
  rw [hostStep_writeReg hop hr hcmd,
    State.writeReg_busy (s := { s with host := rest, response := some .okay }) hbusy v hlocked]

end Sys2Proof.Proofs
end
